-- ==== Sys2Proof/Word.lean ====
section
/-! DEFINITION. The value types of the block (rule R8 of spec/00_scope.md): unsigned values of a stated width. -/

namespace Sys2Proof

/-- `u8`: a byte of FB or PB, a slave address, a function code (R8). -/
abbrev Byte := BitVec 8

/-- `u16`: a register value, a checksum, a length, a count (R8). -/
abbrev Half := BitVec 16

/-- `u64`: a command word (R8, R71). -/
abbrev Word := BitVec 64

end Sys2Proof
end

