-- ==== Sys2Proof/Config.lean ====
section
/-! DEFINITION. The free values: what a host reads from a buffer element that nothing has written since reset (rule R54 of
spec/20_memory.md: "a draw: any value of the element's width, unconstrained"; S2 of spec/93_implementation_defined.md).
Each is an opaque constant of the number of draws made before it, so no proof can know or relate its values. -/

namespace Sys2Proof

/-- The draw for an 8-bit element (FB, PB), by the number of draws made so far (R54). Log entry 3. -/
opaque Config.drawByte : Nat → Byte

/-- The draw for a 16-bit element (RG), by the number of draws made so far (R54). Log entry 3. -/
opaque Config.drawHalf : Nat → Half

end Sys2Proof
end

