-- ==== Sys2Proof/Machine/Operands.lean ====
section
/-! DEFINITION. The operand forms: the fields of the command word (rules R71, R72 of spec/30_encoding.md) and the byte-order
helpers of rule R9 of spec/00_scope.md (rules R56 to R58 of spec/20_memory.md). -/

namespace Sys2Proof.Machine

/-- `hi(v) = v[15:8]` (R9). -/
def hi (v : Half) : Byte := v.extractLsb' 8 8

/-- `lo(v) = v[7:0]` (R9). -/
def lo (v : Half) : Byte := v.extractLsb' 0 8

/-- `be16(h, l) = (h << 8) | l` (R9). -/
def be16 (h l : Byte) : Half := (h.setWidth 16 <<< 8) ||| l.setWidth 16

/-- `bytes_be16(v)`, the two bytes of `v` high byte first (R9, R56). -/
def bytesBe16 (v : Half) : List Byte := [hi v, lo v]

/-- The registers of a payload, each high byte first (R57). -/
def bytesBe16List : List Half → List Byte
  | [] => []
  | v :: vs => hi v :: lo v :: bytesBe16List vs

/-- The 16-bit values of a byte sequence, each high byte first (R56, R57); an odd last byte is dropped. -/
def be16List : List Byte → List Half
  | h :: l :: rest => be16 h l :: be16List rest
  | [_] => []
  | [] => []

/-- OPC, bits 7:0 of the command word (R71). -/
def opcField (w : Word) : Byte := w.extractLsb' 0 8

/-- A, bits 15:8 (R71). -/
def aField (w : Word) : Byte := w.extractLsb' 8 8

/-- B, bits 23:16 (R71). -/
def bField (w : Word) : Byte := w.extractLsb' 16 8

/-- RES, bits 31:24, which must be 0 (R71). -/
def resField (w : Word) : Byte := w.extractLsb' 24 8

/-- C, bits 47:32 (R71). -/
def cField (w : Word) : Half := w.extractLsb' 32 16

/-- D, bits 63:48 (R71). -/
def dField (w : Word) : Half := w.extractLsb' 48 16

/-- `OPC | A << 8 | B << 16 | C << 32 | D << 48`, the encoding of R89. -/
def packWord (opc a b : Byte) (c d : Half) : Word :=
  opc.setWidth 64 ||| (a.setWidth 64 <<< 8) ||| (b.setWidth 64 <<< 16) ||| (c.setWidth 64 <<< 32) |||
    (d.setWidth 64 <<< 48)

end Sys2Proof.Machine
end

