-- ==== Sys2Proof/Machine/Params.lean ====
section
/-! DEFINITION. The named values among the parameters of rule R7 of spec/00_scope.md. The sizes and ranges of R7 (256 bytes
of FB, PB and a frame; 125 registers; addresses 1 to 247; counts up to 125 and 123; codes 1 to 8; EXC_FLAG 0x80; function
codes 0x03, 0x06, 0x10) stand as numbers where a rule's pseudocode has them as numbers. -/

namespace Sys2Proof.Machine

/-- CRC_POLY_REFLECTED (R7). -/
abbrev crcPoly : Half := 0xA001#16

/-- CRC_SEED (R7, R100). -/
abbrev crcSeed : Half := 0xFFFF#16

end Sys2Proof.Machine
end

