-- ==== Sys2Proof/Syntax.lean ====
section
/-! DEFINITION. The abstract syntax: one constructor per row of spec/opcode_table.json, the 17 commands (rule R73 of
spec/30_encoding.md) and the 7 wire-frame forms (rules R78 to R84), with the operand names the spec gives them. -/

namespace Sys2Proof

/-- Which way a wire frame travels: request and response share their function code and "are told apart by direction"
(the note of the wire rows of spec/opcode_table.json; R85). -/
inductive Direction where
  | request
  | response
deriving DecidableEq, Repr

/-- One row of spec/opcode_table.json each. A wire frame's `chk` is the checksum it carries, right or wrong: R121 makes
checking it the deserializers' work (log entry 5). -/
inductive Instr where
  /-- CRC_RESET (R110). -/
  | crcReset
  /-- CRC_FEED byte=A (R111). -/
  | crcFeed (byte : Byte)
  /-- CRC_BUF n=C (R112). -/
  | crcBuf (n : Half)
  /-- ADDR_CHECK addr=A (R120). -/
  | addrCheck (addr : Byte)
  /-- FRAME_BUILD addr=A, fc=B (R122). -/
  | frameBuild (addr fc : Byte)
  /-- FRAME_PARSE addr=A, fc=B, cap=C (R125). -/
  | frameParse (addr fc : Byte) (cap : Half)
  /-- SLAVE_PARSE own=A (R132). -/
  | slaveParse (own : Byte)
  /-- REQ_REMLEN fc=B, count=D (R140). -/
  | reqRemlen (fc : Byte) (count : Half)
  /-- MRS_RD_REQ start=C, count=D (R150). -/
  | mrsRdReq (start count : Half)
  /-- MRS_WS addr=C, value=D (R152). -/
  | mrsWs (addr value : Half)
  /-- MRS_WM_REQ start=C, count=D (R154). -/
  | mrsWmReq (start count : Half)
  /-- MRS_RD_RSP count=D (R156). -/
  | mrsRdRsp (count : Half)
  /-- MRS_WM_RSP start=C, count=D (R158). -/
  | mrsWmRsp (start count : Half)
  /-- MRS_EXC code=A (R160). -/
  | mrsExc (code : Byte)
  /-- UNM_RD_RSP count=D (R165). -/
  | unmRdRsp (count : Half)
  /-- CHK_WS_RSP addr=C, value=D (R168). -/
  | chkWsRsp (addr value : Half)
  /-- CHK_WM_RSP start=C, count=D (R171). -/
  | chkWmRsp (start count : Half)
  /-- The 0x03 request frame (R78). -/
  | wireReq03 (addr : Byte) (start count chk : Half)
  /-- The 0x03 normal response frame (R79); its byte_count is twice the number of `regs`. -/
  | wireRsp03 (addr : Byte) (regs : List Half) (chk : Half)
  /-- The 0x06 request frame (R80). -/
  | wireReq06 (addr : Byte) (reg value chk : Half)
  /-- The 0x06 normal response frame, the echo of the request (R81). -/
  | wireRsp06 (addr : Byte) (reg value chk : Half)
  /-- The 0x10 request frame (R82); its count is the number of `regs` and its byte_count twice that. -/
  | wireReq10 (addr : Byte) (start : Half) (regs : List Half) (chk : Half)
  /-- The 0x10 normal response frame (R83). -/
  | wireRsp10 (addr : Byte) (start count chk : Half)
  /-- The exception response frame (R84); `fc` is the byte on the wire, the request's function code with bit 7 set. -/
  | wireExc (addr fc code : Byte) (chk : Half)
deriving DecidableEq, Repr

/-- The instruction is one of the 17 commands of R73 (the others are the wire-frame forms of R78 to R84). -/
def Instr.isCommand : Instr → Bool
  | .crcReset => true
  | .crcFeed _ => true
  | .crcBuf _ => true
  | .addrCheck _ => true
  | .frameBuild _ _ => true
  | .frameParse _ _ _ => true
  | .slaveParse _ => true
  | .reqRemlen _ _ => true
  | .mrsRdReq _ _ => true
  | .mrsWs _ _ => true
  | .mrsWmReq _ _ => true
  | .mrsRdRsp _ => true
  | .mrsWmRsp _ _ => true
  | .mrsExc _ => true
  | .unmRdRsp _ => true
  | .chkWsRsp _ _ => true
  | .chkWmRsp _ _ => true
  | .wireReq03 _ _ _ _ => false
  | .wireRsp03 _ _ _ => false
  | .wireReq06 _ _ _ _ => false
  | .wireRsp06 _ _ _ _ => false
  | .wireReq10 _ _ _ _ => false
  | .wireRsp10 _ _ _ _ => false
  | .wireExc _ _ _ _ => false

/-- The mnemonics of R73, as the assembler notation of R89 writes them. -/
inductive Mnemonic where
  | CRC_RESET | CRC_FEED | CRC_BUF | ADDR_CHECK | FRAME_BUILD | FRAME_PARSE | SLAVE_PARSE | REQ_REMLEN
  | MRS_RD_REQ | MRS_WS | MRS_WM_REQ | MRS_RD_RSP | MRS_WM_RSP | MRS_EXC | UNM_RD_RSP | CHK_WS_RSP | CHK_WM_RSP
deriving DecidableEq, Repr

/-- The operand names of R73's "Fields" column. -/
inductive OperandName where
  | byte | n | addr | fc | cap | own | count | start | value | code
deriving DecidableEq, Repr

/-- The standard exception codes an exception response carries (R86). -/
inductive WireException where
  | IllegalFunction | IllegalDataAddress | IllegalDataValue | SlaveDeviceFailure | Acknowledge | SlaveDeviceBusy
  | NegativeAcknowledge | MemoryParityError
deriving DecidableEq, Repr

end Sys2Proof
end

