-- ==== Sys2Proof/WellFormed.lean ====
section
/-! DEFINITION. Which instructions have an encoding. A command's operands fill their fields (R71, R72: a field wider than the
operand's legal range carries its value unchanged), so every command is well-formed; a wire frame must fit its layout. -/

namespace Sys2Proof

open Machine

/-- The instruction has an encoding: the register lists fit the frame layouts (R79: at most 125; R82: at most 123) and an
exception response's function-code byte has bit 7 set (R84). -/
def Instr.wf : Instr → Bool
  | .crcReset => true
  | .crcFeed _ => true
  | .crcBuf _ => true
  | .addrCheck _ => true
  | .frameBuild _ _ => true
  | .frameParse _ _ _ => true
  | .slaveParse _ => true
  | .reqRemlen _ _ => true
  | .mrsRdReq _ _ => true
  | .mrsWs _ _ => true
  | .mrsWmReq _ _ => true
  | .mrsRdRsp _ => true
  | .mrsWmRsp _ _ => true
  | .mrsExc _ => true
  | .unmRdRsp _ => true
  | .chkWsRsp _ _ => true
  | .chkWmRsp _ _ => true
  | .wireReq03 _ _ _ _ => true
  | .wireRsp03 _ regs _ => decide (regs.length ≤ 125)
  | .wireReq06 _ _ _ _ => true
  | .wireRsp06 _ _ _ _ => true
  | .wireReq10 _ _ regs _ => decide (regs.length ≤ 123)
  | .wireRsp10 _ _ _ _ => true
  | .wireExc _ fc _ _ => decide (fc &&& 0x80 = 0x80)

end Sys2Proof
end

