-- ==== Sys2Proof/Decode.lean ====
section
/-! DEFINITION. The decoder, total and rejecting by name, and the encoder after it, both written from spec/30_encoding.md:
command words (R70 to R76, R89) and wire frames (R77 to R87). -/

namespace Sys2Proof

open Machine

/-- Which operand fields of the command word an opcode uses (the "Fields" column of R73). -/
structure FieldUse where
  a : Bool := false
  b : Bool := false
  c : Bool := false
  d : Bool := false
deriving DecidableEq, Repr

/-- Why a word or a frame is no instruction. -/
inductive DecodeError where
  /-- The opcode is not one of R73 (R75). -/
  | reservedOpcode (opc : Byte)
  /-- RES, bits 31:24, is not 0 (R74). -/
  | reservedField
  /-- A field the opcode does not use is not 0 (R74). -/
  | unusedField
  /-- A frame of fewer than two bytes has no function code (R77). -/
  | noHeader
  /-- The function code is none of R85. -/
  | unrecognisedFunction (fc : Byte)
  /-- The frame has not the length of its layout (R78 to R84). -/
  | wrongLength
  /-- byte_count is not twice the count, or not even (R79, R82). -/
  | byteCountMismatch
  /-- More registers than the layout holds (R79, R82, R87). -/
  | tooManyRegisters
deriving DecidableEq, Repr

/-- The reserved and unused fields of a word are zero, or the name of the first that is not (R70, R74). -/
def checkFields (w : Word) (u : FieldUse) (i : Instr) : Except DecodeError Instr :=
  if resField w ≠ 0 then .error .reservedField
  else if u.a = false ∧ aField w ≠ 0 then .error .unusedField
  else if u.b = false ∧ bField w ≠ 0 then .error .unusedField
  else if u.c = false ∧ cField w ≠ 0 then .error .unusedField
  else if u.d = false ∧ dField w ≠ 0 then .error .unusedField
  else .ok i

/-- The command a word written to CMD stands for (R70 to R76). -/
def decodeCommand (w : Word) : Except DecodeError Instr :=
  match (opcField w).toNat with
  | 0x01 => checkFields w {} .crcReset
  | 0x02 => checkFields w { a := true } (.crcFeed (aField w))
  | 0x03 => checkFields w { c := true } (.crcBuf (cField w))
  | 0x10 => checkFields w { a := true } (.addrCheck (aField w))
  | 0x11 => checkFields w { a := true, b := true } (.frameBuild (aField w) (bField w))
  | 0x12 => checkFields w { a := true, b := true, c := true } (.frameParse (aField w) (bField w) (cField w))
  | 0x13 => checkFields w { a := true } (.slaveParse (aField w))
  | 0x14 => checkFields w { b := true, d := true } (.reqRemlen (bField w) (dField w))
  | 0x20 => checkFields w { c := true, d := true } (.mrsRdReq (cField w) (dField w))
  | 0x21 => checkFields w { c := true, d := true } (.mrsWs (cField w) (dField w))
  | 0x22 => checkFields w { c := true, d := true } (.mrsWmReq (cField w) (dField w))
  | 0x23 => checkFields w { d := true } (.mrsRdRsp (dField w))
  | 0x24 => checkFields w { c := true, d := true } (.mrsWmRsp (cField w) (dField w))
  | 0x25 => checkFields w { a := true } (.mrsExc (aField w))
  | 0x30 => checkFields w { d := true } (.unmRdRsp (dField w))
  | 0x31 => checkFields w { c := true, d := true } (.chkWsRsp (cField w) (dField w))
  | 0x32 => checkFields w { c := true, d := true } (.chkWmRsp (cField w) (dField w))
  | _ => .error (.reservedOpcode (opcField w))

/-- The bytes after the header of an 8-byte frame: two 16-bit fields high byte first, then the checksum low byte first
(R78, R80, R81, R83; R58). -/
def decodeTwoFields (mk : Half → Half → Half → Instr) : List Byte → Except DecodeError Instr
  | [h1, l1, h2, l2, chkLo, chkHi] => .ok (mk (be16 h1 l1) (be16 h2 l2) (be16 chkHi chkLo))
  | _ => .error .wrongLength

/-- `nbytes` of register data and the checksum, low byte first, and nothing more (R79, R82; R58). -/
def decodeRegisters (mk : List Half → Half → Instr) (nbytes : Nat) (data : List Byte) : Except DecodeError Instr :=
  match data.drop nbytes with
  | [chkLo, chkHi] => .ok (mk (be16List (data.take nbytes)) (be16 chkHi chkLo))
  | _ => .error .wrongLength

/-- The bytes of a 0x03 response after its header (R79). -/
def decodeReadResponse (addr : Byte) : List Byte → Except DecodeError Instr
  | byteCount :: data =>
    if byteCount.toNat % 2 ≠ 0 then .error .byteCountMismatch
    else if byteCount.toNat > 2 * 125 then .error .tooManyRegisters
    else decodeRegisters (.wireRsp03 addr) byteCount.toNat data
  | [] => .error .wrongLength

/-- The bytes of a 0x10 request after its header (R82, R87). -/
def decodeWriteRequest (addr : Byte) : List Byte → Except DecodeError Instr
  | h1 :: l1 :: h2 :: l2 :: byteCount :: data =>
    if (be16 h2 l2).toNat > 123 then .error .tooManyRegisters
    else if byteCount.toNat ≠ 2 * (be16 h2 l2).toNat then .error .byteCountMismatch
    else decodeRegisters (.wireReq10 addr (be16 h1 l1)) byteCount.toNat data
  | _ => .error .wrongLength

/-- The bytes of an exception response after its header (R84). -/
def decodeException (addr fc : Byte) : List Byte → Except DecodeError Instr
  | [code, chkLo, chkHi] => .ok (.wireExc addr fc code (be16 chkHi chkLo))
  | _ => .error .wrongLength

/-- The wire form of a frame, by its direction and its function code (R77 to R85). -/
def decodeWire (d : Direction) : List Byte → Except DecodeError Instr
  | addr :: fc :: rest =>
    match d with
    | .request =>
      if fc = 0x03 then decodeTwoFields (.wireReq03 addr) rest
      else if fc = 0x06 then decodeTwoFields (.wireReq06 addr) rest
      else if fc = 0x10 then decodeWriteRequest addr rest
      else .error (.unrecognisedFunction fc)
    | .response =>
      if fc = 0x03 then decodeReadResponse addr rest
      else if fc = 0x06 then decodeTwoFields (.wireRsp06 addr) rest
      else if fc = 0x10 then decodeTwoFields (.wireRsp10 addr) rest
      else if fc &&& 0x80 = 0x80 then decodeException addr fc rest
      else .error (.unrecognisedFunction fc)
  | _ => .error .noHeader

/-- The two encodings of spec/30_encoding.md: a command word, or a wire frame travelling one way. -/
inductive Encoding where
  | command (w : Word)
  | frame (d : Direction) (bytes : List Byte)
deriving DecidableEq, Repr

/-- The decoder of both encodings. -/
def decode : Encoding → Except DecodeError Instr
  | .command w => decodeCommand w
  | .frame d bytes => decodeWire d bytes

/-! The encoder. -/

/-- The bytes of a frame: header, payload, and the checksum low byte first (R77, R58). -/
def frameOf (addr fc : Byte) (payload : List Byte) (chk : Half) : List Byte :=
  addr :: fc :: (payload ++ [lo chk, hi chk])

/-- The payload of a read response: byte_count, then the registers (R79). -/
def readResponsePayload (regs : List Half) : List Byte :=
  BitVec.ofNat 8 (2 * regs.length) :: bytesBe16List regs

/-- The payload of a write-multiple request: start, count, byte_count, then the registers (R82). -/
def writeRequestPayload (start : Half) (regs : List Half) : List Byte :=
  bytesBe16 start ++ bytesBe16 (BitVec.ofNat 16 regs.length) ++ readResponsePayload regs

/-- The encoding of an instruction: R73 and R89 for a command, R78 to R84 for a wire form. -/
def encode (i : Instr) : Encoding :=
  match i with
  | .crcReset => .command (packWord 0x01 0 0 0 0)
  | .crcFeed byte => .command (packWord 0x02 byte 0 0 0)
  | .crcBuf n => .command (packWord 0x03 0 0 n 0)
  | .addrCheck addr => .command (packWord 0x10 addr 0 0 0)
  | .frameBuild addr fc => .command (packWord 0x11 addr fc 0 0)
  | .frameParse addr fc cap => .command (packWord 0x12 addr fc cap 0)
  | .slaveParse own => .command (packWord 0x13 own 0 0 0)
  | .reqRemlen fc count => .command (packWord 0x14 0 fc 0 count)
  | .mrsRdReq start count => .command (packWord 0x20 0 0 start count)
  | .mrsWs addr value => .command (packWord 0x21 0 0 addr value)
  | .mrsWmReq start count => .command (packWord 0x22 0 0 start count)
  | .mrsRdRsp count => .command (packWord 0x23 0 0 0 count)
  | .mrsWmRsp start count => .command (packWord 0x24 0 0 start count)
  | .mrsExc code => .command (packWord 0x25 code 0 0 0)
  | .unmRdRsp count => .command (packWord 0x30 0 0 0 count)
  | .chkWsRsp addr value => .command (packWord 0x31 0 0 addr value)
  | .chkWmRsp start count => .command (packWord 0x32 0 0 start count)
  | .wireReq03 addr start count chk => .frame .request (frameOf addr 0x03 (bytesBe16 start ++ bytesBe16 count) chk)
  | .wireRsp03 addr regs chk => .frame .response (frameOf addr 0x03 (readResponsePayload regs) chk)
  | .wireReq06 addr reg value chk =>
    .frame .request (frameOf addr 0x06 (bytesBe16 reg ++ bytesBe16 value) chk)
  | .wireRsp06 addr reg value chk =>
    .frame .response (frameOf addr 0x06 (bytesBe16 reg ++ bytesBe16 value) chk)
  | .wireReq10 addr start regs chk =>
    .frame .request (frameOf addr 0x10 (writeRequestPayload start regs) chk)
  | .wireRsp10 addr start count chk =>
    .frame .response (frameOf addr 0x10 (bytesBe16 start ++ bytesBe16 count) chk)
  | .wireExc addr fc code chk => .frame .response (frameOf addr fc [code] chk)

/-! The assembler notation of R89: a mnemonic and named operands, an operand left out being 0. -/

/-- One row of R73's table. -/
structure CommandRow where
  mnemonic : Mnemonic
  opc      : Byte
  a        : Option OperandName
  b        : Option OperandName
  c        : Option OperandName
  d        : Option OperandName
  matchBits : Word
  maskBits  : Word
deriving DecidableEq, Repr

/-- R73's table, row by row as the spec lists it. -/
def commandTable : List CommandRow :=
  [ ⟨.CRC_RESET, 0x01, none, none, none, none, 0x0000000000000001, 0xFFFFFFFFFFFFFFFF⟩,
    ⟨.CRC_FEED, 0x02, some .byte, none, none, none, 0x0000000000000002, 0xFFFFFFFFFFFF00FF⟩,
    ⟨.CRC_BUF, 0x03, none, none, some .n, none, 0x0000000000000003, 0xFFFF0000FFFFFFFF⟩,
    ⟨.ADDR_CHECK, 0x10, some .addr, none, none, none, 0x0000000000000010, 0xFFFFFFFFFFFF00FF⟩,
    ⟨.FRAME_BUILD, 0x11, some .addr, some .fc, none, none, 0x0000000000000011, 0xFFFFFFFFFF0000FF⟩,
    ⟨.FRAME_PARSE, 0x12, some .addr, some .fc, some .cap, none, 0x0000000000000012, 0xFFFF0000FF0000FF⟩,
    ⟨.SLAVE_PARSE, 0x13, some .own, none, none, none, 0x0000000000000013, 0xFFFFFFFFFFFF00FF⟩,
    ⟨.REQ_REMLEN, 0x14, none, some .fc, none, some .count, 0x0000000000000014, 0x0000FFFFFF00FFFF⟩ ] ++
  [ ⟨.MRS_RD_REQ, 0x20, none, none, some .start, some .count, 0x0000000000000020, 0x00000000FFFFFFFF⟩,
    ⟨.MRS_WS, 0x21, none, none, some .addr, some .value, 0x0000000000000021, 0x00000000FFFFFFFF⟩,
    ⟨.MRS_WM_REQ, 0x22, none, none, some .start, some .count, 0x0000000000000022, 0x00000000FFFFFFFF⟩,
    ⟨.MRS_RD_RSP, 0x23, none, none, none, some .count, 0x0000000000000023, 0x0000FFFFFFFFFFFF⟩,
    ⟨.MRS_WM_RSP, 0x24, none, none, some .start, some .count, 0x0000000000000024, 0x00000000FFFFFFFF⟩,
    ⟨.MRS_EXC, 0x25, some .code, none, none, none, 0x0000000000000025, 0xFFFFFFFFFFFF00FF⟩,
    ⟨.UNM_RD_RSP, 0x30, none, none, none, some .count, 0x0000000000000030, 0x0000FFFFFFFFFFFF⟩,
    ⟨.CHK_WS_RSP, 0x31, none, none, some .addr, some .value, 0x0000000000000031, 0x00000000FFFFFFFF⟩,
    ⟨.CHK_WM_RSP, 0x32, none, none, some .start, some .count, 0x0000000000000032, 0x00000000FFFFFFFF⟩ ]

/-- The row of a mnemonic (R73). -/
def rowOf (m : Mnemonic) : Option CommandRow := commandTable.find? fun r => decide (r.mnemonic = m)

/-- The value given to a field's operand name, or 0 where the row has no such field or the name is left out (R89). -/
def operandValue (name : Option OperandName) (args : List (OperandName × Nat)) : Nat :=
  match name with
  | none => 0
  | some x => ((args.find? fun p => decide (p.1 = x)).map Prod.snd).getD 0

/-- The operand named is one of the row's and its value fits the field's width (R71, R89). -/
def argFits (r : CommandRow) (p : OperandName × Nat) : Bool :=
  (decide (some p.1 = r.a ∨ some p.1 = r.b) && decide (p.2 < 256)) ||
    (decide (some p.1 = r.c ∨ some p.1 = r.d) && decide (p.2 < 65536))

/-- `MNEMONIC name=value, …` as a command word (R89); none where an operand is not the row's or does not fit its field. -/
def assemble (m : Mnemonic) (args : List (OperandName × Nat)) : Option Word :=
  match rowOf m with
  | none => none
  | some r =>
    if args.all (argFits r) then
      some (packWord r.opc (BitVec.ofNat 8 (operandValue r.a args)) (BitVec.ofNat 8 (operandValue r.b args))
        (BitVec.ofNat 16 (operandValue r.c args)) (BitVec.ofNat 16 (operandValue r.d args)))
    else none

/-! The opcode table's words. -/

/-- The direction in which a table row's function-code byte is read: an exception is a response, and the codes that
request and response share are read as the request's (log entry 6). -/
def tableDirection (fc : Byte) : Direction := if fc &&& 0x80 = 0x80 then .response else .request

/-- The shortest frame whose function-code byte (byte 1) is the table's and whose other bytes are 0: 9 bytes for 0x10, 5
for an exception, else 8 (R87, R84). -/
def tableFrame (fc : Byte) : List Byte :=
  0 :: fc :: List.replicate (if fc = 0x10 then 7 else if fc &&& 0x80 = 0x80 then 3 else 6) 0

/-- What the decoder reads from a word of spec/opcode_table.json: a command row gives the 64-bit command word (or its low
bits, the rest being 0), a wire row its frame's function-code byte. -/
def decodeTableWord (nbits w : Nat) : Option Instr :=
  if nbits ≤ 8 then
    (decodeWire (tableDirection (BitVec.ofNat 8 w)) (tableFrame (BitVec.ofNat 8 w))).toOption
  else (decodeCommand (BitVec.ofNat 64 w)).toOption

end Sys2Proof
end

