-- ==== Sys2Proof/Machine/State.lean ====
section
/-! DEFINITION. The state of the block (spec/10_state.md) and of its one host (R4, R63, R92), the reasons a step can stop,
and the state after reset (R200). -/

namespace Sys2Proof.Machine

/-- The status codes' names (R180). -/
inductive Status where
  | ok
  | invalidAddress
  | invalidParameter
  | invalidResponse
  | checksumError
  | invalidFunctionCode
  | illegalCommand
deriving DecidableEq, Repr

/-- An access width of the host bus (R54); 32 bits is no location's width, so such an access is refused (R55). -/
inductive AccessWidth where
  | w8 | w16 | w32 | w64
deriving DecidableEq, Repr

/-- A value of one access width. -/
inductive HostData where
  | b8 (v : Byte)
  | b16 (v : Half)
  | b32 (v : BitVec 32)
  | b64 (v : Word)
deriving DecidableEq, Repr

/-- A location of the host's register map, by name (R54). -/
inductive Loc where
  | fb (i : Fin 256)
  | pb (i : Fin 256)
  | rg (i : Fin 125)
  | cmd
  | status
  | acc
  | flen
  | plen
  | rcount
  | rspKind
  | excCode
  | dFc
  | dAddr
  | dCount
  | dValue
  | dBc
  | dLen
  | t (i : Fin 256)
deriving DecidableEq, Repr

/-- One host access of the bus: a byte offset and a width, or a value of one (R54, R55). -/
inductive HostAccess where
  | read (offset : Nat) (width : AccessWidth)
  | write (offset : Nat) (data : HostData)
deriving DecidableEq, Repr

/-- One line of a host program (R92): a command (R89), a pseudo-operation (R90, R91), or one of the three inputs the spec
gives outside that notation: a single bus access (R54), a frame arriving from the transport (R25, R175), a platform reset
(R201). -/
inductive HostLine where
  /-- A command: the host writes `w` to CMD (R20). -/
  | command (w : Word)
  /-- LOAD_FB (R90). -/
  | loadFb (bytes : List Byte)
  /-- LOAD_PB (R90). -/
  | loadPb (bytes : List Byte)
  /-- LOAD_RG (R90). -/
  | loadRg (values : List Half)
  /-- SET_FLEN (R90). -/
  | setFlen (n : Half)
  /-- SET_PLEN (R90). -/
  | setPlen (n : Half)
  /-- POKE_FB (R90). -/
  | pokeFb (i : Fin 256) (b : Byte)
  /-- READ of a named location (R90). -/
  | read (l : Loc)
  /-- READ FB[0..FLEN), as the programs of spec/95_test_vectors.md write it. -/
  | readFrame
  /-- BR_EQ name, v, k (R91). -/
  | brEq (l : Loc) (v k : Nat)
  /-- BR_STATUS S, k (R91). -/
  | brStatus (st : Status) (k : Nat)
  /-- STOP (R91). -/
  | stop
  /-- One access of the register map, by offset and width (R54, R55). -/
  | access (a : HostAccess)
  /-- A frame arrives from the transport and the host loads it (R25, R175). -/
  | receive (d : Direction) (bytes : List Byte)
  /-- A platform reset (R201); how it is signalled is the open parameter RESET_SOURCE. -/
  | platformReset
deriving DecidableEq, Repr

/-- Why the machine stops with a fault: a command read a buffer element never written since reset (R52). Safe: the real
block returns some value there and goes on (R52, R12). -/
inductive Fault where
  /-- FB[i] is unwritten: raised by CRC_BUF, FRAME_PARSE and SLAVE_PARSE (R50, R52). Safe. -/
  | unwrittenFb (i : Nat)
  /-- PB[i] is unwritten: raised by FRAME_BUILD, UNM_RD_RSP, CHK_WS_RSP and CHK_WM_RSP (R50, R52). Safe. -/
  | unwrittenPb (i : Nat)
  /-- RG[i] is unwritten: raised by MRS_WM_REQ and MRS_RD_RSP (R50, R52). Safe. -/
  | unwrittenRg (i : Nat)
deriving DecidableEq, Repr

/-- Why the machine refuses: the host made an access that R54's map does not admit (R55). Safe: it changes no state. -/
inductive Refusal where
  /-- An instruction rejected by name in exec; no arm answers it. Safe. -/
  | notModelled (mnemonic : String)
  /-- No location starts at the offset: raised by the host bus (R55). Safe. -/
  | noLocation (offset : Nat)
  /-- The access has not the location's width: raised by the host bus (R55, R60). Safe. -/
  | wrongWidth (l : Loc)
  /-- A write to a location marked read: raised by the host bus (R55). Safe. -/
  | readOnly (l : Loc)
  /-- A pseudo-operation would reach past the end of FB, PB or RG: raised by LOAD_FB, LOAD_PB, LOAD_RG, READ FB[0..FLEN)
  and a received frame (R90, R55). Safe. -/
  | pastBufferEnd (index : Nat)
deriving DecidableEq, Repr

/-- A buffer as plain data: the written elements with their index, indices strictly rising. An index not listed has
written-mark 0 (R39) and holds no value. FB and PB are lists of `Host.Cell`. -/
abbrev Memory (α : Type) := List (Nat × α)

/-- The block's state (R20 to R39) and its host's (R63, R92). The table ROM T is fixed (R23) and so is the constant
`Machine.crcTable`, not a field; the written-marks (R39) are which indices the buffers list. -/
structure State where
  /-- The command register (R20). -/
  cmd     : Word
  /-- The status of the last command (R21). -/
  status  : Byte
  /-- The checksum accumulator (R22). -/
  acc     : Half
  /-- The frame buffer, 256 bytes (R25), with its written-marks (R39). -/
  fb      : Memory Byte
  /-- The number of valid bytes of FB (R26). -/
  flen    : Half
  /-- The payload buffer, 256 bytes (R27), with its written-marks (R39). -/
  pb      : Memory Byte
  /-- The number of valid bytes of PB (R28). -/
  plen    : Half
  /-- The register array, 125 values (R29), with its written-marks (R39). -/
  rg      : Memory Half
  /-- The number of RG entries the last decoding command wrote (R30). -/
  rcount  : Byte
  /-- 0 a normal response, 1 an exception response (R31). -/
  rspKind : BitVec 1
  /-- The exception code of the last response (R32). -/
  excCode : Byte
  /-- The function code of the last accepted frame (R33). -/
  dFc     : Byte
  /-- The decoded register address (R34). -/
  dAddr   : Half
  /-- The decoded register count (R35). -/
  dCount  : Half
  /-- The decoded register value (R36). -/
  dValue  : Half
  /-- The decoded byte_count (R37). -/
  dBc     : Byte
  /-- The remaining request length (R38). -/
  dLen    : Half
  /-- The host's program (R92): what it does to the block, in order. The host's, not the block's. -/
  program : List HostLine
  /-- The host's index into its program (R92). The host's, not the block's (R41). -/
  pc      : Nat
  /-- What the host's last read returned. The model's own field. -/
  reply   : List HostData
  /-- How many draws the host's reads have made (R54). The model's own field. -/
  draws   : Nat
deriving DecidableEq, Repr

/-! One function per update, with its lemmas in Sys2Proof/Laws/State.lean. -/

/-- The host's write of CMD (R20). -/
def State.setCmd (s : State) (w : Word) : State := { s with cmd := w }
/-- A command's write of STATUS (R21). -/
def State.setStatus (s : State) (st : Byte) : State := { s with status := st }
/-- A write of ACC (R22). -/
def State.setAcc (s : State) (v : Half) : State := { s with acc := v }
/-- A write of FB's elements (R25). -/
def State.setFb (s : State) (m : Memory Byte) : State := { s with fb := m }
/-- A write of FLEN (R26). -/
def State.setFlen (s : State) (n : Half) : State := { s with flen := n }
/-- A write of PB's elements (R27). -/
def State.setPb (s : State) (m : Memory Byte) : State := { s with pb := m }
/-- A write of PLEN (R28). -/
def State.setPlen (s : State) (n : Half) : State := { s with plen := n }
/-- A write of RG's elements (R29). -/
def State.setRg (s : State) (m : Memory Half) : State := { s with rg := m }
/-- A write of RCOUNT (R30). -/
def State.setRcount (s : State) (n : Byte) : State := { s with rcount := n }
/-- FRAME_PARSE's result registers (R31 to R33). -/
def State.setResponse (s : State) (kind : BitVec 1) (code fc : Byte) : State :=
  { s with rspKind := kind, excCode := code, dFc := fc }
/-- SLAVE_PARSE's result registers (R33 to R37). -/
def State.setRequest (s : State) (fc : Byte) (addr count value : Half) (bc : Byte) : State :=
  { s with dFc := fc, dAddr := addr, dCount := count, dValue := value, dBc := bc }
/-- REQ_REMLEN's result register (R38). -/
def State.setDLen (s : State) (n : Half) : State := { s with dLen := n }
/-- The host's program index (R92). -/
def State.setPc (s : State) (k : Nat) : State := { s with pc := k }
/-- What a host read returned, and the draws it made (R54). -/
def State.setReply (s : State) (r : List HostData) (draws : Nat) : State := { s with reply := r, draws := draws }

/-- The state after reset (R200): every register at the value the spec gives, every buffer element unwritten, and a host
that has done nothing (log entry 4). -/
def State.reset : State where
  cmd := 0
  status := 0
  acc := crcSeed
  fb := []
  flen := 0
  pb := []
  plen := 0
  rg := []
  rcount := 0
  rspKind := 0
  excCode := 0
  dFc := 0
  dAddr := 0
  dCount := 0
  dValue := 0
  dBc := 0
  dLen := 0
  program := []
  pc := 0
  reply := []
  draws := 0

/-- What a step answers. -/
abbrev Result := Host.Outcome State Fault Refusal

end Sys2Proof.Machine
end

