-- ==== Sys2Proof/Machine/Flags.lean ====
section
/-! DEFINITION. The block has no flags; what a command reports is STATUS and RSP_KIND. The status codes and the checks that
choose them (spec/60_exceptions.md), and the classification of results (R183, R184). -/

namespace Sys2Proof.Machine

/-- The number of a status (R180). -/
def Status.code : Status → Byte
  | .ok => 0
  | .invalidAddress => 1
  | .invalidParameter => 2
  | .invalidResponse => 3
  | .checksumError => 4
  | .invalidFunctionCode => 5
  | .illegalCommand => 6

/-- `fail S`: the status is written and nothing else (R11, R186). This is all the block has of taking an exception. -/
def fail (st : Status) (s : State) : Result := .next (s.setStatus st.code)

/-- `ok`: the status of a command that completed (R11). -/
def ok (s : State) : Result := .next (s.setStatus Status.ok.code)

/-- `valid_addr(a)`: 1 ≤ a ≤ 247 (R120). -/
def validAddr (a : Byte) : Bool := decide (1 ≤ a.toNat) && decide (a.toNat ≤ 247)

/-- The standard exception code of a byte, if it is one of the eight (R86). -/
def wireExceptionOf (code : Byte) : Option WireException :=
  match code.toNat with
  | 1 => some .IllegalFunction
  | 2 => some .IllegalDataAddress
  | 3 => some .IllegalDataValue
  | 4 => some .SlaveDeviceFailure
  | 5 => some .Acknowledge
  | 6 => some .SlaveDeviceBusy
  | 7 => some .NegativeAcknowledge
  | 8 => some .MemoryParityError
  | _ => none

/-- A status is retryable exactly when it is ChecksumError (R184). -/
def Status.retryable (st : Status) : Bool := decide (st = .checksumError)

/-- The source's four error classes, of which the block gives no TransportError, and the swallowed case of the slave's
address mismatch (R183). -/
inductive ErrorClass where
  | parameterError
  | transportError
  | protocolError
  | deviceException
  | addressMismatch
deriving DecidableEq, Repr

/-- The class of a command's result (R183): the command and the state it ran in, the status and RSP_KIND it left. A plain OK
has none, and R183 gives none to IllegalCommand. -/
def errorClass (i : Instr) (s : State) (st : Status) (kind : BitVec 1) : Option ErrorClass :=
  match st with
  | .ok =>
    match i with
    | .frameParse _ _ _ => if kind = 1 then some .deviceException else none
    | _ => none
  | .invalidAddress =>
    match i with
    | .slaveParse own => if validAddr own then some .addressMismatch else some .parameterError
    | _ => some .parameterError
  | .invalidParameter =>
    match i with
    | .slaveParse _ => if s.flen.toNat > 256 then some .parameterError else some .protocolError
    | .reqRemlen _ _ => some .protocolError
    | _ => some .parameterError
  | .invalidResponse => some .protocolError
  | .checksumError => some .protocolError
  | .invalidFunctionCode => some .protocolError
  | .illegalCommand => none

end Sys2Proof.Machine
end

