-- ==== Sys2Proof/Machine/Ops.lean ====
section
/-! DEFINITION. The operations over the buffers, each written once: reading and writing an element or a run of them, the
faults of unwritten elements (R39, R50 to R53 of spec/20_memory.md), and the wire byte order (R56, R57). -/

namespace Sys2Proof.Machine

/-- The value of element `i`, none where it was never written since reset (R39). -/
def Memory.read {α : Type} : Memory α → Nat → Option α
  | [], _ => none
  | (j, v) :: rest, i => if j = i then some v else Memory.read rest i

/-- Element `i` written, its mark set (R53); the other elements and the order of the indices are kept. -/
def Memory.write {α : Type} : Memory α → Nat → α → Memory α
  | [], i, v => [(i, v)]
  | (j, w) :: rest, i, v =>
    if i < j then (i, v) :: (j, w) :: rest
    else if i = j then (i, v) :: rest
    else (j, w) :: Memory.write rest i v

/-- `M[i..i+len(vs)) <- vs` (R10). -/
def Memory.writeRange {α : Type} (m : Memory α) (i : Nat) : List α → Memory α
  | [] => m
  | v :: vs => Memory.writeRange (m.write i v) (i + 1) vs

/-- `M[i..i+n)` (R10): its values, or the index of the first element that is unwritten. -/
def Memory.readRange {α : Type} (m : Memory α) (i : Nat) : Nat → Except Nat (List α)
  | 0 => .ok []
  | n + 1 =>
    match m.read i with
    | none => .error i
    | some v =>
      match Memory.readRange m (i + 1) n with
      | .error j => .error j
      | .ok vs => .ok (v :: vs)

/-- The indices listed rise strictly from `lo` and stay below `size`. -/
def Memory.rising {α : Type} (size : Nat) : Nat → Memory α → Bool
  | _, [] => true
  | lo, (j, _) :: rest => decide (lo ≤ j) && decide (j < size) && Memory.rising size (j + 1) rest

/-- The canonical form of a buffer of `size` elements: each index at most once, rising, inside the buffer (R50). -/
def Memory.wf {α : Type} (size : Nat) (m : Memory α) : Bool := Memory.rising size 0 m

/-- All three buffers are in their canonical form. -/
def State.memWf (s : State) : Bool := s.fb.wf 256 && s.pb.wf 256 && s.rg.wf 125

/-- Written-mark W_FB[i] (R39). -/
def State.wFb (s : State) (i : Nat) : Bool := (s.fb.read i).isSome
/-- Written-mark W_PB[i] (R39). -/
def State.wPb (s : State) (i : Nat) : Bool := (s.pb.read i).isSome
/-- Written-mark W_RG[i] (R39). -/
def State.wRg (s : State) (i : Nat) : Bool := (s.rg.read i).isSome

/-- A command reads FB[i], or faults (R52). -/
def withFb (s : State) (i : Nat) (k : Byte → Result) : Result :=
  match s.fb.read i with
  | none => .fault (.unwrittenFb i)
  | some b => k b

/-- A command reads PB[i], or faults (R52). -/
def withPb (s : State) (i : Nat) (k : Byte → Result) : Result :=
  match s.pb.read i with
  | none => .fault (.unwrittenPb i)
  | some b => k b

/-- A command reads FB[i..i+n) in rising order, or faults at the first unwritten byte (R52). -/
def withFbRange (s : State) (i n : Nat) (k : List Byte → Result) : Result :=
  match s.fb.readRange i n with
  | .error j => .fault (.unwrittenFb j)
  | .ok bs => k bs

/-- A command reads PB[i..i+n) in rising order, or faults at the first unwritten byte (R52). -/
def withPbRange (s : State) (i n : Nat) (k : List Byte → Result) : Result :=
  match s.pb.readRange i n with
  | .error j => .fault (.unwrittenPb j)
  | .ok bs => k bs

/-- A command reads RG[0..n), or faults at the first unwritten register (R52). -/
def withRg (s : State) (n : Nat) (k : List Half → Result) : Result :=
  match s.rg.readRange 0 n with
  | .error j => .fault (.unwrittenRg j)
  | .ok vs => k vs

/-- A command reads `be16(FB[i], FB[i+1])` (R56). -/
def withFbHalf (s : State) (i : Nat) (k : Half → Result) : Result :=
  withFb s i fun h => withFb s (i + 1) fun l => k (be16 h l)

/-- A frame left in FB: `FB[0..n) <- bytes`, `FLEN <- n` (R25, R26). -/
def State.putFrame (s : State) (bytes : List Byte) : State :=
  (s.setFb (s.fb.writeRange 0 bytes)).setFlen (BitVec.ofNat 16 bytes.length)

/-- A payload left in PB: `PB[0..m) <- bytes`, `PLEN <- m` (R27, R28). -/
def State.putPayload (s : State) (bytes : List Byte) : State :=
  (s.setPb (s.pb.writeRange 0 bytes)).setPlen (BitVec.ofNat 16 bytes.length)

/-- Registers left in RG: `RG[0..n) <- values`, `RCOUNT <- n` (R29, R30). -/
def State.putRegisters (s : State) (values : List Half) : State :=
  (s.setRg (s.rg.writeRange 0 values)).setRcount (BitVec.ofNat 8 values.length)

end Sys2Proof.Machine
end

