-- ==== Sys2Proof/Machine/Checksum.lean ====
section
/-! DEFINITION. The Checksum Engine (spec/40_checksum.md): the table ROM, the checksum function, and the commands
CRC_RESET, CRC_FEED and CRC_BUF. -/

namespace Sys2Proof.Machine

/-- One step of the reflected division by 0xA001 (R24, R102). -/
def crcStep (c : Half) : Half := if c.getLsbD 0 then (c >>> 1) ^^^ crcPoly else c >>> 1

/-- `n` of those steps. -/
def crcSteps : Nat → Half → Half
  | 0, c => c
  | n + 1, c => crcSteps n (crcStep c)

/-- `T[i]`, the table ROM of R23, by the loop of R24: eight steps from the zero-extended index. -/
def crcTable (i : Byte) : Half := crcSteps 8 (i.setWidth 16)

/-- `upd(acc, b) = (acc >> 8) ⊕ T[(acc ⊕ zext_16(b))[7:0]]` (R101). -/
def crcUpdate (acc : Half) (b : Byte) : Half := (acc >>> 8) ^^^ crcTable (lo (acc ^^^ b.setWidth 16))

/-- `crc16(s)`: the update folded over the bytes from the seed, with no final XOR (R103). -/
def crc16 (bytes : List Byte) : Half := bytes.foldl crcUpdate crcSeed

/-- A body with its checksum appended, low byte first (R58, R77). -/
def sealFrame (body : List Byte) : List Byte := body ++ [lo (crc16 body), hi (crc16 body)]

/-- `chk_ok`: the checksum of all bytes but the last two is the one those two carry, low byte first (R121, R58). -/
def chkOk (frame : List Byte) : Bool :=
  match frame.drop (frame.length - 2) with
  | [chkLo, chkHi] => decide (crc16 (frame.take (frame.length - 2)) = be16 chkHi chkLo)
  | _ => false

/-- CRC_RESET (R110). -/
def execCrcReset (s : State) : Result := ok (s.setAcc crcSeed)

/-- CRC_FEED (R111). -/
def execCrcFeed (byte : Byte) (s : State) : Result := ok (s.setAcc (crcUpdate s.acc byte))

/-- CRC_BUF (R112): from the seed, not from the old ACC; FLEN is not read. -/
def execCrcBuf (n : Half) (s : State) : Result :=
  if n.toNat > 256 then fail .invalidParameter s
  else withFbRange s 0 n.toNat fun bytes => ok (s.setAcc (crc16 bytes))

end Sys2Proof.Machine
end

