-- ==== Sys2Proof/Machine/Codec.lean ====
section
/-! DEFINITION. The Frame Codec (spec/41_frame_codec.md): ADDR_CHECK, FRAME_BUILD, FRAME_PARSE, SLAVE_PARSE, REQ_REMLEN.
The checks stand in the order of each rule's pseudocode; the first that fails decides the status (R11, R185). -/

namespace Sys2Proof.Machine

/-- ADDR_CHECK (R120). -/
def execAddrCheck (addr : Byte) (s : State) : Result :=
  if validAddr addr then ok s else fail .invalidAddress s

/-- FRAME_BUILD (R122): `[addr, fc] ++ PB[0..PLEN)` and its checksum into FB. -/
def execFrameBuild (addr fc : Byte) (s : State) : Result :=
  if validAddr addr = false then fail .invalidAddress s
  else if s.plen.toNat + 4 > 256 then fail .invalidParameter s
  else withPbRange s 0 s.plen.toNat fun payload => ok (s.putFrame (sealFrame (addr :: fc :: payload)))

/-- FRAME_PARSE on an exception response (R125, R126): the code is FB[2], whatever its value. -/
def parseException (r : Byte) (s : State) : Result :=
  if s.flen.toNat < 5 then fail .invalidResponse s
  else withFb s 2 fun code => ok (s.setResponse 1 code r)

/-- FRAME_PARSE on a normal response (R125): the payload `FB[2..n-2)` into PB. -/
def parseNormal (r : Byte) (cap : Half) (s : State) : Result :=
  if cap.toNat < s.flen.toNat - 4 then fail .invalidParameter s
  else withFbRange s 2 (s.flen.toNat - 4) fun payload => ok ((s.putPayload payload).setResponse 0 0 r)

/-- FRAME_PARSE (R125 to R127). -/
def execFrameParse (addr fc : Byte) (cap : Half) (s : State) : Result :=
  if s.flen.toNat > 256 then fail .invalidParameter s
  else if s.flen.toNat < 4 then fail .invalidResponse s
  else withFb s 0 fun b0 =>
    if b0 ≠ addr then fail .invalidResponse s
    else withFbRange s 0 s.flen.toNat fun frame =>
      if chkOk frame = false then fail .checksumError s
      else withFb s 1 fun r =>
        if r = fc ||| 0x80 then parseException r s
        else if r ≠ fc then fail .invalidFunctionCode s
        else parseNormal r cap s

/-- The function codes a slave recognises (R85). -/
def recognised (fc : Byte) : Bool := decide (fc = 0x03) || decide (fc = 0x06) || decide (fc = 0x10)

/-- SLAVE_PARSE's decode of an accepted frame, by its function code (R133). `cnt` is the count read for 0x10. -/
def slaveDecode (f : Byte) (cnt : Half) (s : State) : Result :=
  withFbHalf s 2 fun addr =>
    if f = 0x03 then withFbHalf s 4 fun count => ok (s.setRequest f addr count 0 0)
    else if f = 0x06 then withFbHalf s 4 fun value => ok (s.setRequest f addr 1 value 0)
    else withFb s 6 fun bc => withFbRange s 7 (2 * cnt.toNat) fun data =>
      ok ((s.setRequest f addr cnt 0 bc).putRegisters (be16List data))

/-- SLAVE_PARSE's checks of the whole frame: its length, then its checksum (R132). -/
def slaveVerify (f : Byte) (cnt : Half) (expect : Nat) (s : State) : Result :=
  if s.flen.toNat ≠ expect then fail .invalidResponse s
  else withFbRange s 0 s.flen.toNat fun frame =>
    if chkOk frame = false then fail .checksumError s else slaveDecode f cnt s

/-- SLAVE_PARSE's length of the whole request, by its function code (R132, R87). -/
def slaveLength (f : Byte) (s : State) : Result :=
  if f = 0x03 ∨ f = 0x06 then slaveVerify f 0 8 s
  else if s.flen.toNat < 6 then fail .invalidResponse s
  else withFbHalf s 4 fun cnt =>
    if cnt.toNat > 123 then fail .invalidParameter s else slaveVerify f cnt (9 + 2 * cnt.toNat) s

/-- SLAVE_PARSE (R132, R133): `own` is the slave's own address (R131). -/
def execSlaveParse (own : Byte) (s : State) : Result :=
  if s.flen.toNat > 256 then fail .invalidParameter s
  else if validAddr own = false then fail .invalidAddress s
  else if s.flen.toNat < 2 then fail .invalidResponse s
  else withFb s 0 fun b0 =>
    if b0 ≠ own then fail .invalidAddress s
    else withFb s 1 fun f =>
      if recognised f = false then fail .invalidFunctionCode s else slaveLength f s

/-- REQ_REMLEN (R140): the bytes that follow the 2-byte header, checksum included. -/
def execReqRemlen (fc : Byte) (count : Half) (s : State) : Result :=
  if fc = 0x03 ∨ fc = 0x06 then ok (s.setDLen 6)
  else if fc = 0x10 then
    if count.toNat > 123 then fail .invalidParameter s else ok (s.setDLen (BitVec.ofNat 16 (7 + 2 * count.toNat)))
  else fail .invalidFunctionCode s

end Sys2Proof.Machine
end

