-- ==== Sys2Proof/Machine/Marshal.lean ====
section
/-! DEFINITION. The payload marshaller (spec/42_marshaller.md): the MRS_* commands write PB and PLEN, UNM_RD_RSP writes RG
and RCOUNT, the CHK_* commands write STATUS only. -/

namespace Sys2Proof.Machine

/-- Two 16-bit values left as the payload (R150, R152, R158). -/
def marshalPair (x y : Half) (s : State) : Result := ok (s.putPayload (bytesBe16 x ++ bytesBe16 y))

/-- A count outside 1..max (R150, R154, R156, R165). -/
def countOutside (max : Nat) (count : Half) : Bool := decide (count.toNat < 1) || decide (count.toNat > max)

/-- A byte_count and that many bytes of registers after `head` left as the payload (R154, R156). -/
def marshalRegisters (head : List Byte) (count : Half) (s : State) : Result :=
  withRg s count.toNat fun values =>
    ok (s.putPayload (head ++ BitVec.ofNat 8 (2 * count.toNat) :: bytesBe16List values))

/-- MRS_RD_REQ (R150). -/
def execMrsRdReq (start count : Half) (s : State) : Result :=
  if countOutside 125 count then fail .invalidParameter s else marshalPair start count s

/-- MRS_WS (R152). -/
def execMrsWs (addr value : Half) (s : State) : Result := marshalPair addr value s

/-- MRS_WM_REQ (R154). -/
def execMrsWmReq (start count : Half) (s : State) : Result :=
  if countOutside 123 count then fail .invalidParameter s
  else marshalRegisters (bytesBe16 start ++ bytesBe16 count) count s

/-- MRS_RD_RSP (R156). -/
def execMrsRdRsp (count : Half) (s : State) : Result :=
  if countOutside 125 count then fail .invalidParameter s else marshalRegisters [] count s

/-- MRS_WM_RSP (R158). -/
def execMrsWmRsp (start count : Half) (s : State) : Result := marshalPair start count s

/-- MRS_EXC (R160): one of the eight standard codes. -/
def execMrsExc (code : Byte) (s : State) : Result :=
  if code.toNat < 1 ∨ code.toNat > 8 then fail .invalidParameter s else ok (s.putPayload [code])

/-- UNM_RD_RSP (R165). -/
def execUnmRdRsp (count : Half) (s : State) : Result :=
  if countOutside 125 count then fail .invalidParameter s
  else if s.plen.toNat > 256 then fail .invalidParameter s
  else if s.plen.toNat < 1 then fail .invalidResponse s
  else withPb s 0 fun byteCount =>
    if byteCount.toNat ≠ 2 * count.toNat then fail .invalidResponse s
    else if s.plen.toNat ≠ 1 + 2 * count.toNat then fail .invalidResponse s
    else withPbRange s 1 (2 * count.toNat) fun data => ok (s.putRegisters (be16List data))

/-- The payload is exactly the two 16-bit values of the request (R168, R171). -/
def checkEcho (x y : Half) (s : State) : Result :=
  if s.plen.toNat > 256 then fail .invalidParameter s
  else if s.plen.toNat ≠ 4 then fail .invalidResponse s
  else withPbRange s 0 4 fun payload =>
    if payload ≠ bytesBe16 x ++ bytesBe16 y then fail .invalidResponse s else ok s

/-- CHK_WS_RSP (R168). -/
def execChkWsRsp (addr value : Half) (s : State) : Result := checkEcho addr value s

/-- CHK_WM_RSP (R171). -/
def execChkWmRsp (start count : Half) (s : State) : Result := checkEcho start count s

end Sys2Proof.Machine
end

