-- ==== Sys2Proof/Machine/Wire.lean ====
section
/-! DEFINITION. The wire-frame forms (R78 to R84 of spec/30_encoding.md). They are data the block parses, not commands; what
the spec has happen to a frame on the wire is that the host loads it into FB and sets FLEN (R25, R26, R90 LOAD_FB, R175).
That is the effect of each form here (log entry 5). No command register changes, STATUS and CMD included (R62). -/

namespace Sys2Proof.Machine

/-- LOAD_FB: `FB[i] <- b_i`, then `FLEN <- n` (R90). More than 256 bytes reach past FB and are refused (R55). -/
def loadFrame (bytes : List Byte) (s : State) : Result :=
  if bytes.length > 256 then .refused (.pastBufferEnd 256) else .next (s.putFrame bytes)

/-- The 0x03 request frame arrives (R78). -/
def execWireReq03 (addr : Byte) (start count chk : Half) (s : State) : Result :=
  loadFrame (frameOf addr 0x03 (bytesBe16 start ++ bytesBe16 count) chk) s

/-- The 0x03 response frame arrives (R79). -/
def execWireRsp03 (addr : Byte) (regs : List Half) (chk : Half) (s : State) : Result :=
  loadFrame (frameOf addr 0x03 (readResponsePayload regs) chk) s

/-- The 0x06 request frame arrives (R80). -/
def execWireReq06 (addr : Byte) (reg value chk : Half) (s : State) : Result :=
  loadFrame (frameOf addr 0x06 (bytesBe16 reg ++ bytesBe16 value) chk) s

/-- The 0x06 response frame arrives, the same bytes as its request (R81). -/
def execWireRsp06 (addr : Byte) (reg value chk : Half) (s : State) : Result :=
  loadFrame (frameOf addr 0x06 (bytesBe16 reg ++ bytesBe16 value) chk) s

/-- The 0x10 request frame arrives (R82). -/
def execWireReq10 (addr : Byte) (start : Half) (regs : List Half) (chk : Half) (s : State) : Result :=
  loadFrame (frameOf addr 0x10 (writeRequestPayload start regs) chk) s

/-- The 0x10 response frame arrives (R83). -/
def execWireRsp10 (addr : Byte) (start count chk : Half) (s : State) : Result :=
  loadFrame (frameOf addr 0x10 (bytesBe16 start ++ bytesBe16 count) chk) s

/-- An exception response frame arrives (R84). -/
def execWireExc (addr fc code : Byte) (chk : Half) (s : State) : Result := loadFrame (frameOf addr fc [code] chk) s

end Sys2Proof.Machine
end

