-- ==== Sys2Proof/Machine/Dispatch.lean ====
section
/-! DEFINITION. One arm per constructor of Instr: the meaning of each row of spec/opcode_table.json. -/

namespace Sys2Proof.Machine

def exec (i : Instr) (s : State) : Host.Outcome State Fault Refusal :=
  match i with
  | .crcReset => Sys2Proof.Machine.execCrcReset s
  | .crcFeed byte => Sys2Proof.Machine.execCrcFeed byte s
  | .crcBuf n => Sys2Proof.Machine.execCrcBuf n s
  | .addrCheck addr => Sys2Proof.Machine.execAddrCheck addr s
  | .frameBuild addr fc => Sys2Proof.Machine.execFrameBuild addr fc s
  | .frameParse addr fc cap => Sys2Proof.Machine.execFrameParse addr fc cap s
  | .slaveParse own => Sys2Proof.Machine.execSlaveParse own s
  | .reqRemlen fc count => Sys2Proof.Machine.execReqRemlen fc count s
  | .mrsRdReq start count => Sys2Proof.Machine.execMrsRdReq start count s
  | .mrsWs addr value => Sys2Proof.Machine.execMrsWs addr value s
  | .mrsWmReq start count => Sys2Proof.Machine.execMrsWmReq start count s
  | .mrsRdRsp count => Sys2Proof.Machine.execMrsRdRsp count s
  | .mrsWmRsp start count => Sys2Proof.Machine.execMrsWmRsp start count s
  | .mrsExc code => Sys2Proof.Machine.execMrsExc code s
  | .unmRdRsp count => Sys2Proof.Machine.execUnmRdRsp count s
  | .chkWsRsp addr value => Sys2Proof.Machine.execChkWsRsp addr value s
  | .chkWmRsp start count => Sys2Proof.Machine.execChkWmRsp start count s
  | .wireReq03 addr start count chk => Sys2Proof.Machine.execWireReq03 addr start count chk s
  | .wireRsp03 addr regs chk => Sys2Proof.Machine.execWireRsp03 addr regs chk s
  | .wireReq06 addr reg value chk => Sys2Proof.Machine.execWireReq06 addr reg value chk s
  | .wireRsp06 addr reg value chk => Sys2Proof.Machine.execWireRsp06 addr reg value chk s
  | .wireReq10 addr start regs chk => Sys2Proof.Machine.execWireReq10 addr start regs chk s
  | .wireRsp10 addr start count chk => Sys2Proof.Machine.execWireRsp10 addr start count chk s
  | .wireExc addr fc code chk => Sys2Proof.Machine.execWireExc addr fc code chk s

end Sys2Proof.Machine
end

