-- ==== Sys2Proof/Machine/Bus.lean ====
section
/-! DEFINITION. The host's side of the block: the register map and its accesses (R54, R55 of spec/20_memory.md), the write of
CMD that executes a command (R20, R70), and the lines of a host program (R89 to R92 of spec/30_encoding.md). -/

namespace Sys2Proof.Machine

/-- The registers of the map, by offset (R54). -/
def registerMap : List (Nat × Loc) :=
  [(0x300, .cmd), (0x308, .status), (0x30A, .acc), (0x30C, .flen), (0x30E, .plen), (0x310, .rcount), (0x311, .rspKind),
   (0x312, .excCode), (0x313, .dFc), (0x314, .dAddr), (0x316, .dCount), (0x318, .dValue), (0x31A, .dBc), (0x31C, .dLen)]

/-- Entry `k` of RG, if there is one (R54). -/
def rgLoc (k : Nat) : Option Loc := if h : k < 125 then some (.rg ⟨k, h⟩) else none

/-- Entry `k` of T, if there is one (R54). -/
def tableLoc (k : Nat) : Option Loc := if h : k < 256 then some (.t ⟨k, h⟩) else none

/-- The location that starts at a byte offset of the map (R54). -/
def locAt (offset : Nat) : Option Loc :=
  if h : offset < 0x100 then some (.fb ⟨offset, h⟩)
  else if h : offset - 0x100 < 0x100 then some (.pb ⟨offset - 0x100, h⟩)
  else if offset < 0x300 then if offset % 2 = 0 then rgLoc ((offset - 0x200) / 2) else none
  else if offset < 0x400 then (registerMap.find? fun p => decide (p.1 = offset)).map Prod.snd
  else if offset % 2 = 0 then tableLoc ((offset - 0x400) / 2) else none

/-- A location's offset (R54). -/
def Loc.offset : Loc → Nat
  | .fb i => i.val
  | .pb i => 0x100 + i.val
  | .rg i => 0x200 + 2 * i.val
  | .cmd => 0x300
  | .status => 0x308
  | .acc => 0x30A
  | .flen => 0x30C
  | .plen => 0x30E
  | .rcount => 0x310
  | .rspKind => 0x311
  | .excCode => 0x312
  | .dFc => 0x313
  | .dAddr => 0x314
  | .dCount => 0x316
  | .dValue => 0x318
  | .dBc => 0x31A
  | .dLen => 0x31C
  | .t i => 0x400 + 2 * i.val

/-- A location's one access width (R54). -/
def Loc.width : Loc → AccessWidth
  | .fb _ => .w8
  | .pb _ => .w8
  | .rg _ => .w16
  | .cmd => .w64
  | .status => .w8
  | .acc => .w16
  | .flen => .w16
  | .plen => .w16
  | .rcount => .w8
  | .rspKind => .w8
  | .excCode => .w8
  | .dFc => .w8
  | .dAddr => .w16
  | .dCount => .w16
  | .dValue => .w16
  | .dBc => .w8
  | .dLen => .w16
  | .t _ => .w16

/-- A location the host may write (R54). -/
def Loc.writable : Loc → Bool
  | .fb _ => true
  | .pb _ => true
  | .rg _ => true
  | .cmd => true
  | .flen => true
  | .plen => true
  | .rcount => true
  | .status => false
  | .acc => false
  | .rspKind => false
  | .excCode => false
  | .dFc => false
  | .dAddr => false
  | .dCount => false
  | .dValue => false
  | .dBc => false
  | .dLen => false
  | .t _ => false

/-- The width of a value on the bus. -/
def HostData.width : HostData → AccessWidth
  | .b8 _ => .w8
  | .b16 _ => .w16
  | .b32 _ => .w32
  | .b64 _ => .w64

/-- The number a value on the bus is. -/
def HostData.toNat : HostData → Nat
  | .b8 v => BitVec.toNat v
  | .b16 v => BitVec.toNat v
  | .b32 v => BitVec.toNat v
  | .b64 v => BitVec.toNat v

/-- A buffer byte as the host reads it: its value, or a draw where it is unwritten (R54). -/
def readByteOrDraw (m : Memory Byte) (i draws : Nat) : Byte := (m.read i).getD (Config.drawByte draws)

/-- A register of RG as the host reads it: its value, or a draw where it is unwritten (R54). -/
def readHalfOrDraw (m : Memory Half) (i draws : Nat) : Half := (m.read i).getD (Config.drawHalf draws)

/-- The draws a host read makes: one where the element is unwritten, else none (R54). -/
def drawsOf {α : Type} (m : Memory α) (i : Nat) : Nat := if (m.read i).isSome then 0 else 1

/-- What a host read of a location returns, after `draws` draws, and the draws made then (R54). -/
def readLoc (l : Loc) (draws : Nat) (s : State) : HostData × Nat :=
  match l with
  | .fb i => (.b8 (readByteOrDraw s.fb i.val draws), draws + drawsOf s.fb i.val)
  | .pb i => (.b8 (readByteOrDraw s.pb i.val draws), draws + drawsOf s.pb i.val)
  | .rg i => (.b16 (readHalfOrDraw s.rg i.val draws), draws + drawsOf s.rg i.val)
  | .cmd => (.b64 s.cmd, draws)
  | .status => (.b8 s.status, draws)
  | .acc => (.b16 s.acc, draws)
  | .flen => (.b16 s.flen, draws)
  | .plen => (.b16 s.plen, draws)
  | .rcount => (.b8 s.rcount, draws)
  | .rspKind => (.b8 (s.rspKind.setWidth 8), draws)
  | .excCode => (.b8 s.excCode, draws)
  | .dFc => (.b8 s.dFc, draws)
  | .dAddr => (.b16 s.dAddr, draws)
  | .dCount => (.b16 s.dCount, draws)
  | .dValue => (.b16 s.dValue, draws)
  | .dBc => (.b8 s.dBc, draws)
  | .dLen => (.b16 s.dLen, draws)
  | .t i => (.b16 (crcTable (BitVec.ofNat 8 i.val)), draws)

/-- The host reads one location: only the host's side of the state changes (R62). -/
def hostRead (l : Loc) (s : State) : State := s.setReply [(readLoc l s.draws s).1] (readLoc l s.draws s).2

/-- What a host read of FB[i..i+n) returns, byte by byte, and the draws made then (R54). -/
def readFbRun (s : State) : Nat → Nat → Nat → List HostData × Nat
  | _, 0, draws => ([], draws)
  | i, n + 1, draws =>
    let rest := readFbRun s (i + 1) n (draws + drawsOf s.fb i)
    (.b8 (readByteOrDraw s.fb i draws) :: rest.1, rest.2)

/-- READ FB[0..FLEN) (R90); past the end of FB there is no location (R55). -/
def hostReadFrame (s : State) : Result :=
  if s.flen.toNat > 256 then .refused (.pastBufferEnd 256)
  else .next (s.setReply (readFbRun s 0 s.flen.toNat s.draws).1 (readFbRun s 0 s.flen.toNat s.draws).2)

/-- A command word is decoded and executed; one that is no command fails IllegalCommand (R70, R74, R75). -/
def runCommand (w : Word) (s : State) : Result :=
  match decodeCommand w with
  | .error _ => fail .illegalCommand s
  | .ok i => exec i s

/-- The host writes CMD, which executes the command (R20). -/
def hostCommand (w : Word) (s : State) : Result := runCommand w (s.setCmd w)

/-- The host writes one location with a value of its width (R54, R62, R53). -/
def writeLoc (l : Loc) (d : HostData) (s : State) : Result :=
  match d with
  | .b8 v =>
    match l with
    | .fb i => .next (s.setFb (s.fb.write i.val v))
    | .pb i => .next (s.setPb (s.pb.write i.val v))
    | .rcount => .next (s.setRcount v)
    | l => .refused (.readOnly l)
  | .b16 v =>
    match l with
    | .rg i => .next (s.setRg (s.rg.write i.val v))
    | .flen => .next (s.setFlen v)
    | .plen => .next (s.setPlen v)
    | l => .refused (.readOnly l)
  | .b32 _ => .refused (.wrongWidth l)
  | .b64 w =>
    match l with
    | .cmd => hostCommand w s
    | l => .refused (.readOnly l)

/-- One access of the bus: refused where no location starts, at another width than the location's, or on a write to a
read-only location (R55). -/
def hostAccess (a : HostAccess) (s : State) : Result :=
  match a with
  | .read offset width =>
    match locAt offset with
    | none => .refused (.noLocation offset)
    | some l => if l.width ≠ width then .refused (.wrongWidth l) else .next (hostRead l s)
  | .write offset data =>
    match locAt offset with
    | none => .refused (.noLocation offset)
    | some l =>
      if l.width ≠ data.width then .refused (.wrongWidth l)
      else if l.writable = false then .refused (.readOnly l)
      else writeLoc l data s

/-- LOAD_PB: `PB[i] <- b_i`, then `PLEN <- n` (R90). -/
def loadPayload (bytes : List Byte) (s : State) : Result :=
  if bytes.length > 256 then .refused (.pastBufferEnd 256) else .next (s.putPayload bytes)

/-- LOAD_RG: `RG[i] <- v_i`, then `RCOUNT <- n` (R90). -/
def loadRegisters (values : List Half) (s : State) : Result :=
  if values.length > 125 then .refused (.pastBufferEnd 125) else .next (s.putRegisters values)

/-- A frame arrives: one of the wire forms has that form's meaning, and any other bytes are loaded as they are (R25). -/
def hostReceive (d : Direction) (bytes : List Byte) (s : State) : Result :=
  match decodeWire d bytes with
  | .ok i => exec i s
  | .error _ => loadFrame bytes s

/-- BR_EQ: the location is read, and the index goes to `k` where it equals `v`, else one on (R91). -/
def branchEq (l : Loc) (v k : Nat) (s : State) : State :=
  (hostRead l s).setPc (if (readLoc l s.draws s).1.toNat = v then k else s.pc + 1)

/-- A platform reset: the block as R200 says, the host and its program as they were (R201). -/
def resetBlock (s : State) : State :=
  { State.reset with program := s.program, pc := s.pc, reply := s.reply, draws := s.draws }

/-- What one line does, the index going one on but for BR_EQ, BR_STATUS and STOP (R89 to R92). -/
def runLine (l : HostLine) (s : State) : Result :=
  match l with
  | .command w => hostCommand w (s.setPc (s.pc + 1))
  | .loadFb bytes => loadFrame bytes (s.setPc (s.pc + 1))
  | .loadPb bytes => loadPayload bytes (s.setPc (s.pc + 1))
  | .loadRg values => loadRegisters values (s.setPc (s.pc + 1))
  | .setFlen n => .next ((s.setPc (s.pc + 1)).setFlen n)
  | .setPlen n => .next ((s.setPc (s.pc + 1)).setPlen n)
  | .pokeFb i b => .next ((s.setPc (s.pc + 1)).setFb (s.fb.write i.val b))
  | .read l => .next (hostRead l (s.setPc (s.pc + 1)))
  | .readFrame => hostReadFrame (s.setPc (s.pc + 1))
  | .brEq l v k => .next (branchEq l v k s)
  | .brStatus st k => .next (branchEq .status st.code.toNat k s)
  | .stop => .next s
  | .access a => hostAccess a (s.setPc (s.pc + 1))
  | .receive d bytes => hostReceive d bytes (s.setPc (s.pc + 1))
  | .platformReset => .next (resetBlock (s.setPc (s.pc + 1)))

/-- The host's next line: none past the end of its program, where the block waits (R92, R201). -/
def nextLine (s : State) : Option HostLine := s.program[s.pc]?

/-- One step of the machine: the host's next line, or waiting. -/
def stepHost (s : State) : Result :=
  match nextLine s with
  | none => .next s
  | some l => runLine l s

/-- The line by which the host gives the block a word of spec/opcode_table.json: a command word, or the frame with that
function-code byte. -/
def tableLine (nbits w : Nat) : HostLine :=
  if nbits ≤ 8 then .receive (tableDirection (BitVec.ofNat 8 w)) (tableFrame (BitVec.ofNat 8 w))
  else .command (BitVec.ofNat 64 w)

/-- The program with its line `k` replaced; a program that ends before `k` is filled with STOP lines. -/
def placeLine (l : HostLine) : List HostLine → Nat → List HostLine
  | [], 0 => [l]
  | [], k + 1 => .stop :: placeLine l [] k
  | _ :: rest, 0 => l :: rest
  | x :: rest, k + 1 => x :: placeLine l rest k

end Sys2Proof.Machine
end

