-- ==== Sys2Proof/Machine/Step.lean ====
section
/-! DEFINITION. One step of the machine: the host's next line (R63: one total order of the host's accesses, one step each). -/

namespace Sys2Proof.Machine

/-- One step: the host's next line, run to its end; where the program has ended, the block waits (R92, R201). -/
def step (s : State) : Host.Outcome State Fault Refusal := stepHost s

/-- The state with the word of a row of spec/opcode_table.json as the host's next line (log entry 4). -/
def State.withFetchWord (s : State) (nbits w : Nat) : State :=
  { s with program := placeLine (tableLine nbits w) s.program s.pc }

end Sys2Proof.Machine
end

