-- ==== Sys2Proof/Safety.lean ====
section
/-! DEFINITION. The terms claims are made in: what a buffer holds, what a store changes, the invariant of every step, a run
with no fault and no refusal (R189), and a sequence of instructions that all succeed (R175). -/

namespace Sys2Proof.Machine

/-- The elements from index `i` on are written and hold `vs`. -/
abbrev Memory.holds {α : Type} (m : Memory α) (i : Nat) (vs : List α) : Prop :=
  ∀ k, k < vs.length → m.read (i + k) = vs[k]?

/-- The elements from index 0 to `n - 1` are all written. -/
abbrev Memory.written {α : Type} (m : Memory α) (n : Nat) : Prop := ∀ k, k < n → (m.read k).isSome = true

/-- Element `j` is the first unwritten one from index `i` on. -/
abbrev Memory.firstUnwritten {α : Type} (m : Memory α) (i j : Nat) : Prop :=
  i ≤ j ∧ m.read j = none ∧ ∀ k, k < j → i ≤ k → (m.read k).isSome = true

/-- `after` is `before` with `vs` stored from index 0 on and every other element as it was. -/
def Stored {α : Type} (before : Memory α) (vs : List α) (after : Memory α) : Prop :=
  (∀ k, k < vs.length → after.read k = vs[k]?) ∧ ∀ k, vs.length ≤ k → after.read k = before.read k

/-- Every element of the three buffers is written (R202). -/
def State.allWritten (s : State) : Prop := s.fb.written 256 ∧ s.pb.written 256 ∧ s.rg.written 125

/-- What every step keeps: the buffers in canonical form inside their sizes (R50), STATUS one of the codes of R180, no
exception code beside a normal response (R31, R32), and no remaining length beyond the longest request's (R140). -/
structure State.Inv (s : State) : Prop where
  memory     : s.memWf = true
  status     : s.status.toNat ≤ 6
  normalCode : s.rspKind = 0 → s.excCode = 0
  remaining  : s.dLen.toNat ≤ 253

/-- The run of `k` steps has no fault and no refusal (R189). -/
def SafeRun (k : Nat) (s : State) : Prop := ∃ t, Host.Core.run core k s = .next t

/-- The instructions run in order from `s` to `t`, every command of them leaving STATUS = OK. -/
def RunsOk : List Instr → State → State → Prop
  | [], s, t => t = s
  | i :: rest, s, t => ∃ u, exec i s = .next u ∧ (i.isCommand = true → u.status = 0) ∧ RunsOk rest u t

end Sys2Proof.Machine
end

