-- ==== Sys2Proof/Certificates/Slice0/Obligations.lean ====
section
/-! DEFINITION. The statements about the model, each from a rule of spec/ named in its docstring. Values a register takes are
written as the rule writes them; the contents of a buffer are said through the read of one element. -/

open Sys2Proof Sys2Proof.Machine

/-! Reset and the invariant. -/

/-- R200 of spec/70_reset_and_hazards.md: every register, buffer and written-mark after reset, and the table ROM as the host
reads it. -/
def Obligations.ResetLeavesTheTabledValues : Prop :=
  State.reset.cmd = 0 ∧ State.reset.status = 0 ∧ State.reset.acc = 0xFFFF ∧
  State.reset.flen = 0 ∧ State.reset.plen = 0 ∧ State.reset.rcount = 0 ∧ State.reset.rspKind = 0 ∧
  State.reset.excCode = 0 ∧ State.reset.dFc = 0 ∧ State.reset.dAddr = 0 ∧ State.reset.dCount = 0 ∧
  State.reset.dValue = 0 ∧ State.reset.dBc = 0 ∧ State.reset.dLen = 0 ∧
  (∀ i, State.reset.fb.read i = none ∧ State.reset.pb.read i = none ∧ State.reset.rg.read i = none) ∧
  (∀ i, State.reset.wFb i = false ∧ State.reset.wPb i = false ∧ State.reset.wRg i = false) ∧
  ∀ i : Fin 256, (readLoc (.t i) 0 State.reset).1 =
    .b16 ((fun c : Half => if c.getLsbD 0 then (c >>> 1) ^^^ 0xA001 else c >>> 1)^[8] (BitVec.ofNat 16 i.val))

/-- R201: a reset of the platform has the effect of R200 on the block; that the host's program, index and last answer stay is
the model's choice (log entry 4). -/
def Obligations.PlatformResetResetsTheBlock : Prop :=
  ∀ s : State, s.program[s.pc]? = some .platformReset →
    step s = .next { State.reset with program := s.program, pc := s.pc + 1, reply := s.reply, draws := s.draws }

/-- The invariant holds after reset (R200, R180). -/
def Obligations.ResetMeetsTheInvariant : Prop := State.reset.Inv

/-- Every step keeps the invariant: the buffers stay in canonical form inside their sizes (R50), STATUS stays a code of R180,
a normal response has no exception code (R31, R32), and D_LEN stays within the longest request (R140). -/
def Obligations.EveryStepKeepsTheInvariant : Prop := ∀ s t : State, s.Inv → step s = .next t → t.Inv

/-! The checksum (spec/40_checksum.md). -/

/-- R24 of spec/10_state.md: the table ROM is the loop's, and it is the listing's. -/
def Obligations.TableIsTheListing : Prop :=
  (∀ i : Byte, crcTable i =
    (fun c : Half => if c.getLsbD 0 then (c >>> 1) ^^^ 0xA001 else c >>> 1)^[8] (i.setWidth 16)) ∧
  (List.range 256).map (fun i => (crcTable (BitVec.ofNat 8 i)).toNat) =
    [0x0000, 0xC0C1, 0xC181, 0x0140, 0xC301, 0x03C0, 0x0280, 0xC241,
      0xC601, 0x06C0, 0x0780, 0xC741, 0x0500, 0xC5C1, 0xC481, 0x0440,
      0xCC01, 0x0CC0, 0x0D80, 0xCD41, 0x0F00, 0xCFC1, 0xCE81, 0x0E40,
      0x0A00, 0xCAC1, 0xCB81, 0x0B40, 0xC901, 0x09C0, 0x0880, 0xC841] ++
    [0xD801, 0x18C0, 0x1980, 0xD941, 0x1B00, 0xDBC1, 0xDA81, 0x1A40,
      0x1E00, 0xDEC1, 0xDF81, 0x1F40, 0xDD01, 0x1DC0, 0x1C80, 0xDC41,
      0x1400, 0xD4C1, 0xD581, 0x1540, 0xD701, 0x17C0, 0x1680, 0xD641,
      0xD201, 0x12C0, 0x1380, 0xD341, 0x1100, 0xD1C1, 0xD081, 0x1040] ++
    [0xF001, 0x30C0, 0x3180, 0xF141, 0x3300, 0xF3C1, 0xF281, 0x3240,
      0x3600, 0xF6C1, 0xF781, 0x3740, 0xF501, 0x35C0, 0x3480, 0xF441,
      0x3C00, 0xFCC1, 0xFD81, 0x3D40, 0xFF01, 0x3FC0, 0x3E80, 0xFE41,
      0xFA01, 0x3AC0, 0x3B80, 0xFB41, 0x3900, 0xF9C1, 0xF881, 0x3840] ++
    [0x2800, 0xE8C1, 0xE981, 0x2940, 0xEB01, 0x2BC0, 0x2A80, 0xEA41,
      0xEE01, 0x2EC0, 0x2F80, 0xEF41, 0x2D00, 0xEDC1, 0xEC81, 0x2C40,
      0xE401, 0x24C0, 0x2580, 0xE541, 0x2700, 0xE7C1, 0xE681, 0x2640,
      0x2200, 0xE2C1, 0xE381, 0x2340, 0xE101, 0x21C0, 0x2080, 0xE041] ++
    [0xA001, 0x60C0, 0x6180, 0xA141, 0x6300, 0xA3C1, 0xA281, 0x6240,
      0x6600, 0xA6C1, 0xA781, 0x6740, 0xA501, 0x65C0, 0x6480, 0xA441,
      0x6C00, 0xACC1, 0xAD81, 0x6D40, 0xAF01, 0x6FC0, 0x6E80, 0xAE41,
      0xAA01, 0x6AC0, 0x6B80, 0xAB41, 0x6900, 0xA9C1, 0xA881, 0x6840] ++
    [0x7800, 0xB8C1, 0xB981, 0x7940, 0xBB01, 0x7BC0, 0x7A80, 0xBA41,
      0xBE01, 0x7EC0, 0x7F80, 0xBF41, 0x7D00, 0xBDC1, 0xBC81, 0x7C40,
      0xB401, 0x74C0, 0x7580, 0xB541, 0x7700, 0xB7C1, 0xB681, 0x7640,
      0x7200, 0xB2C1, 0xB381, 0x7340, 0xB101, 0x71C0, 0x7080, 0xB041] ++
    [0x5000, 0x90C1, 0x9181, 0x5140, 0x9301, 0x53C0, 0x5280, 0x9241,
      0x9601, 0x56C0, 0x5780, 0x9741, 0x5500, 0x95C1, 0x9481, 0x5440,
      0x9C01, 0x5CC0, 0x5D80, 0x9D41, 0x5F00, 0x9FC1, 0x9E81, 0x5E40,
      0x5A00, 0x9AC1, 0x9B81, 0x5B40, 0x9901, 0x59C0, 0x5880, 0x9841] ++
    [0x8801, 0x48C0, 0x4980, 0x8941, 0x4B00, 0x8BC1, 0x8A81, 0x4A40,
      0x4E00, 0x8EC1, 0x8F81, 0x4F40, 0x8D01, 0x4DC0, 0x4C80, 0x8C41,
      0x4400, 0x84C1, 0x8581, 0x4540, 0x8701, 0x47C0, 0x4680, 0x8641,
      0x8201, 0x42C0, 0x4380, 0x8341, 0x4100, 0x81C1, 0x8081, 0x4040]

/-- R102: one table-driven update is eight steps of the bitwise reflected division. -/
def Obligations.UpdateIsEightDivisionSteps : Prop :=
  ∀ (acc : Half) (b : Byte), crcUpdate acc b =
    (fun c : Half => if c.getLsbD 0 then (c >>> 1) ^^^ 0xA001 else c >>> 1)^[8] (acc ^^^ b.setWidth 16)

/-- R104: the checksum of nothing is the seed, a longer sequence goes on from a shorter one's checksum, a frame with its
checksum appended low byte first has checksum 0, and changing one byte of a frame makes its checksum test fail. -/
def Obligations.ChecksumDetectsEverySingleByteChange : Prop :=
  crc16 [] = 0xFFFF ∧
  (∀ a b : List Byte, crc16 (a ++ b) = b.foldl crcUpdate (crc16 a)) ∧
  (∀ a : List Byte, crc16 (a ++ [lo (crc16 a), hi (crc16 a)]) = 0) ∧
  ∀ (frame : List Byte) (i : Nat) (b : Byte), chkOk frame = true → i < frame.length → frame[i]? ≠ some b →
    chkOk (frame.set i b) = false

/-- R105: the published check value and the published frame, whose checksum bytes are C5 CD. -/
def Obligations.PublishedVectorsMatch : Prop :=
  crc16 [0x31, 0x32, 0x33, 0x34, 0x35, 0x36, 0x37, 0x38, 0x39] = 0x4B37 ∧
  crc16 [0x01, 0x03, 0x00, 0x00, 0x00, 0x0A] = 0xCDC5 ∧
  sealFrame [0x01, 0x03, 0x00, 0x00, 0x00, 0x0A] = [0x01, 0x03, 0x00, 0x00, 0x00, 0x0A, 0xC5, 0xCD]

/-- R110: CRC_RESET's encoding, and that it sets ACC to the seed. -/
def Obligations.CrcResetSetsTheSeed : Prop :=
  encode .crcReset = .command 0x01 ∧ ∀ s : State, exec .crcReset s = .next { s with acc := 0xFFFF, status := 0 }

/-- R111: CRC_FEED's encoding, that it advances ACC by one table-driven update (R101), and that CRC_RESET and one CRC_FEED per
byte leave the checksum of the bytes in ACC and change nothing else. -/
def Obligations.CrcFeedAdvancesTheAccumulator : Prop :=
  ∀ s : State,
    (∀ b : Byte, encode (.crcFeed b) = .command (0x02 ||| (b.setWidth 64 <<< 8)) ∧ exec (.crcFeed b) s =
      .next { s with acc := (s.acc >>> 8) ^^^ crcTable ((s.acc ^^^ b.setWidth 16).setWidth 8), status := 0 }) ∧
    ∀ bytes : List Byte, RunsOk (.crcReset :: bytes.map .crcFeed) s { s with acc := crc16 bytes, status := 0 }

/-- R112: CRC_BUF's encoding; it leaves the checksum of FB[0..n) in ACC, from the seed; n > 256 is InvalidParameter; an unwritten byte
among them faults. -/
def Obligations.CrcBufChecksumsThePrefix : Prop :=
  ∀ (s : State) (n : Half), encode (.crcBuf n) = .command (0x03 ||| (n.setWidth 64 <<< 32)) ∧
    (256 < n.toNat → exec (.crcBuf n) s = .next { s with status := 2 }) ∧
    (∀ bytes : List Byte, bytes.length = n.toNat → n.toNat ≤ 256 → s.fb.holds 0 bytes →
      exec (.crcBuf n) s = .next { s with acc := crc16 bytes, status := 0 }) ∧
    (∀ j, n.toNat ≤ 256 → j < n.toNat → s.fb.firstUnwritten 0 j → exec (.crcBuf n) s = .fault (.unwrittenFb j))

/-! The frame codec (spec/41_frame_codec.md). -/

/-- R120: ADDR_CHECK's encoding; it answers OK exactly for 1 ≤ addr ≤ 247, else InvalidAddress, and writes STATUS only. -/
def Obligations.AddrCheckAdmits1To247 : Prop :=
  ∀ (s : State) (a : Byte), encode (.addrCheck a) = .command (0x10 ||| (a.setWidth 64 <<< 8)) ∧
    (1 ≤ a.toNat ∧ a.toNat ≤ 247 → exec (.addrCheck a) s = .next { s with status := 0 }) ∧
    (a.toNat = 0 ∨ 248 ≤ a.toNat → exec (.addrCheck a) s = .next { s with status := 1 })

/-- R122: FRAME_BUILD's encoding; it leaves [addr, fc] ++ PB[0..PLEN) and its checksum, low byte first, in FB and the length in FLEN, for
every fc; it fails InvalidAddress first, then InvalidParameter where the frame would exceed 256 bytes; an unwritten payload
byte faults. The frame built passes the checksum test and has residue 0. -/
def Obligations.FrameBuildFramesThePayload : Prop :=
  ∀ (s : State) (a f : Byte),
    encode (.frameBuild a f) = .command (0x11 ||| (a.setWidth 64 <<< 8) ||| (f.setWidth 64 <<< 16)) ∧
    (a.toNat = 0 ∨ 248 ≤ a.toNat → exec (.frameBuild a f) s = .next { s with status := 1 }) ∧
    (1 ≤ a.toNat → a.toNat ≤ 247 → 256 < s.plen.toNat + 4 →
      exec (.frameBuild a f) s = .next { s with status := 2 }) ∧
    (∀ payload : List Byte, 1 ≤ a.toNat → a.toNat ≤ 247 → payload.length = s.plen.toNat → s.plen.toNat + 4 ≤ 256 →
      s.pb.holds 0 payload →
      ∃ t : State, exec (.frameBuild a f) s = .next t ∧
        Stored s.fb (a :: f :: payload ++ [lo (crc16 (a :: f :: payload)), hi (crc16 (a :: f :: payload))]) t.fb ∧
        t = { s with fb := t.fb, flen := s.plen + 4, status := 0 } ∧
        chkOk (a :: f :: payload ++ [lo (crc16 (a :: f :: payload)), hi (crc16 (a :: f :: payload))]) = true ∧
        crc16 (a :: f :: payload ++ [lo (crc16 (a :: f :: payload)), hi (crc16 (a :: f :: payload))]) = 0) ∧
    (∀ j, 1 ≤ a.toNat → a.toNat ≤ 247 → s.plen.toNat + 4 ≤ 256 → j < s.plen.toNat → s.pb.firstUnwritten 0 j →
      exec (.frameBuild a f) s = .fault (.unwrittenPb j))

/-- R125, a normal response: a frame from `addr` with function code `fc` and a right checksum, whose payload fits `cap`, has
its payload copied to PB, and the result registers say normal. -/
def Obligations.FrameParseCopiesANormalPayload : Prop :=
  ∀ (s : State) (a f : Byte) (cap : Half) (payload : List Byte) (chkLo chkHi : Byte),
    s.flen.toNat = payload.length + 4 → s.flen.toNat ≤ 256 → s.fb.holds 0 (a :: f :: payload ++ [chkLo, chkHi]) →
    crc16 (a :: f :: payload) = be16 chkHi chkLo → f ≠ f ||| 0x80 → payload.length ≤ cap.toNat →
    ∃ t : State, exec (.frameParse a f cap) s = .next t ∧ Stored s.pb payload t.pb ∧
      t = { s with pb := t.pb, plen := s.flen - 4, rspKind := 0, excCode := 0, dFc := f, status := 0 }

/-- R126: a response with function code `fc | 0x80` and a right checksum is an exception whatever its code and whatever
follows the code, and PB and PLEN are kept; a request code with bit 7 set makes an echo an exception; with a wrong checksum it
is ChecksumError. -/
def Obligations.ExceptionResponsesAreClassified : Prop :=
  ∀ (s : State) (a f : Byte) (cap : Half) (code : Byte) (rest : List Byte) (chkLo chkHi : Byte),
    s.flen.toNat = rest.length + 5 → s.flen.toNat ≤ 256 →
    s.fb.holds 0 (a :: (f ||| 0x80) :: code :: rest ++ [chkLo, chkHi]) →
    (crc16 (a :: (f ||| 0x80) :: code :: rest) = be16 chkHi chkLo →
      exec (.frameParse a f cap) s =
        .next { s with rspKind := 1, excCode := code, dFc := f ||| 0x80, status := 0 } ∧
      exec (.frameParse a (f ||| 0x80) cap) s =
        .next { s with rspKind := 1, excCode := code, dFc := f ||| 0x80, status := 0 }) ∧
    (crc16 (a :: (f ||| 0x80) :: code :: rest) ≠ be16 chkHi chkLo →
      exec (.frameParse a f cap) s = .next { s with status := 4 })

/-- R127: the priority of FRAME_PARSE's failures: FLEN > 256, a short frame, the address, the checksum, an exception frame
without a code byte, the function code, the capacity. Each failure is stated for every frame that passes the checks before
it. -/
def Obligations.FrameParseFailurePriority : Prop :=
  ∀ (s : State) (a f : Byte) (cap : Half),
    (256 < s.flen.toNat → exec (.frameParse a f cap) s = .next { s with status := 2 }) ∧
    (s.flen.toNat < 4 → exec (.frameParse a f cap) s = .next { s with status := 3 }) ∧
    (4 ≤ s.flen.toNat → s.flen.toNat ≤ 256 →
      (∀ b, s.fb.read 0 = some b → b ≠ a → exec (.frameParse a f cap) s = .next { s with status := 3 }) ∧
      ∀ (r : Byte) (payload : List Byte) (chkLo chkHi : Byte), s.flen.toNat = payload.length + 4 →
        s.fb.holds 0 (a :: r :: payload ++ [chkLo, chkHi]) →
        (crc16 (a :: r :: payload) ≠ be16 chkHi chkLo → exec (.frameParse a f cap) s = .next { s with status := 4 }) ∧
        (crc16 (a :: r :: payload) = be16 chkHi chkLo →
          (r = f ||| 0x80 → payload = [] → exec (.frameParse a f cap) s = .next { s with status := 3 }) ∧
          (r ≠ f ||| 0x80 → r ≠ f → exec (.frameParse a f cap) s = .next { s with status := 5 }) ∧
          (r ≠ f ||| 0x80 → r = f → cap.toNat < payload.length →
            exec (.frameParse a f cap) s = .next { s with status := 2 })))

/-- R52 for FRAME_PARSE and SLAVE_PARSE, in the order R125 and R132 read: FB[0], for SLAVE_PARSE FB[1] and for 0x10 FB[4] and
FB[5], then the first unwritten byte of the frame, which the model reads in rising order (log entry 7). -/
def Obligations.ParsersFaultOnUnwrittenBytes : Prop :=
  ∀ (s : State) (a f : Byte) (cap : Half),
    (4 ≤ s.flen.toNat → s.flen.toNat ≤ 256 → s.fb.read 0 = none →
      exec (.frameParse a f cap) s = .fault (.unwrittenFb 0)) ∧
    (∀ j, 4 ≤ s.flen.toNat → s.flen.toNat ≤ 256 → s.fb.read 0 = some a → j < s.flen.toNat → s.fb.firstUnwritten 0 j →
      exec (.frameParse a f cap) s = .fault (.unwrittenFb j)) ∧
    (2 ≤ s.flen.toNat → s.flen.toNat ≤ 256 → 1 ≤ a.toNat → a.toNat ≤ 247 → s.fb.read 0 = none →
      exec (.slaveParse a) s = .fault (.unwrittenFb 0)) ∧
    (2 ≤ s.flen.toNat → s.flen.toNat ≤ 256 → 1 ≤ a.toNat → a.toNat ≤ 247 → s.fb.read 0 = some a → s.fb.read 1 = none →
      exec (.slaveParse a) s = .fault (.unwrittenFb 1)) ∧
    (∀ j, s.flen.toNat = 8 → 1 ≤ a.toNat → a.toNat ≤ 247 → s.fb.read 0 = some a →
      (s.fb.read 1 = some 0x03 ∨ s.fb.read 1 = some 0x06) → j < 8 → s.fb.firstUnwritten 0 j →
      exec (.slaveParse a) s = .fault (.unwrittenFb j)) ∧
    (6 ≤ s.flen.toNat → s.flen.toNat ≤ 256 → 1 ≤ a.toNat → a.toNat ≤ 247 → s.fb.read 0 = some a →
      s.fb.read 1 = some 0x10 →
      (s.fb.read 4 = none → exec (.slaveParse a) s = .fault (.unwrittenFb 4)) ∧
      (∀ h, s.fb.read 4 = some h → s.fb.read 5 = none → exec (.slaveParse a) s = .fault (.unwrittenFb 5)) ∧
      ∀ h l j, s.fb.read 4 = some h → s.fb.read 5 = some l → (be16 h l).toNat ≤ 123 →
        s.flen.toNat = 9 + 2 * (be16 h l).toNat → j < s.flen.toNat → s.fb.firstUnwritten 0 j →
        exec (.slaveParse a) s = .fault (.unwrittenFb j))

/-- R133: SLAVE_PARSE's decode of an accepted request of each function code: the result registers, and for 0x10 the
registers, RG[k] for k ≥ count kept. The frame is addressed to `own` (1 to 247), of its layout's length, with a right
checksum; byte_count and a 0x03 count are not checked (R132). -/
def Obligations.SlaveParseDecodesRequests : Prop :=
  ∀ (s : State) (own ah al vh vl chkLo chkHi : Byte), 1 ≤ own.toNat → own.toNat ≤ 247 →
    (s.flen = 8 → s.fb.holds 0 [own, 0x03, ah, al, vh, vl, chkLo, chkHi] →
      crc16 [own, 0x03, ah, al, vh, vl] = be16 chkHi chkLo →
      exec (.slaveParse own) s = .next { s with
        dFc := 0x03, dAddr := be16 ah al, dCount := be16 vh vl, dValue := 0, dBc := 0, status := 0 }) ∧
    (s.flen = 8 → s.fb.holds 0 [own, 0x06, ah, al, vh, vl, chkLo, chkHi] →
      crc16 [own, 0x06, ah, al, vh, vl] = be16 chkHi chkLo →
      exec (.slaveParse own) s = .next { s with
        dFc := 0x06, dAddr := be16 ah al, dCount := 1, dValue := be16 vh vl, dBc := 0, status := 0 }) ∧
    (∀ (bc : Byte) (data : List Byte), (be16 vh vl).toNat ≤ 123 → data.length = 2 * (be16 vh vl).toNat →
      s.flen.toNat = 9 + 2 * (be16 vh vl).toNat →
      s.fb.holds 0 (own :: 0x10 :: ah :: al :: vh :: vl :: bc :: data ++ [chkLo, chkHi]) →
      crc16 (own :: 0x10 :: ah :: al :: vh :: vl :: bc :: data) = be16 chkHi chkLo →
      ∃ t : State, exec (.slaveParse own) s = .next t ∧
        (∀ k, k < (be16 vh vl).toNat →
          t.rg.read k = some (be16 (data.getD (2 * k) 0) (data.getD (2 * k + 1) 0))) ∧
        (∀ k, (be16 vh vl).toNat ≤ k → t.rg.read k = s.rg.read k) ∧
        t = { s with
          dFc := 0x10, dAddr := be16 ah al, dCount := be16 vh vl, dValue := 0, dBc := bc, rg := t.rg,
          rcount := BitVec.ofNat 8 (be16 vh vl).toNat, status := 0 })

/-- R132: the priority of SLAVE_PARSE's failures: FLEN > 256, an invalid own, a frame without a header, another address, an
unrecognised function code, then per function code the header's length, the count, the frame's length, the checksum. -/
def Obligations.SlaveParseFailurePriority : Prop :=
  ∀ (s : State) (own : Byte),
    (256 < s.flen.toNat → exec (.slaveParse own) s = .next { s with status := 2 }) ∧
    (s.flen.toNat ≤ 256 → own.toNat = 0 ∨ 248 ≤ own.toNat → exec (.slaveParse own) s = .next { s with status := 1 }) ∧
    (1 ≤ own.toNat → own.toNat ≤ 247 →
      (s.flen.toNat < 2 → exec (.slaveParse own) s = .next { s with status := 3 }) ∧
      (2 ≤ s.flen.toNat → s.flen.toNat ≤ 256 →
        (∀ b, s.fb.read 0 = some b → b ≠ own → exec (.slaveParse own) s = .next { s with status := 1 }) ∧
        (s.fb.read 0 = some own → ∀ f, s.fb.read 1 = some f →
          (f ≠ 0x03 → f ≠ 0x06 → f ≠ 0x10 → exec (.slaveParse own) s = .next { s with status := 5 }) ∧
          (f = 0x03 ∨ f = 0x06 → s.flen.toNat ≠ 8 → exec (.slaveParse own) s = .next { s with status := 3 }) ∧
          (f = 0x10 → s.flen.toNat < 6 → exec (.slaveParse own) s = .next { s with status := 3 }) ∧
          (f = 0x10 → 6 ≤ s.flen.toNat → ∀ h l, s.fb.read 4 = some h → s.fb.read 5 = some l →
            (123 < (be16 h l).toNat → exec (.slaveParse own) s = .next { s with status := 2 }) ∧
            ((be16 h l).toNat ≤ 123 → s.flen.toNat ≠ 9 + 2 * (be16 h l).toNat →
              exec (.slaveParse own) s = .next { s with status := 3 })) ∧
          ∀ (body : List Byte) (chkLo chkHi : Byte), s.flen.toNat = body.length + 2 →
            s.fb.holds 0 (body ++ [chkLo, chkHi]) → crc16 body ≠ be16 chkHi chkLo →
            ((f = 0x03 ∨ f = 0x06) ∧ s.flen.toNat = 8 ∨
              f = 0x10 ∧ ∃ h l, s.fb.read 4 = some h ∧ s.fb.read 5 = some l ∧ (be16 h l).toNat ≤ 123 ∧
                s.flen.toNat = 9 + 2 * (be16 h l).toNat) →
            exec (.slaveParse own) s = .next { s with status := 4 })))

/-- R140: REQ_REMLEN's encoding, its remaining length, two less than the whole request's, and its failures. -/
def Obligations.ReqRemlenComputesTheRemainder : Prop :=
  ∀ (s : State) (f : Byte) (count : Half),
    encode (.reqRemlen f count) = .command (0x14 ||| (f.setWidth 64 <<< 16) ||| (count.setWidth 64 <<< 48)) ∧
    (f = 0x03 ∨ f = 0x06 → exec (.reqRemlen f count) s = .next { s with dLen := 6, status := 0 }) ∧
    (f = 0x10 → count.toNat ≤ 123 →
      exec (.reqRemlen f count) s = .next { s with dLen := BitVec.ofNat 16 (7 + 2 * count.toNat), status := 0 }) ∧
    (f = 0x10 → 123 < count.toNat → exec (.reqRemlen f count) s = .next { s with status := 2 }) ∧
    (f ≠ 0x03 → f ≠ 0x06 → f ≠ 0x10 → exec (.reqRemlen f count) s = .next { s with status := 5 })

/-! The payload marshaller (spec/42_marshaller.md). -/

/-- R150: MRS_RD_REQ's encoding; it leaves start and count, high bytes first, for 1 ≤ count ≤ 125; else InvalidParameter. -/
def Obligations.MrsRdReqLeavesStartAndCount : Prop :=
  ∀ (s : State) (start count : Half),
    encode (.mrsRdReq start count) = .command (0x20 ||| (start.setWidth 64 <<< 32) ||| (count.setWidth 64 <<< 48)) ∧
    (1 ≤ count.toNat → count.toNat ≤ 125 → ∃ t : State, exec (.mrsRdReq start count) s = .next t ∧
      Stored s.pb [hi start, lo start, hi count, lo count] t.pb ∧ t = { s with pb := t.pb, plen := 4, status := 0 }) ∧
    (count.toNat = 0 ∨ 126 ≤ count.toNat → exec (.mrsRdReq start count) s = .next { s with status := 2 })

/-- R152: MRS_WS's encoding; it leaves address and value, high bytes first, for every address and value. -/
def Obligations.MrsWsLeavesAddressAndValue : Prop :=
  ∀ (s : State) (addr value : Half),
    encode (.mrsWs addr value) = .command (0x21 ||| (addr.setWidth 64 <<< 32) ||| (value.setWidth 64 <<< 48)) ∧
    ∃ t : State, exec (.mrsWs addr value) s = .next t ∧
    Stored s.pb [hi addr, lo addr, hi value, lo value] t.pb ∧ t = { s with pb := t.pb, plen := 4, status := 0 }

/-- R154: MRS_WM_REQ's encoding; it leaves start, count, byte_count and the registers RG[0..count), high bytes first, for
1 ≤ count ≤ 123; else InvalidParameter; an unwritten register faults. -/
def Obligations.MrsWmReqLeavesTheRegisters : Prop :=
  ∀ (s : State) (start count : Half),
    encode (.mrsWmReq start count) = .command (0x22 ||| (start.setWidth 64 <<< 32) ||| (count.setWidth 64 <<< 48)) ∧
    (∀ regs : List Half, 1 ≤ count.toNat → count.toNat ≤ 123 → regs.length = count.toNat → s.rg.holds 0 regs →
      ∃ t : State, exec (.mrsWmReq start count) s = .next t ∧
        Stored s.pb ([hi start, lo start, hi count, lo count, BitVec.ofNat 8 (2 * count.toNat)] ++
          regs.flatMap fun v => [hi v, lo v]) t.pb ∧
        t = { s with pb := t.pb, plen := 5 + 2 * count, status := 0 }) ∧
    (count.toNat = 0 ∨ 124 ≤ count.toNat → exec (.mrsWmReq start count) s = .next { s with status := 2 }) ∧
    (∀ j, 1 ≤ count.toNat → count.toNat ≤ 123 → j < count.toNat → s.rg.firstUnwritten 0 j →
      exec (.mrsWmReq start count) s = .fault (.unwrittenRg j))

/-- R156: MRS_RD_RSP's encoding; it leaves byte_count and the registers RG[0..count), high bytes first, for 1 ≤ count ≤ 125; else
InvalidParameter; an unwritten register faults. -/
def Obligations.MrsRdRspLeavesTheRegisters : Prop :=
  ∀ (s : State) (count : Half), encode (.mrsRdRsp count) = .command (0x23 ||| (count.setWidth 64 <<< 48)) ∧
    (∀ regs : List Half, 1 ≤ count.toNat → count.toNat ≤ 125 → regs.length = count.toNat → s.rg.holds 0 regs →
      ∃ t : State, exec (.mrsRdRsp count) s = .next t ∧
        Stored s.pb (BitVec.ofNat 8 (2 * count.toNat) :: regs.flatMap fun v => [hi v, lo v]) t.pb ∧
        t = { s with pb := t.pb, plen := 1 + 2 * count, status := 0 }) ∧
    (count.toNat = 0 ∨ 126 ≤ count.toNat → exec (.mrsRdRsp count) s = .next { s with status := 2 }) ∧
    (∀ j, 1 ≤ count.toNat → count.toNat ≤ 125 → j < count.toNat → s.rg.firstUnwritten 0 j →
      exec (.mrsRdRsp count) s = .fault (.unwrittenRg j))

/-- R158: MRS_WM_RSP's encoding; it leaves start and count as given, unchecked. -/
def Obligations.MrsWmRspLeavesStartAndCount : Prop :=
  ∀ (s : State) (start count : Half),
    encode (.mrsWmRsp start count) = .command (0x24 ||| (start.setWidth 64 <<< 32) ||| (count.setWidth 64 <<< 48)) ∧
    ∃ t : State, exec (.mrsWmRsp start count) s = .next t ∧
    Stored s.pb [hi start, lo start, hi count, lo count] t.pb ∧ t = { s with pb := t.pb, plen := 4, status := 0 }

/-- R160: MRS_EXC's encoding; it leaves an exception code of 1 to 8; else InvalidParameter. -/
def Obligations.MrsExcLeavesAStandardCode : Prop :=
  ∀ (s : State) (code : Byte), encode (.mrsExc code) = .command (0x25 ||| (code.setWidth 64 <<< 8)) ∧
    (1 ≤ code.toNat → code.toNat ≤ 8 → ∃ t : State, exec (.mrsExc code) s = .next t ∧
      Stored s.pb [code] t.pb ∧ t = { s with pb := t.pb, plen := 1, status := 0 }) ∧
    (code.toNat = 0 ∨ 9 ≤ code.toNat → exec (.mrsExc code) s = .next { s with status := 2 })

/-- R165: UNM_RD_RSP's encoding; it unpacks the registers of a payload whose byte_count and length are the count's; its failures in their
order; an unwritten byte faults. -/
def Obligations.UnmRdRspUnpacksTheRegisters : Prop :=
  ∀ (s : State) (count : Half), encode (.unmRdRsp count) = .command (0x30 ||| (count.setWidth 64 <<< 48)) ∧
    (count.toNat = 0 ∨ 126 ≤ count.toNat → exec (.unmRdRsp count) s = .next { s with status := 2 }) ∧
    (1 ≤ count.toNat → count.toNat ≤ 125 →
      (256 < s.plen.toNat → exec (.unmRdRsp count) s = .next { s with status := 2 }) ∧
      (s.plen.toNat = 0 → exec (.unmRdRsp count) s = .next { s with status := 3 }) ∧
      (1 ≤ s.plen.toNat → s.plen.toNat ≤ 256 →
        (s.pb.read 0 = none → exec (.unmRdRsp count) s = .fault (.unwrittenPb 0)) ∧
        (∀ b, s.pb.read 0 = some b → b.toNat ≠ 2 * count.toNat →
          exec (.unmRdRsp count) s = .next { s with status := 3 }) ∧
        (∀ b, s.pb.read 0 = some b → b.toNat = 2 * count.toNat → s.plen.toNat ≠ 1 + 2 * count.toNat →
          exec (.unmRdRsp count) s = .next { s with status := 3 }) ∧
        (∀ b, s.pb.read 0 = some b → b.toNat = 2 * count.toNat → s.plen.toNat = 1 + 2 * count.toNat →
          (∀ j, j < 1 + 2 * count.toNat → s.pb.firstUnwritten 1 j →
            exec (.unmRdRsp count) s = .fault (.unwrittenPb j)) ∧
          ∀ data : List Byte, data.length = 2 * count.toNat → s.pb.holds 1 data →
            ∃ t : State, exec (.unmRdRsp count) s = .next t ∧
              (∀ k, k < count.toNat →
                t.rg.read k = some (be16 (data.getD (2 * k) 0) (data.getD (2 * k + 1) 0))) ∧
              (∀ k, count.toNat ≤ k → t.rg.read k = s.rg.read k) ∧
              t = { s with rg := t.rg, rcount := BitVec.ofNat 8 count.toNat, status := 0 })))

/-- R168: CHK_WS_RSP's encoding; it answers OK exactly for the 4-byte echo of address and value, and writes STATUS only. -/
def Obligations.ChkWsRspAcceptsTheEcho : Prop :=
  ∀ (s : State) (addr value : Half),
    encode (.chkWsRsp addr value) = .command (0x31 ||| (addr.setWidth 64 <<< 32) ||| (value.setWidth 64 <<< 48)) ∧
    (256 < s.plen.toNat → exec (.chkWsRsp addr value) s = .next { s with status := 2 }) ∧
    (s.plen.toNat ≤ 256 → s.plen ≠ 4 → exec (.chkWsRsp addr value) s = .next { s with status := 3 }) ∧
    (s.plen = 4 →
      (s.pb.holds 0 [hi addr, lo addr, hi value, lo value] →
        exec (.chkWsRsp addr value) s = .next { s with status := 0 }) ∧
      (∀ b0 b1 b2 b3, s.pb.holds 0 [b0, b1, b2, b3] → [b0, b1, b2, b3] ≠ [hi addr, lo addr, hi value, lo value] →
        exec (.chkWsRsp addr value) s = .next { s with status := 3 }) ∧
      (∀ j, j < 4 → s.pb.firstUnwritten 0 j → exec (.chkWsRsp addr value) s = .fault (.unwrittenPb j)))

/-- R171: CHK_WM_RSP's encoding; it answers OK exactly for the 4-byte echo of start and count, and writes STATUS only. -/
def Obligations.ChkWmRspAcceptsTheEcho : Prop :=
  ∀ (s : State) (start count : Half),
    encode (.chkWmRsp start count) = .command (0x32 ||| (start.setWidth 64 <<< 32) ||| (count.setWidth 64 <<< 48)) ∧
    (256 < s.plen.toNat → exec (.chkWmRsp start count) s = .next { s with status := 2 }) ∧
    (s.plen.toNat ≤ 256 → s.plen ≠ 4 → exec (.chkWmRsp start count) s = .next { s with status := 3 }) ∧
    (s.plen = 4 →
      (s.pb.holds 0 [hi start, lo start, hi count, lo count] →
        exec (.chkWmRsp start count) s = .next { s with status := 0 }) ∧
      (∀ b0 b1 b2 b3, s.pb.holds 0 [b0, b1, b2, b3] → [b0, b1, b2, b3] ≠ [hi start, lo start, hi count, lo count] →
        exec (.chkWmRsp start count) s = .next { s with status := 3 }) ∧
      (∀ j, j < 4 → s.pb.firstUnwritten 0 j → exec (.chkWmRsp start count) s = .fault (.unwrittenPb j)))

/-! The wire frames (spec/30_encoding.md). -/

/-- R78 to R84: the bytes of each wire form, index by index, the checksum low byte first (R58). -/
def Obligations.WireFramesFollowTheirLayouts : Prop :=
  ∀ (a : Byte) (x y chk : Half),
    encode (.wireReq03 a x y chk) = .frame .request [a, 0x03, hi x, lo x, hi y, lo y, lo chk, hi chk] ∧
    encode (.wireReq06 a x y chk) = .frame .request [a, 0x06, hi x, lo x, hi y, lo y, lo chk, hi chk] ∧
    encode (.wireRsp06 a x y chk) = .frame .response [a, 0x06, hi x, lo x, hi y, lo y, lo chk, hi chk] ∧
    encode (.wireRsp10 a x y chk) = .frame .response [a, 0x10, hi x, lo x, hi y, lo y, lo chk, hi chk] ∧
    (∀ fc code : Byte, encode (.wireExc a fc code chk) = .frame .response [a, fc, code, lo chk, hi chk]) ∧
    (∀ regs : List Half, regs.length ≤ 125 → ∃ bs : List Byte, encode (.wireRsp03 a regs chk) = .frame .response bs ∧
      bs.length = 5 + 2 * regs.length ∧ bs[0]? = some a ∧ bs[1]? = some 0x03 ∧
      bs[2]? = some (BitVec.ofNat 8 (2 * regs.length)) ∧
      (∀ k v, regs[k]? = some v → bs[3 + 2 * k]? = some (hi v) ∧ bs[4 + 2 * k]? = some (lo v)) ∧
      bs[3 + 2 * regs.length]? = some (lo chk) ∧ bs[4 + 2 * regs.length]? = some (hi chk)) ∧
    (∀ regs : List Half, regs.length ≤ 123 → ∃ bs : List Byte, encode (.wireReq10 a x regs chk) = .frame .request bs ∧
      bs.length = 9 + 2 * regs.length ∧ bs[0]? = some a ∧ bs[1]? = some 0x10 ∧ bs[2]? = some (hi x) ∧
      bs[3]? = some (lo x) ∧ bs[4]? = some (hi (BitVec.ofNat 16 regs.length)) ∧
      bs[5]? = some (lo (BitVec.ofNat 16 regs.length)) ∧ bs[6]? = some (BitVec.ofNat 8 (2 * regs.length)) ∧
      (∀ k v, regs[k]? = some v → bs[7 + 2 * k]? = some (hi v) ∧ bs[8 + 2 * k]? = some (lo v)) ∧
      bs[7 + 2 * regs.length]? = some (lo chk) ∧ bs[8 + 2 * regs.length]? = some (hi chk))

/-- The model's choice (log entry 5, from R25, R90 and R175): a well-formed wire frame that arrives is loaded into FB byte by
byte as the host's LOAD_FB loads it, FLEN becomes its length, and nothing else changes. -/
def Obligations.WireFramesArriveInTheFrameBuffer : Prop :=
  ∀ (s : State) (i : Instr) (d : Direction) (bytes : List Byte), i.wf = true → encode i = .frame d bytes →
    ∃ t : State, exec i s = .next t ∧ Stored s.fb bytes t.fb ∧
      t = { s with fb := t.fb, flen := BitVec.ofNat 16 bytes.length }

/-! The encodings. -/

/-- R73, R78 to R84: words and frames written out from the spec's tables and vectors decode to their instructions. -/
def Obligations.SpecWordsDecode : Prop :=
  decodeCommand 0x0000000000000302 = .ok (.crcFeed 0x03) ∧
  decodeCommand 0x0000000900000003 = .ok (.crcBuf 9) ∧
  decodeCommand 0x0000000000830111 = .ok (.frameBuild 0x01 0x83) ∧
  decodeCommand 0x000000FC00030112 = .ok (.frameParse 0x01 0x03 252) ∧
  decodeCommand 0x007B000000100014 = .ok (.reqRemlen 0x10 123) ∧
  decodeCommand 0x007D123400000020 = .ok (.mrsRdReq 0x1234 125) ∧
  decodeCommand 0x0002000000000030 = .ok (.unmRdRsp 2) ∧
  decodeCommand 0x0003000100000032 = .ok (.chkWmRsp 1 3) ∧
  decodeCommand 0x0000000000000101 = .error .unusedField ∧
  decodeCommand 0x0000000001000302 = .error .reservedField ∧
  decodeCommand 0x0000000000000033 = .error (.reservedOpcode 0x33) ∧
  decodeWire .response [0x01, 0x03, 0x04, 0x00, 0x14, 0x00, 0x50, 0xBA, 0x0B] =
    .ok (.wireRsp03 0x01 [20, 80] 0x0BBA) ∧
  decodeWire .request [0x01, 0x10, 0x00, 0x01, 0x00, 0x02, 0x04, 0x00, 0x0A, 0x01, 0x02, 0x92, 0x30] =
    .ok (.wireReq10 0x01 1 [0x000A, 0x0102] 0x3092)

/-- Decoding the encoding of a well-formed instruction, command or wire frame, gives it back. -/
def Obligations.DecodeUndoesEncode : Prop := ∀ i : Instr, i.wf = true → decode (encode i) = .ok i

/-- What decodes is well-formed and is encoded by the word or the bytes it was decoded from: no two instructions share one. -/
def Obligations.EncodeUndoesDecode : Prop :=
  ∀ (e : Encoding) (i : Instr), decode e = .ok i → i.wf = true ∧ encode i = e

/-- R70: a command word is legal exactly when it meets the match and mask of a row of R73's table; a legal one executes its
rule, any other fails IllegalCommand. -/
def Obligations.LegalWordsMeetMatchAndMask : Prop :=
  ∀ (w : Word) (s : State),
    ((∃ r ∈ commandTable, w &&& r.maskBits = r.matchBits) →
      ∃ i : Instr, i.isCommand = true ∧ decodeCommand w = .ok i ∧ runCommand w s = exec i s) ∧
    ((∀ r ∈ commandTable, w &&& r.maskBits ≠ r.matchBits) → runCommand w s = .next { s with status := 6 })

/-- R75: a word with a reserved opcode fails IllegalCommand and has no other effect. That CMD holds the word all the same is
R20's read-back, by the model's inference (log entry 13). -/
def Obligations.ReservedOpcodesFailIllegalCommand : Prop :=
  ∀ (w : Word) (s : State),
    (opcField w).toNat = 0x00 ∨ (0x04 ≤ (opcField w).toNat ∧ (opcField w).toNat ≤ 0x0F) ∨
      (0x15 ≤ (opcField w).toNat ∧ (opcField w).toNat ≤ 0x1F) ∨
      (0x26 ≤ (opcField w).toNat ∧ (opcField w).toNat ≤ 0x2F) ∨ 0x33 ≤ (opcField w).toNat →
    hostCommand w s = .next { s with cmd := w, status := 6 }

/-- R74: a word with an opcode of R73 and a non-zero RES or a non-zero field its row does not use fails IllegalCommand and
has no other effect. That CMD holds the word all the same is R20's read-back, by the model's inference (log entry 13). -/
def Obligations.NonzeroUnusedFieldsFailIllegalCommand : Prop :=
  ∀ (w : Word) (s : State) (r : CommandRow), r ∈ commandTable → opcField w = r.opc →
    resField w ≠ 0 ∨ (r.a = none ∧ aField w ≠ 0) ∨ (r.b = none ∧ bField w ≠ 0) ∨ (r.c = none ∧ cField w ≠ 0) ∨
      (r.d = none ∧ dField w ≠ 0) →
    hostCommand w s = .next { s with cmd := w, status := 6 }

/-- R89: the assembler notation gives `OPC | A << 8 | B << 16 | C << 32 | D << 48`, each field its named operand's value and
0 where the operand is left out, and the word it gives is a legal command; it gives a word exactly where every operand named
is the row's and fits its field; R89's example is the last clause. The model's choices (log entry 19): of two values named for
one operand the first counts, and an operand that is not the row's or does not fit gives no word. -/
def Obligations.AssemblyPlacesNamedOperands : Prop :=
  (∀ (m : Mnemonic) (args : List (OperandName × Nat)) (w : Word), assemble m args = some w →
    ∃ r ∈ commandTable, r.mnemonic = m ∧ opcField w = r.opc ∧ resField w = 0 ∧
      (aField w).toNat = operandValue r.a args ∧ (bField w).toNat = operandValue r.b args ∧
      (cField w).toNat = operandValue r.c args ∧ (dField w).toNat = operandValue r.d args ∧
      ∃ i : Instr, decodeCommand w = .ok i) ∧
  (∀ m : Mnemonic, ∃ r ∈ commandTable, r.mnemonic = m ∧ ∀ args : List (OperandName × Nat),
    (∃ w : Word, assemble m args = some w) ↔
      ∀ x v, (x, v) ∈ args →
        (v < 256 ∧ (r.a = some x ∨ r.b = some x)) ∨ (v < 65536 ∧ (r.c = some x ∨ r.d = some x))) ∧
  assemble .FRAME_PARSE [(.addr, 0x01), (.fc, 0x03), (.cap, 252)] = some 0x000000FC00030112

/-! Whole-machine rules. -/

/-- R186, R11: a command that fails, IllegalCommand among the failures, leaves the state as it was but for STATUS. That CMD
holds the word all the same is R20's read-back, by the model's inference (log entry 13). -/
def Obligations.FailureChangesOnlyStatus : Prop :=
  ∀ (w : Word) (s t : State), hostCommand w s = .next t → t.status ≠ 0 → t = { s with cmd := w, status := t.status }

/-- R181: no command leaves a status outside its row. -/
def Obligations.CommandsLeaveOnlyTheirStatuses : Prop :=
  ∀ (s t : State) (i : Instr), i.isCommand = true → exec i s = .next t →
    match i with
    | .crcReset | .crcFeed _ | .mrsWs _ _ | .mrsWmRsp _ _ => t.status = 0
    | .crcBuf _ | .mrsRdReq _ _ | .mrsWmReq _ _ | .mrsRdRsp _ | .mrsExc _ => t.status = 0 ∨ t.status = 2
    | .addrCheck _ => t.status = 0 ∨ t.status = 1
    | .frameBuild _ _ => t.status = 0 ∨ t.status = 1 ∨ t.status = 2
    | .frameParse _ _ _ => t.status = 0 ∨ t.status = 2 ∨ t.status = 3 ∨ t.status = 4 ∨ t.status = 5
    | .reqRemlen _ _ => t.status = 0 ∨ t.status = 2 ∨ t.status = 5
    | .unmRdRsp _ | .chkWsRsp _ _ | .chkWmRsp _ _ => t.status = 0 ∨ t.status = 2 ∨ t.status = 3
    | .slaveParse _ => t.status.toNat ≤ 5
    | _ => True

/-- R20 to R38, the frame of every command: a register or buffer that changed was changed by a command whose rule writes
it; CMD, the host's program, its index and its last answer are changed by none. -/
def Obligations.CommandsWriteOnlyTheirRegisters : Prop :=
  ∀ (s t : State) (i : Instr), i.isCommand = true → exec i s = .next t →
    t.cmd = s.cmd ∧ t.program = s.program ∧ t.pc = s.pc ∧ t.reply = s.reply ∧ t.draws = s.draws ∧
    (t.acc ≠ s.acc → i = .crcReset ∨ (∃ b, i = .crcFeed b) ∨ ∃ n, i = .crcBuf n) ∧
    (t.fb ≠ s.fb ∨ t.flen ≠ s.flen → ∃ a f, i = .frameBuild a f) ∧
    (t.pb ≠ s.pb ∨ t.plen ≠ s.plen →
      (∃ a f c, i = .frameParse a f c) ∨ (∃ a c, i = .mrsRdReq a c) ∨ (∃ a v, i = .mrsWs a v) ∨
      (∃ a c, i = .mrsWmReq a c) ∨ (∃ c, i = .mrsRdRsp c) ∨ (∃ a c, i = .mrsWmRsp a c) ∨ ∃ c, i = .mrsExc c) ∧
    (t.rg ≠ s.rg ∨ t.rcount ≠ s.rcount → (∃ c, i = .unmRdRsp c) ∨ ∃ o, i = .slaveParse o) ∧
    (t.rspKind ≠ s.rspKind ∨ t.excCode ≠ s.excCode → ∃ a f c, i = .frameParse a f c) ∧
    (t.dFc ≠ s.dFc → (∃ a f c, i = .frameParse a f c) ∨ ∃ o, i = .slaveParse o) ∧
    (t.dAddr ≠ s.dAddr ∨ t.dCount ≠ s.dCount ∨ t.dValue ≠ s.dValue ∨ t.dBc ≠ s.dBc → ∃ o, i = .slaveParse o) ∧
    (t.dLen ≠ s.dLen → ∃ f c, i = .reqRemlen f c)

/-- The frame of the storing commands over the buffers (R122, R125, R133, R150 to R165): the elements each stores are the
leading ones its rule counts, computed from the state before; every other element of every buffer reads as before. -/
def Obligations.StoringCommandsKeepOtherElements : Prop :=
  ∀ (s t : State) (i : Instr) (k : Nat), i.isCommand = true → exec i s = .next t →
    match i with
    | .frameBuild _ _ =>
      (s.plen.toNat + 4 ≤ k → t.fb.read k = s.fb.read k) ∧ t.pb.read k = s.pb.read k ∧ t.rg.read k = s.rg.read k
    | .frameParse _ _ _ =>
      (s.flen.toNat - 4 ≤ k → t.pb.read k = s.pb.read k) ∧ t.fb.read k = s.fb.read k ∧ t.rg.read k = s.rg.read k
    | .slaveParse _ =>
      (∀ h l, s.fb.read 4 = some h → s.fb.read 5 = some l → (be16 h l).toNat ≤ k → t.rg.read k = s.rg.read k) ∧
      (s.fb.read 1 ≠ some 0x10 → t.rg.read k = s.rg.read k) ∧ t.fb.read k = s.fb.read k ∧ t.pb.read k = s.pb.read k
    | .mrsRdReq _ _ | .mrsWs _ _ | .mrsWmRsp _ _ =>
      (4 ≤ k → t.pb.read k = s.pb.read k) ∧ t.fb.read k = s.fb.read k ∧ t.rg.read k = s.rg.read k
    | .mrsWmReq _ c =>
      (5 + 2 * c.toNat ≤ k → t.pb.read k = s.pb.read k) ∧ t.fb.read k = s.fb.read k ∧ t.rg.read k = s.rg.read k
    | .mrsRdRsp c =>
      (1 + 2 * c.toNat ≤ k → t.pb.read k = s.pb.read k) ∧ t.fb.read k = s.fb.read k ∧ t.rg.read k = s.rg.read k
    | .mrsExc _ =>
      (1 ≤ k → t.pb.read k = s.pb.read k) ∧ t.fb.read k = s.fb.read k ∧ t.rg.read k = s.rg.read k
    | .unmRdRsp c =>
      (c.toNat ≤ k → t.rg.read k = s.rg.read k) ∧ t.fb.read k = s.fb.read k ∧ t.pb.read k = s.pb.read k
    | _ => t.fb.read k = s.fb.read k ∧ t.pb.read k = s.pb.read k ∧ t.rg.read k = s.rg.read k

/-- R52, R50: a command faults only where the element its fault names is unwritten, inside its buffer, and of a buffer that
command reads; no command is refused. -/
def Obligations.FaultsNameUnwrittenElements : Prop :=
  ∀ (s : State) (i : Instr), i.isCommand = true →
    (∀ j, exec i s = .fault (.unwrittenFb j) → j < 256 ∧ s.fb.read j = none ∧
      ((∃ n, i = .crcBuf n) ∨ (∃ a f c, i = .frameParse a f c) ∨ ∃ o, i = .slaveParse o)) ∧
    (∀ j, exec i s = .fault (.unwrittenPb j) → j < 256 ∧ s.pb.read j = none ∧
      ((∃ a f, i = .frameBuild a f) ∨ (∃ c, i = .unmRdRsp c) ∨ (∃ a v, i = .chkWsRsp a v) ∨
        ∃ a c, i = .chkWmRsp a c)) ∧
    (∀ j, exec i s = .fault (.unwrittenRg j) → j < 125 ∧ s.rg.read j = none ∧
      ((∃ a c, i = .mrsWmReq a c) ∨ ∃ c, i = .mrsRdRsp c)) ∧
    ∀ r, exec i s ≠ .refused r

/-- "every command word completes" (spec/93_implementation_defined.md section 2): where every buffer element is written,
every 64-bit word written to CMD answers a next state. -/
def Obligations.EveryCommandWordCompletes : Prop :=
  ∀ (s : State) (w : Word), s.allWritten → ∃ t : State, hostCommand w s = .next t

/-- R30: no command reads RCOUNT: with another RCOUNT a command has the same outcome and, but for RCOUNT, the same state. -/
def Obligations.NoCommandReadsRcount : Prop :=
  ∀ (s : State) (i : Instr) (n : Byte), i.isCommand = true →
    (∀ t, exec i s = .next t → ∃ u, exec i { s with rcount := n } = .next u ∧
      { u with rcount := 0 } = { t with rcount := 0 }) ∧
    ∀ r, exec i s = .fault r → exec i { s with rcount := n } = .fault r

/-- R184 and R183's classes of SLAVE_PARSE: ChecksumError alone is retryable; SLAVE_PARSE's InvalidAddress is the address
mismatch exactly where own is valid and FB[0] is another address, and the caller's parameter error exactly where own is
invalid; its InvalidParameter is a protocol error exactly where the frame in FB fits the buffer and has a count above 123, and
a parameter error exactly where FLEN is above 256; its InvalidResponse, ChecksumError and InvalidFunctionCode are protocol
errors. That OK has no class is the model's reading of R183's table (log entry 17). -/
def Obligations.SlaveParseFailuresAreClassified : Prop :=
  (∀ st : Status, st.retryable = true ↔ st = .checksumError) ∧
  ∀ (s t : State) (own : Byte) (kind : BitVec 1), exec (.slaveParse own) s = .next t →
    (t.status = 0 → errorClass (.slaveParse own) s .ok kind = none) ∧
    (t.status = 1 →
      (errorClass (.slaveParse own) s .invalidAddress kind = some .addressMismatch ↔
        1 ≤ own.toNat ∧ own.toNat ≤ 247 ∧ ∃ b, s.fb.read 0 = some b ∧ b ≠ own) ∧
      (errorClass (.slaveParse own) s .invalidAddress kind = some .parameterError ↔
        own.toNat = 0 ∨ 248 ≤ own.toNat)) ∧
    (t.status = 2 →
      (errorClass (.slaveParse own) s .invalidParameter kind = some .protocolError ↔
        s.flen.toNat ≤ 256 ∧ ∃ h l, s.fb.read 4 = some h ∧ s.fb.read 5 = some l ∧ 123 < (be16 h l).toNat) ∧
      (errorClass (.slaveParse own) s .invalidParameter kind = some .parameterError ↔ 256 < s.flen.toNat)) ∧
    (t.status = 3 → errorClass (.slaveParse own) s .invalidResponse kind = some .protocolError) ∧
    (t.status = 4 → errorClass (.slaveParse own) s .checksumError kind = some .protocolError) ∧
    (t.status = 5 → errorClass (.slaveParse own) s .invalidFunctionCode kind = some .protocolError)

/-- R183 for the other 16 commands, row by row: the class of the status and RSP_KIND that a command left. TransportError has
no result of the block. That a result in no row has no class is the model's reading of the table (log entry 17). -/
def Obligations.ResultsHaveTheirErrorClass : Prop :=
  ∀ (s t : State) (i : Instr) (st : Status), i.isCommand = true → (∀ own, i ≠ .slaveParse own) → exec i s = .next t →
    t.status = st.code →
    (errorClass i s st t.rspKind = some .parameterError ↔
      (st = .invalidAddress ∧ ((∃ a, i = .addrCheck a) ∨ ∃ a f, i = .frameBuild a f)) ∨
      (st = .invalidParameter ∧ ∀ f c, i = .reqRemlen f c → c.toNat ≤ 123)) ∧
    (errorClass i s st t.rspKind = some .protocolError ↔
      st = .checksumError ∨ st = .invalidResponse ∨ st = .invalidFunctionCode ∨
      (st = .invalidParameter ∧ ∃ f c, i = .reqRemlen f c ∧ 123 < c.toNat)) ∧
    (errorClass i s st t.rspKind = some .deviceException ↔
      st = .ok ∧ (∃ a f c, i = .frameParse a f c) ∧ t.rspKind = 1) ∧
    errorClass i s st t.rspKind ≠ some .transportError ∧ errorClass i s st t.rspKind ≠ some .addressMismatch

/-! The host (spec/20_memory.md, spec/30_encoding.md section 3). -/

/-- R54: what a host read of each location returns, at its offset and its width. An element never written returns a draw,
the opaque value of the number of draws before it (log entry 3). -/
def Obligations.HostReadsReturnTheirLocation : Prop :=
  ∀ s : State,
    (∀ (i : Fin 256) (v : Byte), s.fb.read i.val = some v →
      hostAccess (.read (0x000 + i.val) .w8) s = .next { s with reply := [.b8 v] }) ∧
    (∀ (i : Fin 256) (v : Byte), s.pb.read i.val = some v →
      hostAccess (.read (0x100 + i.val) .w8) s = .next { s with reply := [.b8 v] }) ∧
    (∀ (i : Fin 125) (v : Half), s.rg.read i.val = some v →
      hostAccess (.read (0x200 + 2 * i.val) .w16) s = .next { s with reply := [.b16 v] }) ∧
    (∀ i : Fin 256, s.fb.read i.val = none → hostAccess (.read (0x000 + i.val) .w8) s =
      .next { s with reply := [.b8 (Config.drawByte s.draws)], draws := s.draws + 1 }) ∧
    (∀ i : Fin 256, s.pb.read i.val = none → hostAccess (.read (0x100 + i.val) .w8) s =
      .next { s with reply := [.b8 (Config.drawByte s.draws)], draws := s.draws + 1 }) ∧
    (∀ i : Fin 125, s.rg.read i.val = none → hostAccess (.read (0x200 + 2 * i.val) .w16) s =
      .next { s with reply := [.b16 (Config.drawHalf s.draws)], draws := s.draws + 1 }) ∧
    (∀ i : Fin 256, hostAccess (.read (0x400 + 2 * i.val) .w16) s =
      .next { s with reply := [.b16 (crcTable (BitVec.ofNat 8 i.val))] }) ∧
    hostAccess (.read 0x300 .w64) s = .next { s with reply := [.b64 s.cmd] } ∧
    hostAccess (.read 0x308 .w8) s = .next { s with reply := [.b8 s.status] } ∧
    hostAccess (.read 0x30A .w16) s = .next { s with reply := [.b16 s.acc] } ∧
    hostAccess (.read 0x30C .w16) s = .next { s with reply := [.b16 s.flen] } ∧
    hostAccess (.read 0x30E .w16) s = .next { s with reply := [.b16 s.plen] } ∧
    hostAccess (.read 0x310 .w8) s = .next { s with reply := [.b8 s.rcount] } ∧
    hostAccess (.read 0x311 .w8) s = .next { s with reply := [.b8 (s.rspKind.setWidth 8)] } ∧
    hostAccess (.read 0x312 .w8) s = .next { s with reply := [.b8 s.excCode] } ∧
    hostAccess (.read 0x313 .w8) s = .next { s with reply := [.b8 s.dFc] } ∧
    hostAccess (.read 0x314 .w16) s = .next { s with reply := [.b16 s.dAddr] } ∧
    hostAccess (.read 0x316 .w16) s = .next { s with reply := [.b16 s.dCount] } ∧
    hostAccess (.read 0x318 .w16) s = .next { s with reply := [.b16 s.dValue] } ∧
    hostAccess (.read 0x31A .w8) s = .next { s with reply := [.b8 s.dBc] } ∧
    hostAccess (.read 0x31C .w16) s = .next { s with reply := [.b16 s.dLen] }

/-- R54, R62, R53: a host write sets its location (and an element's mark) and nothing else; a write of CMD executes the
command, and CMD then holds the word (R20). -/
def Obligations.HostWritesSetOnlyTheirLocation : Prop :=
  ∀ s : State,
    (∀ (i : Fin 256) (v : Byte), ∃ t : State, hostAccess (.write (0x000 + i.val) (.b8 v)) s = .next t ∧
      t.fb.read i.val = some v ∧ t.wFb i.val = true ∧ (∀ k, k ≠ i.val → t.fb.read k = s.fb.read k) ∧
      t = { s with fb := t.fb }) ∧
    (∀ (i : Fin 256) (v : Byte), ∃ t : State, hostAccess (.write (0x100 + i.val) (.b8 v)) s = .next t ∧
      t.pb.read i.val = some v ∧ t.wPb i.val = true ∧ (∀ k, k ≠ i.val → t.pb.read k = s.pb.read k) ∧
      t = { s with pb := t.pb }) ∧
    (∀ (i : Fin 125) (v : Half), ∃ t : State, hostAccess (.write (0x200 + 2 * i.val) (.b16 v)) s = .next t ∧
      t.rg.read i.val = some v ∧ t.wRg i.val = true ∧ (∀ k, k ≠ i.val → t.rg.read k = s.rg.read k) ∧
      t = { s with rg := t.rg }) ∧
    (∀ v : Half, hostAccess (.write 0x30C (.b16 v)) s = .next { s with flen := v }) ∧
    (∀ v : Half, hostAccess (.write 0x30E (.b16 v)) s = .next { s with plen := v }) ∧
    (∀ v : Byte, hostAccess (.write 0x310 (.b8 v)) s = .next { s with rcount := v }) ∧
    (∀ w : Word, hostAccess (.write 0x300 (.b64 w)) s = runCommand w { s with cmd := w })

/-- R20: a host write of CMD executes the word in that one access; after a write of CMD that completes, CMD reads back the
word, whatever the command did; after reset it reads 0. -/
def Obligations.CmdReadsBackTheLastWord : Prop :=
  (∀ (w : Word) (s : State), hostAccess (.write 0x300 (.b64 w)) s = hostCommand w s ∧
    hostCommand w s = runCommand w { s with cmd := w }) ∧
  (∀ (w : Word) (s t : State), hostCommand w s = .next t →
    hostAccess (.read 0x300 .w64) t = .next { t with reply := [.b64 w] }) ∧
  hostAccess (.read 0x300 .w64) State.reset = .next { State.reset with reply := [.b64 0] }

/-- R55: an access that no location admits is refused, with no next state: an offset where none starts, the gaps named
among them, another width, a write to a read-only location. -/
def Obligations.UnadmittedAccessesAreRefused : Prop :=
  ∀ s : State,
    (∀ off : Nat, (∀ l : Loc, l.offset ≠ off) →
      (∀ w, hostAccess (.read off w) s = .refused (.noLocation off)) ∧
      ∀ d, hostAccess (.write off d) s = .refused (.noLocation off)) ∧
    (∀ (l : Loc) (w : AccessWidth), w ≠ l.width → hostAccess (.read l.offset w) s = .refused (.wrongWidth l)) ∧
    (∀ (l : Loc) (d : HostData), d.width ≠ l.width → hostAccess (.write l.offset d) s = .refused (.wrongWidth l)) ∧
    (∀ (l : Loc) (d : HostData), d.width = l.width →
      l = .status ∨ l = .acc ∨ l = .rspKind ∨ l = .excCode ∨ l = .dFc ∨ l = .dAddr ∨ l = .dCount ∨ l = .dValue ∨
        l = .dBc ∨ l = .dLen ∨ (∃ i, l = .t i) →
      hostAccess (.write l.offset d) s = .refused (.readOnly l)) ∧
    ∀ off : Nat, (0x2FA ≤ off ∧ off ≤ 0x2FF) ∨ off = 0x309 ∨ off = 0x31B ∨ (0x31E ≤ off ∧ off ≤ 0x3FF) ∨ 0x600 ≤ off →
      ∀ l : Loc, l.offset ≠ off

/-- R62: a host read changes nothing but what it returned and the draws made, and reading a location that holds a value twice
returns the same. -/
def Obligations.HostReadsHaveNoSideEffect : Prop :=
  ∀ (s t : State) (off : Nat) (w : AccessWidth), hostAccess (.read off w) s = .next t →
    t = { s with reply := t.reply, draws := t.draws } ∧ (t.draws = s.draws → hostAccess (.read off w) t = .next t)

/-- R90, R54: what each pseudo-operation and a single access of the map do, as one step of the host's program. READ
FB[0..FLEN) returns the bytes in order, an unwritten one as the draw whose number is the draws made before it (log entries 3
and 10). That an expansion is one step is the model's choice (log entry 9), and so is that one reaching past the end of its
buffer is refused (log entry 8). -/
def Obligations.PseudoOperationsExpand : Prop :=
  ∀ s : State,
    (∀ bytes : List Byte, bytes.length ≤ 256 → s.program[s.pc]? = some (.loadFb bytes) →
      ∃ t : State, step s = .next t ∧ Stored s.fb bytes t.fb ∧
        t = { s with fb := t.fb, flen := BitVec.ofNat 16 bytes.length, pc := s.pc + 1 }) ∧
    (∀ bytes : List Byte, bytes.length ≤ 256 → s.program[s.pc]? = some (.loadPb bytes) →
      ∃ t : State, step s = .next t ∧ Stored s.pb bytes t.pb ∧
        t = { s with pb := t.pb, plen := BitVec.ofNat 16 bytes.length, pc := s.pc + 1 }) ∧
    (∀ values : List Half, values.length ≤ 125 → s.program[s.pc]? = some (.loadRg values) →
      ∃ t : State, step s = .next t ∧ Stored s.rg values t.rg ∧
        t = { s with rg := t.rg, rcount := BitVec.ofNat 8 values.length, pc := s.pc + 1 }) ∧
    (∀ n : Half, s.program[s.pc]? = some (.setFlen n) → step s = .next { s with flen := n, pc := s.pc + 1 }) ∧
    (∀ n : Half, s.program[s.pc]? = some (.setPlen n) → step s = .next { s with plen := n, pc := s.pc + 1 }) ∧
    (∀ (i : Fin 256) (b : Byte), s.program[s.pc]? = some (.pokeFb i b) →
      ∃ t : State, step s = .next t ∧ t.fb.read i.val = some b ∧ (∀ k, k ≠ i.val → t.fb.read k = s.fb.read k) ∧
        t = { s with fb := t.fb, pc := s.pc + 1 }) ∧
    (∀ l : Loc, s.program[s.pc]? = some (.read l) →
      step s = hostAccess (.read l.offset l.width) { s with pc := s.pc + 1 }) ∧
    (∀ a : HostAccess, s.program[s.pc]? = some (.access a) → step s = hostAccess a { s with pc := s.pc + 1 }) ∧
    (s.flen.toNat ≤ 256 → s.program[s.pc]? = some .readFrame →
      ∃ t : State, step s = .next t ∧ t.reply.length = s.flen.toNat ∧
        (∀ k v, k < s.flen.toNat → s.fb.read k = some v → t.reply[k]? = some (.b8 v)) ∧
        (∀ k, k < s.flen.toNat → s.fb.read k = none → t.reply[k]? = some (.b8 (Config.drawByte
          (s.draws + ((List.range k).filter fun j => (s.fb.read j).isNone).length)))) ∧
        t = { s with
          reply := t.reply, pc := s.pc + 1,
          draws := s.draws + ((List.range s.flen.toNat).filter fun j => (s.fb.read j).isNone).length }) ∧
    (256 < s.flen.toNat → s.program[s.pc]? = some .readFrame → step s = .refused (.pastBufferEnd 256)) ∧
    (∀ bytes : List Byte, 256 < bytes.length →
      s.program[s.pc]? = some (.loadFb bytes) ∨ s.program[s.pc]? = some (.loadPb bytes) →
      step s = .refused (.pastBufferEnd 256)) ∧
    (∀ values : List Half, 125 < values.length → s.program[s.pc]? = some (.loadRg values) →
      step s = .refused (.pastBufferEnd 125))

/-- R91, R92: BR_EQ and BR_STATUS set the index by what the read returns, STOP and the end of the program stay, and every
other line that completes advances the index by one; no line changes the program. The model's choices: waiting at STOP and at
the end is a step to the same state (log entry 4); BR_EQ names any location of the map, where R91 has a register, and a
branch's read is recorded as the reply (log entry 10), a draw where the element is unwritten (log entry 3). -/
def Obligations.ProgramLinesMoveTheIndex : Prop :=
  (∀ s : State, s.program[s.pc]? = none → step s = .next s) ∧
  ∀ (s : State) (l : HostLine), s.program[s.pc]? = some l →
    (l = .stop → step s = .next s) ∧
    (∀ (x : Loc) (v k : Nat), l = .brEq x v k → ∃ t : State, step s = .next t ∧
      t.pc = (if (readLoc x s.draws s).1.toNat = v then k else s.pc + 1) ∧
      t = { s with pc := t.pc, reply := [(readLoc x s.draws s).1], draws := t.draws }) ∧
    (∀ (st : Status) (k : Nat), l = .brStatus st k → ∃ t : State, step s = .next t ∧
      t.pc = (if s.status = st.code then k else s.pc + 1) ∧ t = { s with pc := t.pc, reply := [.b8 s.status] }) ∧
    ((∀ x v k, l ≠ .brEq x v k) → (∀ st k, l ≠ .brStatus st k) → l ≠ .stop →
      ∀ t : State, step s = .next t → t.pc = s.pc + 1 ∧ t.program = s.program)

/-- A step runs the decoded instruction: where the host's next line is a command word or an arriving frame that decodes to
`i`, the step is exec of `i` with the index moved on (and CMD holding the word, R20); a word that decodes to nothing fails
IllegalCommand (R70); arriving bytes that are no wire form are loaded as LOAD_FB loads them, and refused past the end of FB
(log entries 8 and 18). The last two clauses are the same for a word of the opcode table placed by withFetchWord: a command
word, and the function-code byte of a wire row, read as log entry 6 says. That the host's program is in State is the model's
choice (log entry 4), and so is CMD holding a word that is no command (log entry 13). -/
def Obligations.StepRunsTheDecodedInstruction : Prop :=
  ∀ s : State,
    (∀ (w : Word) (i : Instr), s.program[s.pc]? = some (.command w) → decodeCommand w = .ok i →
      step s = exec i { s with pc := s.pc + 1, cmd := w }) ∧
    (∀ (w : Word) (e : DecodeError), s.program[s.pc]? = some (.command w) → decodeCommand w = .error e →
      step s = .next { s with pc := s.pc + 1, cmd := w, status := 6 }) ∧
    (∀ (d : Direction) (bytes : List Byte) (i : Instr), s.program[s.pc]? = some (.receive d bytes) →
      decodeWire d bytes = .ok i → step s = exec i { s with pc := s.pc + 1 }) ∧
    (∀ (d : Direction) (bytes : List Byte) (e : DecodeError), s.program[s.pc]? = some (.receive d bytes) →
      decodeWire d bytes = .error e →
      (bytes.length ≤ 256 → ∃ t : State, step s = .next t ∧ Stored s.fb bytes t.fb ∧
        t = { s with fb := t.fb, flen := BitVec.ofNat 16 bytes.length, pc := s.pc + 1 }) ∧
      (256 < bytes.length → step s = .refused (.pastBufferEnd 256))) ∧
    (∀ (nbits w : Nat) (i : Instr), 8 < nbits → decodeTableWord nbits w = some i →
      step (s.withFetchWord nbits w) =
        exec i { s.withFetchWord nbits w with pc := s.pc + 1, cmd := BitVec.ofNat 64 w }) ∧
    (∀ (nbits w : Nat) (i : Instr), nbits ≤ 8 → decodeTableWord nbits w = some i →
      step (s.withFetchWord nbits w) = exec i { s.withFetchWord nbits w with pc := s.pc + 1 })

/-! How the commands compose (R175). -/

/-- The write-single property (spec/90_conflicts.md C4): for every slave address of 1 to 247, register address and value, the
request that MRS_WS and FRAME_BUILD make is the layout's frame, and its echo parses and is confirmed, every command leaving
OK. That the echo arrives in FB with FLEN its length is the model's choice (log entry 5). -/
def Obligations.WriteSingleRoundTripConfirms : Prop :=
  ∀ (s : State) (slave : Byte) (addr value : Half), 1 ≤ slave.toNat → slave.toNat ≤ 247 →
    (∃ u : State, RunsOk [.mrsWs addr value, .frameBuild slave 0x06] s u ∧ u.flen = 8 ∧
      u.fb.holds 0 (frameOf slave 0x06 [hi addr, lo addr, hi value, lo value]
        (crc16 [slave, 0x06, hi addr, lo addr, hi value, lo value]))) ∧
    ∃ t : State, RunsOk
      [.mrsWs addr value, .frameBuild slave 0x06,
        .wireRsp06 slave addr value (crc16 [slave, 0x06, hi addr, lo addr, hi value, lo value]),
        .frameParse slave 0x06 4, .chkWsRsp addr value] s t

/-- A read response the slave builds from its registers is the layout's frame (R79), and a master in any state that receives
it decodes those registers (R175). That the frame arrives in FB with FLEN its length is the model's choice (log entry 5). -/
def Obligations.ReadResponseCarriesTheRegisters : Prop :=
  ∀ (s m : State) (slave : Byte) (count : Half) (regs : List Half), 1 ≤ slave.toNat → slave.toNat ≤ 247 →
    1 ≤ regs.length → regs.length ≤ 125 → count.toNat = regs.length → s.rg.holds 0 regs →
    (∃ u : State, RunsOk [.mrsRdRsp count, .frameBuild slave 0x03] s u ∧ u.flen.toNat = 5 + 2 * regs.length ∧
      u.fb.holds 0 (frameOf slave 0x03 (readResponsePayload regs) (crc16 (slave :: 0x03 :: readResponsePayload regs)))) ∧
    ∃ t : State, RunsOk
      [.wireRsp03 slave regs (crc16 (slave :: 0x03 :: readResponsePayload regs)), .frameParse slave 0x03 252,
        .unmRdRsp count] m t ∧
      t.rg.holds 0 regs ∧ t.rcount.toNat = regs.length ∧ t.rspKind = 0

/-- A write-multiple request the master builds from its registers is the layout's frame (R82), and a slave in any state that
receives it decodes start, count, byte_count and those registers (R133, R175). That the frame arrives in FB with FLEN its
length is the model's choice (log entry 5). -/
def Obligations.WriteRequestCarriesTheRegisters : Prop :=
  ∀ (s m : State) (slave : Byte) (start count : Half) (regs : List Half), 1 ≤ slave.toNat → slave.toNat ≤ 247 →
    1 ≤ regs.length → regs.length ≤ 123 → count.toNat = regs.length → s.rg.holds 0 regs →
    (∃ u : State, RunsOk [.mrsWmReq start count, .frameBuild slave 0x10] s u ∧ u.flen.toNat = 9 + 2 * regs.length ∧
      u.fb.holds 0 (frameOf slave 0x10 (writeRequestPayload start regs)
        (crc16 (slave :: 0x10 :: writeRequestPayload start regs)))) ∧
    ∃ t : State, RunsOk
      [.wireReq10 slave start regs (crc16 (slave :: 0x10 :: writeRequestPayload start regs)), .slaveParse slave] m t ∧
      t.dFc = 0x10 ∧ t.dAddr = start ∧ t.dCount = count ∧ t.dBc.toNat = 2 * regs.length ∧ t.rg.holds 0 regs ∧
      t.rcount.toNat = regs.length

/-- The single-byte property (spec/90_conflicts.md C3): a response frame with a right checksum, one byte of it changed to any
other value, fails FRAME_PARSE with InvalidResponse where the byte is the address and with ChecksumError where it is any
other. -/
def Obligations.FrameParseRejectsEveryChangedByte : Prop :=
  ∀ (s : State) (a f : Byte) (cap : Half) (frame : List Byte) (i : Nat) (b : Byte),
    4 ≤ frame.length → frame.length ≤ 256 → s.flen.toNat = frame.length → frame[0]? = some a → chkOk frame = true →
    i < frame.length → frame[i]? ≠ some b → s.fb.holds 0 (frame.set i b) →
    exec (.frameParse a f cap) s = .next { s with status := if i = 0 then 3 else 4 }
end

