-- ==== Sys2Proof/Laws/Bytes.lean ====
section
/-! SUPPORT. The byte-order helpers undo each other (R56 to R58). -/

namespace Sys2Proof.Machine

@[simp] theorem hi_be16 (h l : Byte) : hi (be16 h l) = h := by
  apply BitVec.eq_of_getLsbD_eq
  intro i hi'
  simp only [hi, be16, BitVec.getLsbD_extractLsb', BitVec.getLsbD_or, BitVec.getLsbD_shiftLeft, BitVec.getLsbD_setWidth]
  have : l.getLsbD (8 + i) = false := BitVec.getLsbD_of_ge _ _ (by omega)
  simp only [this, hi', show 8 + i < 16 by omega, show ¬ 8 + i < 8 by omega, show 8 + i - 8 = i by omega,
    show i < 16 by omega]
  simp

@[simp] theorem lo_be16 (h l : Byte) : lo (be16 h l) = l := by
  apply BitVec.eq_of_getLsbD_eq
  intro i hi'
  simp only [lo, be16, BitVec.getLsbD_extractLsb', BitVec.getLsbD_or, BitVec.getLsbD_shiftLeft, BitVec.getLsbD_setWidth]
  simp [hi']
  omega

@[simp] theorem be16_hi_lo (v : Half) : be16 (hi v) (lo v) = v := by
  apply BitVec.eq_of_getLsbD_eq
  intro i hi'
  simp only [hi, lo, be16, BitVec.getLsbD_extractLsb', BitVec.getLsbD_or, BitVec.getLsbD_shiftLeft,
    BitVec.getLsbD_setWidth]
  by_cases h : i < 8
  · simp [h, hi']
  · simp [h, hi', show i - 8 < 8 by omega, show i - 8 < 16 by omega, show 8 + (i - 8) = i by omega]

theorem be16_inj {h l h' l' : Byte} : be16 h l = be16 h' l' ↔ h = h' ∧ l = l' := by
  constructor
  · intro e
    exact ⟨by simpa using congrArg hi e, by simpa using congrArg lo e⟩
  · rintro ⟨rfl, rfl⟩; rfl

@[simp] theorem bytesBe16_length (v : Half) : (bytesBe16 v).length = 2 := rfl

@[simp] theorem bytesBe16List_length (vs : List Half) : (bytesBe16List vs).length = 2 * vs.length := by
  induction vs with
  | nil => rfl
  | cons v vs ih => simp only [bytesBe16List, List.length_cons, ih]; omega

/-- Registers laid out high byte first are read back (R57). -/
@[simp] theorem be16List_bytesBe16List (vs : List Half) : be16List (bytesBe16List vs) = vs := by
  induction vs with
  | nil => rfl
  | cons v vs ih => simp [bytesBe16List, be16List, ih]

/-- An even number of bytes read as registers is laid out again as it was. -/
theorem bytesBe16List_be16List : ∀ (bs : List Byte), bs.length % 2 = 0 → bytesBe16List (be16List bs) = bs
  | [], _ => rfl
  | [_], h => by simp at h
  | h :: l :: rest, hl => by
    simp only [List.length_cons] at hl
    simp [be16List, bytesBe16List, bytesBe16List_be16List rest (by omega)]

theorem be16List_length : ∀ (bs : List Byte), (be16List bs).length = bs.length / 2
  | [] => rfl
  | [_] => by simp [be16List]
  | _ :: _ :: rest => by
    simp only [be16List, List.length_cons, be16List_length rest]
    omega

/-- Register `k` of a byte sequence is its bytes `2k` and `2k+1` (R79, R82). -/
theorem be16List_getElem? : ∀ (bs : List Byte) (k : Nat), 2 * k + 1 < bs.length →
    (be16List bs)[k]? = some (be16 (bs.getD (2 * k) 0) (bs.getD (2 * k + 1) 0))
  | [], k, h => by simp at h
  | [_], k, h => by simp at h
  | h :: l :: rest, 0, _ => rfl
  | h :: l :: rest, k + 1, hk => by
    simp only [List.length_cons] at hk
    simp only [be16List, List.getElem?_cons_succ, be16List_getElem? rest k (by omega)]
    rfl

/-! The fields of a packed command word (R71, R89). -/

section
variable (opc a b : Byte) (c d : Half)

@[simp] theorem opcField_packWord : opcField (packWord opc a b c d) = opc := by
  apply BitVec.eq_of_getLsbD_eq
  intro i hi'
  simp [opcField, packWord, hi', show i < 16 by omega, show i < 32 by omega, show i < 48 by omega, show i < 64 by omega]

@[simp] theorem aField_packWord : aField (packWord opc a b c d) = a := by
  apply BitVec.eq_of_getLsbD_eq
  intro i hi'
  simp [aField, packWord, hi', show 8 + i < 16 by omega, show 8 + i < 32 by omega, show 8 + i < 48 by omega,
    show 8 + i < 64 by omega]

@[simp] theorem bField_packWord : bField (packWord opc a b c d) = b := by
  apply BitVec.eq_of_getLsbD_eq
  intro i hi'
  have h1 : opc.getLsbD (16 + i) = false := BitVec.getLsbD_of_ge _ _ (by omega)
  have h2 : a.getLsbD (16 + i - 8) = false := BitVec.getLsbD_of_ge _ _ (by omega)
  simp [bField, packWord, hi', h1, h2, show 16 + i < 32 by omega, show 16 + i < 48 by omega, show 16 + i < 64 by omega]

@[simp] theorem resField_packWord : resField (packWord opc a b c d) = 0 := by
  apply BitVec.eq_of_getLsbD_eq
  intro i hi'
  have h1 : opc.getLsbD (24 + i) = false := BitVec.getLsbD_of_ge _ _ (by omega)
  have h2 : a.getLsbD (24 + i - 8) = false := BitVec.getLsbD_of_ge _ _ (by omega)
  have h3 : b.getLsbD (24 + i - 16) = false := BitVec.getLsbD_of_ge _ _ (by omega)
  simp [resField, packWord, hi', h1, h2, h3, show 24 + i < 32 by omega, show 24 + i < 48 by omega]

@[simp] theorem cField_packWord : cField (packWord opc a b c d) = c := by
  apply BitVec.eq_of_getLsbD_eq
  intro i hi'
  have h1 : opc.getLsbD (32 + i) = false := BitVec.getLsbD_of_ge _ _ (by omega)
  have h2 : a.getLsbD (32 + i - 8) = false := BitVec.getLsbD_of_ge _ _ (by omega)
  have h3 : b.getLsbD (32 + i - 16) = false := BitVec.getLsbD_of_ge _ _ (by omega)
  simp [cField, packWord, hi', h1, h2, h3, show 32 + i < 48 by omega, show 32 + i < 64 by omega]

@[simp] theorem dField_packWord : dField (packWord opc a b c d) = d := by
  apply BitVec.eq_of_getLsbD_eq
  intro i hi'
  have h1 : opc.getLsbD (48 + i) = false := BitVec.getLsbD_of_ge _ _ (by omega)
  have h2 : a.getLsbD (48 + i - 8) = false := BitVec.getLsbD_of_ge _ _ (by omega)
  have h3 : b.getLsbD (48 + i - 16) = false := BitVec.getLsbD_of_ge _ _ (by omega)
  have h4 : c.getLsbD (48 + i - 32) = false := BitVec.getLsbD_of_ge _ _ (by omega)
  simp [dField, packWord, hi', h1, h2, h3, h4, show 48 + i < 64 by omega]

end

/-- A word whose RES field is 0 is the packing of its fields (R71). -/
theorem packWord_fields {w : Word} (h : resField w = 0) :
    packWord (opcField w) (aField w) (bField w) (cField w) (dField w) = w := by
  apply BitVec.eq_of_getLsbD_eq
  intro i hi'
  simp only [packWord, opcField, aField, bField, cField, dField, BitVec.getLsbD_or, BitVec.getLsbD_shiftLeft,
    BitVec.getLsbD_setWidth, BitVec.getLsbD_extractLsb']
  have hr : ∀ k, k < 8 → w.getLsbD (24 + k) = false := fun k hk => by
    have := congrArg (fun v : Byte => v.getLsbD k) h
    simpa [resField, hk] using this
  by_cases h1 : i < 8
  · simp [h1, hi', show i < 16 by omega, show i < 32 by omega, show i < 48 by omega]
  by_cases h2 : i < 16
  · simp [h1, h2, hi', show i - 8 < 8 by omega, show i - 8 < 64 by omega, show 8 + (i - 8) = i by omega, show i < 32 by omega,
      show i < 48 by omega]
  by_cases h3 : i < 24
  · simp [h1, h2, hi', show ¬ i - 8 < 8 by omega, show i - 16 < 8 by omega, show i - 16 < 64 by omega, show 16 + (i - 16) = i by omega,
      show i < 32 by omega, show i < 48 by omega]
  by_cases h4 : i < 32
  · have := hr (i - 24) (by omega)
    rw [show 24 + (i - 24) = i by omega] at this
    rw [BitVec.getLsbD_eq_getElem hi'] at this
    simp [h1, h2, hi', this, show ¬ i - 8 < 8 by omega, show ¬ i - 16 < 8 by omega, show i < 48 by omega, h4]
  by_cases h5 : i < 48
  · simp [h1, h2, h4, h5, hi', show ¬ i - 8 < 8 by omega, show ¬ i - 16 < 8 by omega, show i - 32 < 16 by omega, show i - 32 < 64 by omega,
      show 32 + (i - 32) = i by omega]
  · simp [h1, h2, h4, h5, hi', show ¬ i - 8 < 8 by omega, show ¬ i - 16 < 8 by omega, show ¬ i - 32 < 16 by omega,
      show i - 48 < 16 by omega, show i - 48 < 64 by omega, show 48 + (i - 48) = i by omega]

/-! A word under a mask, field by field (R70): two words are one where their six fields agree. -/

@[simp] theorem opcField_and (x y : Word) : opcField (x &&& y) = opcField x &&& opcField y := BitVec.extractLsb'_and
@[simp] theorem aField_and (x y : Word) : aField (x &&& y) = aField x &&& aField y := BitVec.extractLsb'_and
@[simp] theorem bField_and (x y : Word) : bField (x &&& y) = bField x &&& bField y := BitVec.extractLsb'_and
@[simp] theorem resField_and (x y : Word) : resField (x &&& y) = resField x &&& resField y := BitVec.extractLsb'_and
@[simp] theorem cField_and (x y : Word) : cField (x &&& y) = cField x &&& cField y := BitVec.extractLsb'_and
@[simp] theorem dField_and (x y : Word) : dField (x &&& y) = dField x &&& dField y := BitVec.extractLsb'_and

/-- A bit of a field is the word's bit. -/
theorem getLsbD_of_extractLsb'_eq {x y : Word} {start len i : Nat} (h : x.extractLsb' start len = y.extractLsb' start len)
    (h1 : start ≤ i) (h2 : i < start + len) : x.getLsbD i = y.getLsbD i := by
  have := congrArg (fun v : BitVec len => v.getLsbD (i - start)) h
  simp only [BitVec.getLsbD_extractLsb', show i - start < len by omega, decide_true, Bool.true_and,
    show start + (i - start) = i by omega] at this
  exact this

theorem word_ext {x y : Word} (ho : opcField x = opcField y) (ha : aField x = aField y) (hb : bField x = bField y)
    (hr : resField x = resField y) (hc : cField x = cField y) (hd : dField x = dField y) : x = y := by
  apply BitVec.eq_of_getLsbD_eq
  intro i hi'
  by_cases h1 : i < 8
  · exact getLsbD_of_extractLsb'_eq ho (by omega) h1
  by_cases h2 : i < 16
  · exact getLsbD_of_extractLsb'_eq ha (by omega) (by omega)
  by_cases h3 : i < 24
  · exact getLsbD_of_extractLsb'_eq hb (by omega) (by omega)
  by_cases h4 : i < 32
  · exact getLsbD_of_extractLsb'_eq hr (by omega) (by omega)
  by_cases h5 : i < 48
  · exact getLsbD_of_extractLsb'_eq hc (by omega) (by omega)
  · exact getLsbD_of_extractLsb'_eq hd (by omega) (by omega)

/-- A word meets a match and a mask exactly where each of its fields does. -/
theorem and_eq_iff_fields {w mask pat : Word} : w &&& mask = pat ↔
    opcField w &&& opcField mask = opcField pat ∧ aField w &&& aField mask = aField pat ∧
    bField w &&& bField mask = bField pat ∧ resField w &&& resField mask = resField pat ∧
    cField w &&& cField mask = cField pat ∧ dField w &&& dField mask = dField pat := by
  constructor
  · rintro rfl
    simp
  · rintro ⟨ho, ha, hb, hr, hc, hd⟩
    exact word_ext (by simpa using ho) (by simpa using ha) (by simpa using hb) (by simpa using hr) (by simpa using hc)
      (by simpa using hd)

end Sys2Proof.Machine
end

