-- ==== Sys2Proof/Laws/Memory.lean ====
section
/-! SUPPORT. The laws of the buffers: a read after a write, the canonical form kept by every operation, and runs of
elements. -/

namespace Sys2Proof.Machine

variable {α : Type}

@[simp] theorem Memory.read_nil (i : Nat) : Memory.read ([] : Memory α) i = none := rfl

theorem Memory.read_cons (j : Nat) (v : α) (m : Memory α) (i : Nat) :
    Memory.read ((j, v) :: m) i = if j = i then some v else Memory.read m i := rfl

/-- A buffer whose indices start at `lo` lists nothing below `lo`. -/
theorem Memory.read_below {size lo i : Nat} {m : Memory α} (h : m.rising size lo = true) (hi : i < lo) :
    m.read i = none := by
  induction m generalizing lo with
  | nil => rfl
  | cons p m ih =>
    obtain ⟨j, v⟩ := p
    simp only [Memory.rising, Bool.and_eq_true, decide_eq_true_eq] at h
    rw [Memory.read_cons, if_neg (by omega), ih h.2 (by omega)]

/-- Past the buffer's size nothing is listed. -/
theorem Memory.read_outside {size lo i : Nat} {m : Memory α} (h : m.rising size lo = true) (hi : size ≤ i) :
    m.read i = none := by
  induction m generalizing lo with
  | nil => rfl
  | cons p m ih =>
    obtain ⟨j, v⟩ := p
    simp only [Memory.rising, Bool.and_eq_true, decide_eq_true_eq] at h
    rw [Memory.read_cons, if_neg (by omega), ih h.2]

/-- A read after a write: the value written at its index, what was there at every other. -/
theorem Memory.read_write (m : Memory α) (i : Nat) (v : α) (k : Nat) :
    (m.write i v).read k = if i = k then some v else m.read k := by
  induction m with
  | nil => simp [Memory.write, Memory.read_cons]
  | cons p m ih =>
    obtain ⟨j, w⟩ := p
    simp only [Memory.write]
    split
    · simp only [Memory.read_cons]
    · split
      · subst_vars
        simp only [Memory.read_cons]
        split <;> rfl
      · simp only [Memory.read_cons, ih]
        split
        · rw [if_neg (by omega)]
        · rfl

@[simp] theorem Memory.read_write_same (m : Memory α) (i : Nat) (v : α) : (m.write i v).read i = some v := by
  simp [Memory.read_write]

theorem Memory.read_write_other (m : Memory α) {i k : Nat} (v : α) (h : i ≠ k) : (m.write i v).read k = m.read k := by
  simp [Memory.read_write, h]

/-- A write keeps the canonical form. -/
theorem Memory.write_rising {size lo i : Nat} {m : Memory α} {v : α} (h : m.rising size lo = true) (hlo : lo ≤ i)
    (hi : i < size) : (m.write i v).rising size lo = true := by
  induction m generalizing lo with
  | nil => simp [Memory.write, Memory.rising, hlo, hi]
  | cons p m ih =>
    obtain ⟨j, w⟩ := p
    simp only [Memory.rising, Bool.and_eq_true, decide_eq_true_eq] at h
    simp only [Memory.write]
    split
    · simp only [Memory.rising, Bool.and_eq_true, decide_eq_true_eq]
      exact ⟨⟨hlo, hi⟩, ⟨by omega, h.1.2⟩, h.2⟩
    · split
      · subst_vars
        simp only [Memory.rising, Bool.and_eq_true, decide_eq_true_eq]
        exact h
      · simp only [Memory.rising, Bool.and_eq_true, decide_eq_true_eq]
        exact ⟨h.1, ih h.2 (by omega)⟩

theorem Memory.write_wf {size i : Nat} {m : Memory α} {v : α} (h : m.wf size = true) (hi : i < size) :
    (m.write i v).wf size = true := Memory.write_rising h (Nat.zero_le i) hi

/-- A run of writes keeps the canonical form where the run fits. -/
theorem Memory.writeRange_wf {size i : Nat} {m : Memory α} {vs : List α} (h : m.wf size = true)
    (hi : i + vs.length ≤ size) : (m.writeRange i vs).wf size = true := by
  induction vs generalizing m i with
  | nil => exact h
  | cons v vs ih =>
    simp only [List.length_cons] at hi
    exact ih (Memory.write_wf h (by omega)) (by omega)

/-- A read after a run of writes. -/
theorem Memory.read_writeRange (m : Memory α) (i : Nat) (vs : List α) (k : Nat) :
    (m.writeRange i vs).read k = if i ≤ k ∧ k < i + vs.length then vs[k - i]? else m.read k := by
  induction vs generalizing m i with
  | nil => simp [Memory.writeRange]
  | cons v vs ih =>
    simp only [Memory.writeRange, ih, Memory.read_write, List.length_cons]
    by_cases h1 : i = k
    · subst h1
      simp
    · by_cases h2 : i + 1 ≤ k ∧ k < i + 1 + vs.length
      · have h3 : k - i = (k - (i + 1)) + 1 := by omega
        rw [if_pos h2, if_pos (by omega), h3, List.getElem?_cons_succ]
      · rw [if_neg h2, if_neg h1, if_neg (by omega)]

/-- Outside a run of writes every element is as it was. -/
theorem Memory.read_writeRange_outside (m : Memory α) {i k : Nat} {vs : List α} (h : k < i ∨ i + vs.length ≤ k) :
    (m.writeRange i vs).read k = m.read k := by
  rw [Memory.read_writeRange, if_neg (by omega)]

/-- What reading a run answers: the values, as many as asked for, each the element's. -/
theorem Memory.readRange_ok {m : Memory α} {i n : Nat} {vs : List α} (h : m.readRange i n = .ok vs) :
    vs.length = n ∧ ∀ k, k < n → m.read (i + k) = vs[k]? := by
  induction n generalizing i vs with
  | zero =>
    cases h
    exact ⟨rfl, by omega⟩
  | succ n ih =>
    simp only [Memory.readRange] at h
    split at h
    · cases h
    · rename_i v hv
      split at h
      · cases h
      · rename_i ws hws
        cases h
        obtain ⟨hl, hk⟩ := ih hws
        refine ⟨by simp [hl], fun k hkn => ?_⟩
        cases k with
        | zero => simpa using hv
        | succ k => rw [List.getElem?_cons_succ, ← hk k (by omega)]; congr 1; omega

/-- A run whose elements are all written is read. -/
theorem Memory.readRange_of_read {m : Memory α} {i : Nat} {vs : List α}
    (h : ∀ k, k < vs.length → m.read (i + k) = vs[k]?) : m.readRange i vs.length = .ok vs := by
  induction vs generalizing i with
  | nil => rfl
  | cons v vs ih =>
    have h0 := h 0 (by simp)
    have ht : m.readRange (i + 1) vs.length = .ok vs := ih fun k hk => by
      have := h (k + 1) (by simpa using hk)
      rw [List.getElem?_cons_succ] at this
      rw [← this]; congr 1; omega
    simp only [Nat.add_zero, List.getElem?_cons_zero] at h0
    simp only [List.length_cons, Memory.readRange, h0, ht]

/-- Where reading a run stops, that element is unwritten and every one before it is written. -/
theorem Memory.readRange_error {m : Memory α} {i n j : Nat} (h : m.readRange i n = .error j) :
    i ≤ j ∧ j < i + n ∧ m.read j = none ∧ ∀ k, i ≤ k → k < j → (m.read k).isSome = true := by
  induction n generalizing i with
  | zero => cases h
  | succ n ih =>
    simp only [Memory.readRange] at h
    split at h
    · rename_i hv
      cases h
      exact ⟨by omega, by omega, hv, by omega⟩
    · rename_i v hv
      split at h
      · rename_i j' hj
        cases h
        obtain ⟨h1, h2, h3, h4⟩ := ih hj
        refine ⟨by omega, by omega, h3, fun k hk hkj => ?_⟩
        by_cases hki : k = i
        · subst hki; simp [hv]
        · exact h4 k (by omega) hkj
      · cases h

/-- The first unwritten element of a run is the one reading it stops at. -/
theorem Memory.readRange_of_unwritten {m : Memory α} {i n j : Nat} (h1 : i ≤ j) (h2 : j < i + n)
    (h3 : m.read j = none) (h4 : ∀ k, i ≤ k → k < j → (m.read k).isSome = true) : m.readRange i n = .error j := by
  cases h : m.readRange i n with
  | ok vs =>
    obtain ⟨hl, hk⟩ := Memory.readRange_ok h
    have := hk (j - i) (by omega)
    rw [show i + (j - i) = j by omega, h3, eq_comm, List.getElem?_eq_none_iff] at this
    omega
  | error j' =>
    obtain ⟨g1, g2, g3, g4⟩ := Memory.readRange_error h
    rcases Nat.lt_trichotomy j j' with hlt | rfl | hgt
    · have := g4 j h1 hlt
      simp [h3] at this
    · rfl
    · have := h4 j' g1 hgt
      simp [g3] at this

/-- A run just written is what reading it gives. -/
theorem Memory.readRange_writeRange (m : Memory α) (i : Nat) (vs : List α) :
    (m.writeRange i vs).readRange i vs.length = .ok vs :=
  Memory.readRange_of_read fun k hk => by
    rw [Memory.read_writeRange, if_pos (by omega)]; congr 1; omega

end Sys2Proof.Machine
end

