-- ==== Sys2Proof/Laws/State.lean ====
section
/-! SUPPORT. One lemma per field per update of State, each true by rfl, so that no proof unfolds an update. -/

namespace Sys2Proof.Machine

section
variable (s : State) (w : Word)
@[simp] theorem State.setCmd_cmd : (s.setCmd w).cmd = w := rfl
@[simp] theorem State.setCmd_status : (s.setCmd w).status = s.status := rfl
@[simp] theorem State.setCmd_acc : (s.setCmd w).acc = s.acc := rfl
@[simp] theorem State.setCmd_fb : (s.setCmd w).fb = s.fb := rfl
@[simp] theorem State.setCmd_flen : (s.setCmd w).flen = s.flen := rfl
@[simp] theorem State.setCmd_pb : (s.setCmd w).pb = s.pb := rfl
@[simp] theorem State.setCmd_plen : (s.setCmd w).plen = s.plen := rfl
@[simp] theorem State.setCmd_rg : (s.setCmd w).rg = s.rg := rfl
@[simp] theorem State.setCmd_rcount : (s.setCmd w).rcount = s.rcount := rfl
@[simp] theorem State.setCmd_rspKind : (s.setCmd w).rspKind = s.rspKind := rfl
@[simp] theorem State.setCmd_excCode : (s.setCmd w).excCode = s.excCode := rfl
@[simp] theorem State.setCmd_dFc : (s.setCmd w).dFc = s.dFc := rfl
@[simp] theorem State.setCmd_dAddr : (s.setCmd w).dAddr = s.dAddr := rfl
@[simp] theorem State.setCmd_dCount : (s.setCmd w).dCount = s.dCount := rfl
@[simp] theorem State.setCmd_dValue : (s.setCmd w).dValue = s.dValue := rfl
@[simp] theorem State.setCmd_dBc : (s.setCmd w).dBc = s.dBc := rfl
@[simp] theorem State.setCmd_dLen : (s.setCmd w).dLen = s.dLen := rfl
@[simp] theorem State.setCmd_program : (s.setCmd w).program = s.program := rfl
@[simp] theorem State.setCmd_pc : (s.setCmd w).pc = s.pc := rfl
@[simp] theorem State.setCmd_reply : (s.setCmd w).reply = s.reply := rfl
@[simp] theorem State.setCmd_draws : (s.setCmd w).draws = s.draws := rfl
end

section
variable (s : State) (st : Byte)
@[simp] theorem State.setStatus_cmd : (s.setStatus st).cmd = s.cmd := rfl
@[simp] theorem State.setStatus_status : (s.setStatus st).status = st := rfl
@[simp] theorem State.setStatus_acc : (s.setStatus st).acc = s.acc := rfl
@[simp] theorem State.setStatus_fb : (s.setStatus st).fb = s.fb := rfl
@[simp] theorem State.setStatus_flen : (s.setStatus st).flen = s.flen := rfl
@[simp] theorem State.setStatus_pb : (s.setStatus st).pb = s.pb := rfl
@[simp] theorem State.setStatus_plen : (s.setStatus st).plen = s.plen := rfl
@[simp] theorem State.setStatus_rg : (s.setStatus st).rg = s.rg := rfl
@[simp] theorem State.setStatus_rcount : (s.setStatus st).rcount = s.rcount := rfl
@[simp] theorem State.setStatus_rspKind : (s.setStatus st).rspKind = s.rspKind := rfl
@[simp] theorem State.setStatus_excCode : (s.setStatus st).excCode = s.excCode := rfl
@[simp] theorem State.setStatus_dFc : (s.setStatus st).dFc = s.dFc := rfl
@[simp] theorem State.setStatus_dAddr : (s.setStatus st).dAddr = s.dAddr := rfl
@[simp] theorem State.setStatus_dCount : (s.setStatus st).dCount = s.dCount := rfl
@[simp] theorem State.setStatus_dValue : (s.setStatus st).dValue = s.dValue := rfl
@[simp] theorem State.setStatus_dBc : (s.setStatus st).dBc = s.dBc := rfl
@[simp] theorem State.setStatus_dLen : (s.setStatus st).dLen = s.dLen := rfl
@[simp] theorem State.setStatus_program : (s.setStatus st).program = s.program := rfl
@[simp] theorem State.setStatus_pc : (s.setStatus st).pc = s.pc := rfl
@[simp] theorem State.setStatus_reply : (s.setStatus st).reply = s.reply := rfl
@[simp] theorem State.setStatus_draws : (s.setStatus st).draws = s.draws := rfl
end

section
variable (s : State) (v : Half)
@[simp] theorem State.setAcc_cmd : (s.setAcc v).cmd = s.cmd := rfl
@[simp] theorem State.setAcc_status : (s.setAcc v).status = s.status := rfl
@[simp] theorem State.setAcc_acc : (s.setAcc v).acc = v := rfl
@[simp] theorem State.setAcc_fb : (s.setAcc v).fb = s.fb := rfl
@[simp] theorem State.setAcc_flen : (s.setAcc v).flen = s.flen := rfl
@[simp] theorem State.setAcc_pb : (s.setAcc v).pb = s.pb := rfl
@[simp] theorem State.setAcc_plen : (s.setAcc v).plen = s.plen := rfl
@[simp] theorem State.setAcc_rg : (s.setAcc v).rg = s.rg := rfl
@[simp] theorem State.setAcc_rcount : (s.setAcc v).rcount = s.rcount := rfl
@[simp] theorem State.setAcc_rspKind : (s.setAcc v).rspKind = s.rspKind := rfl
@[simp] theorem State.setAcc_excCode : (s.setAcc v).excCode = s.excCode := rfl
@[simp] theorem State.setAcc_dFc : (s.setAcc v).dFc = s.dFc := rfl
@[simp] theorem State.setAcc_dAddr : (s.setAcc v).dAddr = s.dAddr := rfl
@[simp] theorem State.setAcc_dCount : (s.setAcc v).dCount = s.dCount := rfl
@[simp] theorem State.setAcc_dValue : (s.setAcc v).dValue = s.dValue := rfl
@[simp] theorem State.setAcc_dBc : (s.setAcc v).dBc = s.dBc := rfl
@[simp] theorem State.setAcc_dLen : (s.setAcc v).dLen = s.dLen := rfl
@[simp] theorem State.setAcc_program : (s.setAcc v).program = s.program := rfl
@[simp] theorem State.setAcc_pc : (s.setAcc v).pc = s.pc := rfl
@[simp] theorem State.setAcc_reply : (s.setAcc v).reply = s.reply := rfl
@[simp] theorem State.setAcc_draws : (s.setAcc v).draws = s.draws := rfl
end

section
variable (s : State) (m : Memory Byte)
@[simp] theorem State.setFb_cmd : (s.setFb m).cmd = s.cmd := rfl
@[simp] theorem State.setFb_status : (s.setFb m).status = s.status := rfl
@[simp] theorem State.setFb_acc : (s.setFb m).acc = s.acc := rfl
@[simp] theorem State.setFb_fb : (s.setFb m).fb = m := rfl
@[simp] theorem State.setFb_flen : (s.setFb m).flen = s.flen := rfl
@[simp] theorem State.setFb_pb : (s.setFb m).pb = s.pb := rfl
@[simp] theorem State.setFb_plen : (s.setFb m).plen = s.plen := rfl
@[simp] theorem State.setFb_rg : (s.setFb m).rg = s.rg := rfl
@[simp] theorem State.setFb_rcount : (s.setFb m).rcount = s.rcount := rfl
@[simp] theorem State.setFb_rspKind : (s.setFb m).rspKind = s.rspKind := rfl
@[simp] theorem State.setFb_excCode : (s.setFb m).excCode = s.excCode := rfl
@[simp] theorem State.setFb_dFc : (s.setFb m).dFc = s.dFc := rfl
@[simp] theorem State.setFb_dAddr : (s.setFb m).dAddr = s.dAddr := rfl
@[simp] theorem State.setFb_dCount : (s.setFb m).dCount = s.dCount := rfl
@[simp] theorem State.setFb_dValue : (s.setFb m).dValue = s.dValue := rfl
@[simp] theorem State.setFb_dBc : (s.setFb m).dBc = s.dBc := rfl
@[simp] theorem State.setFb_dLen : (s.setFb m).dLen = s.dLen := rfl
@[simp] theorem State.setFb_program : (s.setFb m).program = s.program := rfl
@[simp] theorem State.setFb_pc : (s.setFb m).pc = s.pc := rfl
@[simp] theorem State.setFb_reply : (s.setFb m).reply = s.reply := rfl
@[simp] theorem State.setFb_draws : (s.setFb m).draws = s.draws := rfl
end

section
variable (s : State) (n : Half)
@[simp] theorem State.setFlen_cmd : (s.setFlen n).cmd = s.cmd := rfl
@[simp] theorem State.setFlen_status : (s.setFlen n).status = s.status := rfl
@[simp] theorem State.setFlen_acc : (s.setFlen n).acc = s.acc := rfl
@[simp] theorem State.setFlen_fb : (s.setFlen n).fb = s.fb := rfl
@[simp] theorem State.setFlen_flen : (s.setFlen n).flen = n := rfl
@[simp] theorem State.setFlen_pb : (s.setFlen n).pb = s.pb := rfl
@[simp] theorem State.setFlen_plen : (s.setFlen n).plen = s.plen := rfl
@[simp] theorem State.setFlen_rg : (s.setFlen n).rg = s.rg := rfl
@[simp] theorem State.setFlen_rcount : (s.setFlen n).rcount = s.rcount := rfl
@[simp] theorem State.setFlen_rspKind : (s.setFlen n).rspKind = s.rspKind := rfl
@[simp] theorem State.setFlen_excCode : (s.setFlen n).excCode = s.excCode := rfl
@[simp] theorem State.setFlen_dFc : (s.setFlen n).dFc = s.dFc := rfl
@[simp] theorem State.setFlen_dAddr : (s.setFlen n).dAddr = s.dAddr := rfl
@[simp] theorem State.setFlen_dCount : (s.setFlen n).dCount = s.dCount := rfl
@[simp] theorem State.setFlen_dValue : (s.setFlen n).dValue = s.dValue := rfl
@[simp] theorem State.setFlen_dBc : (s.setFlen n).dBc = s.dBc := rfl
@[simp] theorem State.setFlen_dLen : (s.setFlen n).dLen = s.dLen := rfl
@[simp] theorem State.setFlen_program : (s.setFlen n).program = s.program := rfl
@[simp] theorem State.setFlen_pc : (s.setFlen n).pc = s.pc := rfl
@[simp] theorem State.setFlen_reply : (s.setFlen n).reply = s.reply := rfl
@[simp] theorem State.setFlen_draws : (s.setFlen n).draws = s.draws := rfl
end

section
variable (s : State) (m : Memory Byte)
@[simp] theorem State.setPb_cmd : (s.setPb m).cmd = s.cmd := rfl
@[simp] theorem State.setPb_status : (s.setPb m).status = s.status := rfl
@[simp] theorem State.setPb_acc : (s.setPb m).acc = s.acc := rfl
@[simp] theorem State.setPb_fb : (s.setPb m).fb = s.fb := rfl
@[simp] theorem State.setPb_flen : (s.setPb m).flen = s.flen := rfl
@[simp] theorem State.setPb_pb : (s.setPb m).pb = m := rfl
@[simp] theorem State.setPb_plen : (s.setPb m).plen = s.plen := rfl
@[simp] theorem State.setPb_rg : (s.setPb m).rg = s.rg := rfl
@[simp] theorem State.setPb_rcount : (s.setPb m).rcount = s.rcount := rfl
@[simp] theorem State.setPb_rspKind : (s.setPb m).rspKind = s.rspKind := rfl
@[simp] theorem State.setPb_excCode : (s.setPb m).excCode = s.excCode := rfl
@[simp] theorem State.setPb_dFc : (s.setPb m).dFc = s.dFc := rfl
@[simp] theorem State.setPb_dAddr : (s.setPb m).dAddr = s.dAddr := rfl
@[simp] theorem State.setPb_dCount : (s.setPb m).dCount = s.dCount := rfl
@[simp] theorem State.setPb_dValue : (s.setPb m).dValue = s.dValue := rfl
@[simp] theorem State.setPb_dBc : (s.setPb m).dBc = s.dBc := rfl
@[simp] theorem State.setPb_dLen : (s.setPb m).dLen = s.dLen := rfl
@[simp] theorem State.setPb_program : (s.setPb m).program = s.program := rfl
@[simp] theorem State.setPb_pc : (s.setPb m).pc = s.pc := rfl
@[simp] theorem State.setPb_reply : (s.setPb m).reply = s.reply := rfl
@[simp] theorem State.setPb_draws : (s.setPb m).draws = s.draws := rfl
end

section
variable (s : State) (n : Half)
@[simp] theorem State.setPlen_cmd : (s.setPlen n).cmd = s.cmd := rfl
@[simp] theorem State.setPlen_status : (s.setPlen n).status = s.status := rfl
@[simp] theorem State.setPlen_acc : (s.setPlen n).acc = s.acc := rfl
@[simp] theorem State.setPlen_fb : (s.setPlen n).fb = s.fb := rfl
@[simp] theorem State.setPlen_flen : (s.setPlen n).flen = s.flen := rfl
@[simp] theorem State.setPlen_pb : (s.setPlen n).pb = s.pb := rfl
@[simp] theorem State.setPlen_plen : (s.setPlen n).plen = n := rfl
@[simp] theorem State.setPlen_rg : (s.setPlen n).rg = s.rg := rfl
@[simp] theorem State.setPlen_rcount : (s.setPlen n).rcount = s.rcount := rfl
@[simp] theorem State.setPlen_rspKind : (s.setPlen n).rspKind = s.rspKind := rfl
@[simp] theorem State.setPlen_excCode : (s.setPlen n).excCode = s.excCode := rfl
@[simp] theorem State.setPlen_dFc : (s.setPlen n).dFc = s.dFc := rfl
@[simp] theorem State.setPlen_dAddr : (s.setPlen n).dAddr = s.dAddr := rfl
@[simp] theorem State.setPlen_dCount : (s.setPlen n).dCount = s.dCount := rfl
@[simp] theorem State.setPlen_dValue : (s.setPlen n).dValue = s.dValue := rfl
@[simp] theorem State.setPlen_dBc : (s.setPlen n).dBc = s.dBc := rfl
@[simp] theorem State.setPlen_dLen : (s.setPlen n).dLen = s.dLen := rfl
@[simp] theorem State.setPlen_program : (s.setPlen n).program = s.program := rfl
@[simp] theorem State.setPlen_pc : (s.setPlen n).pc = s.pc := rfl
@[simp] theorem State.setPlen_reply : (s.setPlen n).reply = s.reply := rfl
@[simp] theorem State.setPlen_draws : (s.setPlen n).draws = s.draws := rfl
end

section
variable (s : State) (m : Memory Half)
@[simp] theorem State.setRg_cmd : (s.setRg m).cmd = s.cmd := rfl
@[simp] theorem State.setRg_status : (s.setRg m).status = s.status := rfl
@[simp] theorem State.setRg_acc : (s.setRg m).acc = s.acc := rfl
@[simp] theorem State.setRg_fb : (s.setRg m).fb = s.fb := rfl
@[simp] theorem State.setRg_flen : (s.setRg m).flen = s.flen := rfl
@[simp] theorem State.setRg_pb : (s.setRg m).pb = s.pb := rfl
@[simp] theorem State.setRg_plen : (s.setRg m).plen = s.plen := rfl
@[simp] theorem State.setRg_rg : (s.setRg m).rg = m := rfl
@[simp] theorem State.setRg_rcount : (s.setRg m).rcount = s.rcount := rfl
@[simp] theorem State.setRg_rspKind : (s.setRg m).rspKind = s.rspKind := rfl
@[simp] theorem State.setRg_excCode : (s.setRg m).excCode = s.excCode := rfl
@[simp] theorem State.setRg_dFc : (s.setRg m).dFc = s.dFc := rfl
@[simp] theorem State.setRg_dAddr : (s.setRg m).dAddr = s.dAddr := rfl
@[simp] theorem State.setRg_dCount : (s.setRg m).dCount = s.dCount := rfl
@[simp] theorem State.setRg_dValue : (s.setRg m).dValue = s.dValue := rfl
@[simp] theorem State.setRg_dBc : (s.setRg m).dBc = s.dBc := rfl
@[simp] theorem State.setRg_dLen : (s.setRg m).dLen = s.dLen := rfl
@[simp] theorem State.setRg_program : (s.setRg m).program = s.program := rfl
@[simp] theorem State.setRg_pc : (s.setRg m).pc = s.pc := rfl
@[simp] theorem State.setRg_reply : (s.setRg m).reply = s.reply := rfl
@[simp] theorem State.setRg_draws : (s.setRg m).draws = s.draws := rfl
end

section
variable (s : State) (n : Byte)
@[simp] theorem State.setRcount_cmd : (s.setRcount n).cmd = s.cmd := rfl
@[simp] theorem State.setRcount_status : (s.setRcount n).status = s.status := rfl
@[simp] theorem State.setRcount_acc : (s.setRcount n).acc = s.acc := rfl
@[simp] theorem State.setRcount_fb : (s.setRcount n).fb = s.fb := rfl
@[simp] theorem State.setRcount_flen : (s.setRcount n).flen = s.flen := rfl
@[simp] theorem State.setRcount_pb : (s.setRcount n).pb = s.pb := rfl
@[simp] theorem State.setRcount_plen : (s.setRcount n).plen = s.plen := rfl
@[simp] theorem State.setRcount_rg : (s.setRcount n).rg = s.rg := rfl
@[simp] theorem State.setRcount_rcount : (s.setRcount n).rcount = n := rfl
@[simp] theorem State.setRcount_rspKind : (s.setRcount n).rspKind = s.rspKind := rfl
@[simp] theorem State.setRcount_excCode : (s.setRcount n).excCode = s.excCode := rfl
@[simp] theorem State.setRcount_dFc : (s.setRcount n).dFc = s.dFc := rfl
@[simp] theorem State.setRcount_dAddr : (s.setRcount n).dAddr = s.dAddr := rfl
@[simp] theorem State.setRcount_dCount : (s.setRcount n).dCount = s.dCount := rfl
@[simp] theorem State.setRcount_dValue : (s.setRcount n).dValue = s.dValue := rfl
@[simp] theorem State.setRcount_dBc : (s.setRcount n).dBc = s.dBc := rfl
@[simp] theorem State.setRcount_dLen : (s.setRcount n).dLen = s.dLen := rfl
@[simp] theorem State.setRcount_program : (s.setRcount n).program = s.program := rfl
@[simp] theorem State.setRcount_pc : (s.setRcount n).pc = s.pc := rfl
@[simp] theorem State.setRcount_reply : (s.setRcount n).reply = s.reply := rfl
@[simp] theorem State.setRcount_draws : (s.setRcount n).draws = s.draws := rfl
end

section
variable (s : State) (kind : BitVec 1) (code : Byte) (fc : Byte)
@[simp] theorem State.setResponse_cmd : (s.setResponse kind code fc).cmd = s.cmd := rfl
@[simp] theorem State.setResponse_status : (s.setResponse kind code fc).status = s.status := rfl
@[simp] theorem State.setResponse_acc : (s.setResponse kind code fc).acc = s.acc := rfl
@[simp] theorem State.setResponse_fb : (s.setResponse kind code fc).fb = s.fb := rfl
@[simp] theorem State.setResponse_flen : (s.setResponse kind code fc).flen = s.flen := rfl
@[simp] theorem State.setResponse_pb : (s.setResponse kind code fc).pb = s.pb := rfl
@[simp] theorem State.setResponse_plen : (s.setResponse kind code fc).plen = s.plen := rfl
@[simp] theorem State.setResponse_rg : (s.setResponse kind code fc).rg = s.rg := rfl
@[simp] theorem State.setResponse_rcount : (s.setResponse kind code fc).rcount = s.rcount := rfl
@[simp] theorem State.setResponse_rspKind : (s.setResponse kind code fc).rspKind = kind := rfl
@[simp] theorem State.setResponse_excCode : (s.setResponse kind code fc).excCode = code := rfl
@[simp] theorem State.setResponse_dFc : (s.setResponse kind code fc).dFc = fc := rfl
@[simp] theorem State.setResponse_dAddr : (s.setResponse kind code fc).dAddr = s.dAddr := rfl
@[simp] theorem State.setResponse_dCount : (s.setResponse kind code fc).dCount = s.dCount := rfl
@[simp] theorem State.setResponse_dValue : (s.setResponse kind code fc).dValue = s.dValue := rfl
@[simp] theorem State.setResponse_dBc : (s.setResponse kind code fc).dBc = s.dBc := rfl
@[simp] theorem State.setResponse_dLen : (s.setResponse kind code fc).dLen = s.dLen := rfl
@[simp] theorem State.setResponse_program : (s.setResponse kind code fc).program = s.program := rfl
@[simp] theorem State.setResponse_pc : (s.setResponse kind code fc).pc = s.pc := rfl
@[simp] theorem State.setResponse_reply : (s.setResponse kind code fc).reply = s.reply := rfl
@[simp] theorem State.setResponse_draws : (s.setResponse kind code fc).draws = s.draws := rfl
end

section
variable (s : State) (fc : Byte) (addr : Half) (count : Half) (value : Half) (bc : Byte)
@[simp] theorem State.setRequest_cmd : (s.setRequest fc addr count value bc).cmd = s.cmd := rfl
@[simp] theorem State.setRequest_status : (s.setRequest fc addr count value bc).status = s.status := rfl
@[simp] theorem State.setRequest_acc : (s.setRequest fc addr count value bc).acc = s.acc := rfl
@[simp] theorem State.setRequest_fb : (s.setRequest fc addr count value bc).fb = s.fb := rfl
@[simp] theorem State.setRequest_flen : (s.setRequest fc addr count value bc).flen = s.flen := rfl
@[simp] theorem State.setRequest_pb : (s.setRequest fc addr count value bc).pb = s.pb := rfl
@[simp] theorem State.setRequest_plen : (s.setRequest fc addr count value bc).plen = s.plen := rfl
@[simp] theorem State.setRequest_rg : (s.setRequest fc addr count value bc).rg = s.rg := rfl
@[simp] theorem State.setRequest_rcount : (s.setRequest fc addr count value bc).rcount = s.rcount := rfl
@[simp] theorem State.setRequest_rspKind : (s.setRequest fc addr count value bc).rspKind = s.rspKind := rfl
@[simp] theorem State.setRequest_excCode : (s.setRequest fc addr count value bc).excCode = s.excCode := rfl
@[simp] theorem State.setRequest_dFc : (s.setRequest fc addr count value bc).dFc = fc := rfl
@[simp] theorem State.setRequest_dAddr : (s.setRequest fc addr count value bc).dAddr = addr := rfl
@[simp] theorem State.setRequest_dCount : (s.setRequest fc addr count value bc).dCount = count := rfl
@[simp] theorem State.setRequest_dValue : (s.setRequest fc addr count value bc).dValue = value := rfl
@[simp] theorem State.setRequest_dBc : (s.setRequest fc addr count value bc).dBc = bc := rfl
@[simp] theorem State.setRequest_dLen : (s.setRequest fc addr count value bc).dLen = s.dLen := rfl
@[simp] theorem State.setRequest_program : (s.setRequest fc addr count value bc).program = s.program := rfl
@[simp] theorem State.setRequest_pc : (s.setRequest fc addr count value bc).pc = s.pc := rfl
@[simp] theorem State.setRequest_reply : (s.setRequest fc addr count value bc).reply = s.reply := rfl
@[simp] theorem State.setRequest_draws : (s.setRequest fc addr count value bc).draws = s.draws := rfl
end

section
variable (s : State) (n : Half)
@[simp] theorem State.setDLen_cmd : (s.setDLen n).cmd = s.cmd := rfl
@[simp] theorem State.setDLen_status : (s.setDLen n).status = s.status := rfl
@[simp] theorem State.setDLen_acc : (s.setDLen n).acc = s.acc := rfl
@[simp] theorem State.setDLen_fb : (s.setDLen n).fb = s.fb := rfl
@[simp] theorem State.setDLen_flen : (s.setDLen n).flen = s.flen := rfl
@[simp] theorem State.setDLen_pb : (s.setDLen n).pb = s.pb := rfl
@[simp] theorem State.setDLen_plen : (s.setDLen n).plen = s.plen := rfl
@[simp] theorem State.setDLen_rg : (s.setDLen n).rg = s.rg := rfl
@[simp] theorem State.setDLen_rcount : (s.setDLen n).rcount = s.rcount := rfl
@[simp] theorem State.setDLen_rspKind : (s.setDLen n).rspKind = s.rspKind := rfl
@[simp] theorem State.setDLen_excCode : (s.setDLen n).excCode = s.excCode := rfl
@[simp] theorem State.setDLen_dFc : (s.setDLen n).dFc = s.dFc := rfl
@[simp] theorem State.setDLen_dAddr : (s.setDLen n).dAddr = s.dAddr := rfl
@[simp] theorem State.setDLen_dCount : (s.setDLen n).dCount = s.dCount := rfl
@[simp] theorem State.setDLen_dValue : (s.setDLen n).dValue = s.dValue := rfl
@[simp] theorem State.setDLen_dBc : (s.setDLen n).dBc = s.dBc := rfl
@[simp] theorem State.setDLen_dLen : (s.setDLen n).dLen = n := rfl
@[simp] theorem State.setDLen_program : (s.setDLen n).program = s.program := rfl
@[simp] theorem State.setDLen_pc : (s.setDLen n).pc = s.pc := rfl
@[simp] theorem State.setDLen_reply : (s.setDLen n).reply = s.reply := rfl
@[simp] theorem State.setDLen_draws : (s.setDLen n).draws = s.draws := rfl
end

section
variable (s : State) (k : Nat)
@[simp] theorem State.setPc_cmd : (s.setPc k).cmd = s.cmd := rfl
@[simp] theorem State.setPc_status : (s.setPc k).status = s.status := rfl
@[simp] theorem State.setPc_acc : (s.setPc k).acc = s.acc := rfl
@[simp] theorem State.setPc_fb : (s.setPc k).fb = s.fb := rfl
@[simp] theorem State.setPc_flen : (s.setPc k).flen = s.flen := rfl
@[simp] theorem State.setPc_pb : (s.setPc k).pb = s.pb := rfl
@[simp] theorem State.setPc_plen : (s.setPc k).plen = s.plen := rfl
@[simp] theorem State.setPc_rg : (s.setPc k).rg = s.rg := rfl
@[simp] theorem State.setPc_rcount : (s.setPc k).rcount = s.rcount := rfl
@[simp] theorem State.setPc_rspKind : (s.setPc k).rspKind = s.rspKind := rfl
@[simp] theorem State.setPc_excCode : (s.setPc k).excCode = s.excCode := rfl
@[simp] theorem State.setPc_dFc : (s.setPc k).dFc = s.dFc := rfl
@[simp] theorem State.setPc_dAddr : (s.setPc k).dAddr = s.dAddr := rfl
@[simp] theorem State.setPc_dCount : (s.setPc k).dCount = s.dCount := rfl
@[simp] theorem State.setPc_dValue : (s.setPc k).dValue = s.dValue := rfl
@[simp] theorem State.setPc_dBc : (s.setPc k).dBc = s.dBc := rfl
@[simp] theorem State.setPc_dLen : (s.setPc k).dLen = s.dLen := rfl
@[simp] theorem State.setPc_program : (s.setPc k).program = s.program := rfl
@[simp] theorem State.setPc_pc : (s.setPc k).pc = k := rfl
@[simp] theorem State.setPc_reply : (s.setPc k).reply = s.reply := rfl
@[simp] theorem State.setPc_draws : (s.setPc k).draws = s.draws := rfl
end

section
variable (s : State) (r : List HostData) (d : Nat)
@[simp] theorem State.setReply_cmd : (s.setReply r d).cmd = s.cmd := rfl
@[simp] theorem State.setReply_status : (s.setReply r d).status = s.status := rfl
@[simp] theorem State.setReply_acc : (s.setReply r d).acc = s.acc := rfl
@[simp] theorem State.setReply_fb : (s.setReply r d).fb = s.fb := rfl
@[simp] theorem State.setReply_flen : (s.setReply r d).flen = s.flen := rfl
@[simp] theorem State.setReply_pb : (s.setReply r d).pb = s.pb := rfl
@[simp] theorem State.setReply_plen : (s.setReply r d).plen = s.plen := rfl
@[simp] theorem State.setReply_rg : (s.setReply r d).rg = s.rg := rfl
@[simp] theorem State.setReply_rcount : (s.setReply r d).rcount = s.rcount := rfl
@[simp] theorem State.setReply_rspKind : (s.setReply r d).rspKind = s.rspKind := rfl
@[simp] theorem State.setReply_excCode : (s.setReply r d).excCode = s.excCode := rfl
@[simp] theorem State.setReply_dFc : (s.setReply r d).dFc = s.dFc := rfl
@[simp] theorem State.setReply_dAddr : (s.setReply r d).dAddr = s.dAddr := rfl
@[simp] theorem State.setReply_dCount : (s.setReply r d).dCount = s.dCount := rfl
@[simp] theorem State.setReply_dValue : (s.setReply r d).dValue = s.dValue := rfl
@[simp] theorem State.setReply_dBc : (s.setReply r d).dBc = s.dBc := rfl
@[simp] theorem State.setReply_dLen : (s.setReply r d).dLen = s.dLen := rfl
@[simp] theorem State.setReply_program : (s.setReply r d).program = s.program := rfl
@[simp] theorem State.setReply_pc : (s.setReply r d).pc = s.pc := rfl
@[simp] theorem State.setReply_reply : (s.setReply r d).reply = r := rfl
@[simp] theorem State.setReply_draws : (s.setReply r d).draws = d := rfl
end

end Sys2Proof.Machine
end

