-- ==== Sys2Proof/Laws/Ops.lean ====
section
/-! SUPPORT. What the shared operations can do: each reading operation answers next only through its continuation on the
values read, and faults only at an unwritten element. -/

namespace Sys2Proof.Machine

variable {s t : State}

@[simp] theorem fail_eq_next {st : Status} : fail st s = .next t ↔ t = s.setStatus st.code := by
  simp only [fail, Host.Outcome.next.injEq]
  exact eq_comm

@[simp] theorem ok_eq_next : ok s = .next t ↔ t = s.setStatus 0 := by
  simp only [ok, Status.code, Host.Outcome.next.injEq]
  exact eq_comm

@[simp] theorem fail_ne_fault {st : Status} {r : Fault} : fail st s ≠ .fault r := by simp [fail]
@[simp] theorem ok_ne_fault {r : Fault} : ok s ≠ .fault r := by simp [ok]
@[simp] theorem fail_ne_refused {st : Status} {r : Refusal} : fail st s ≠ .refused r := by simp [fail]
@[simp] theorem ok_ne_refused {r : Refusal} : ok s ≠ .refused r := by simp [ok]

theorem withFb_of_read {i : Nat} {b : Byte} (h : s.fb.read i = some b) (k : Byte → Result) : withFb s i k = k b := by
  simp only [withFb, h]

theorem withPb_of_read {i : Nat} {b : Byte} (h : s.pb.read i = some b) (k : Byte → Result) : withPb s i k = k b := by
  simp only [withPb, h]

theorem withFb_eq_next {i : Nat} {k : Byte → Result} :
    withFb s i k = .next t ↔ ∃ b, s.fb.read i = some b ∧ k b = .next t := by
  unfold withFb
  split <;> simp_all

theorem withPb_eq_next {i : Nat} {k : Byte → Result} :
    withPb s i k = .next t ↔ ∃ b, s.pb.read i = some b ∧ k b = .next t := by
  unfold withPb
  split <;> simp_all

theorem withFbHalf_eq_next {i : Nat} {k : Half → Result} :
    withFbHalf s i k = .next t ↔ ∃ h l, s.fb.read i = some h ∧ s.fb.read (i + 1) = some l ∧ k (be16 h l) = .next t := by
  simp only [withFbHalf, withFb_eq_next]
  constructor
  · rintro ⟨h, hh, l, hl, hk⟩; exact ⟨h, l, hh, hl, hk⟩
  · rintro ⟨h, l, hh, hl, hk⟩; exact ⟨h, hh, l, hl, hk⟩

theorem withFbHalf_of_read {i : Nat} {h l : Byte} (hh : s.fb.read i = some h) (hl : s.fb.read (i + 1) = some l)
    (k : Half → Result) : withFbHalf s i k = k (be16 h l) := by
  rw [withFbHalf, withFb_of_read hh, withFb_of_read hl]

/-- Reading a run of FB goes on with the bytes it holds, as many as asked for. -/
theorem withFbRange_eq_next {i n : Nat} {k : List Byte → Result} :
    withFbRange s i n k = .next t ↔ ∃ bs, bs.length = n ∧ s.fb.holds i bs ∧ k bs = .next t := by
  unfold withFbRange
  constructor
  · intro h
    split at h
    · cases h
    · rename_i bs hbs
      obtain ⟨hl, hk⟩ := Memory.readRange_ok hbs
      exact ⟨bs, hl, fun m hm => hk m (by omega), h⟩
  · rintro ⟨bs, rfl, hk, h⟩
    rw [Memory.readRange_of_read hk]
    exact h

theorem withPbRange_eq_next {i n : Nat} {k : List Byte → Result} :
    withPbRange s i n k = .next t ↔ ∃ bs, bs.length = n ∧ s.pb.holds i bs ∧ k bs = .next t := by
  unfold withPbRange
  constructor
  · intro h
    split at h
    · cases h
    · rename_i bs hbs
      obtain ⟨hl, hk⟩ := Memory.readRange_ok hbs
      exact ⟨bs, hl, fun m hm => hk m (by omega), h⟩
  · rintro ⟨bs, rfl, hk, h⟩
    rw [Memory.readRange_of_read hk]
    exact h

theorem withRg_eq_next {n : Nat} {k : List Half → Result} :
    withRg s n k = .next t ↔ ∃ vs, vs.length = n ∧ s.rg.holds 0 vs ∧ k vs = .next t := by
  unfold withRg
  constructor
  · intro h
    split at h
    · cases h
    · rename_i vs hvs
      obtain ⟨hl, hk⟩ := Memory.readRange_ok hvs
      exact ⟨vs, hl, fun m hm => by simpa using hk m (by omega), h⟩
  · rintro ⟨vs, rfl, hk, h⟩
    rw [Memory.readRange_of_read hk]
    exact h

theorem withFbRange_of_holds {i : Nat} {bs : List Byte} (h : s.fb.holds i bs) (k : List Byte → Result) :
    withFbRange s i bs.length k = k bs := by
  rw [withFbRange, Memory.readRange_of_read h]

theorem withPbRange_of_holds {i : Nat} {bs : List Byte} (h : s.pb.holds i bs) (k : List Byte → Result) :
    withPbRange s i bs.length k = k bs := by
  rw [withPbRange, Memory.readRange_of_read h]

theorem withRg_of_holds {vs : List Half} (h : s.rg.holds 0 vs) (k : List Half → Result) :
    withRg s vs.length k = k vs := by
  rw [withRg, Memory.readRange_of_read h]

/-- Reading a run that is not all written faults at its first unwritten element. -/
theorem withFbRange_of_unwritten {i n j : Nat} (h : s.fb.firstUnwritten i j) (hj : j < i + n) (k : List Byte → Result) :
    withFbRange s i n k = .fault (.unwrittenFb j) := by
  rw [withFbRange, Memory.readRange_of_unwritten h.1 hj h.2.1 fun m hm hmj => h.2.2 m hmj hm]

theorem withPbRange_of_unwritten {i n j : Nat} (h : s.pb.firstUnwritten i j) (hj : j < i + n) (k : List Byte → Result) :
    withPbRange s i n k = .fault (.unwrittenPb j) := by
  rw [withPbRange, Memory.readRange_of_unwritten h.1 hj h.2.1 fun m hm hmj => h.2.2 m hmj hm]

theorem withRg_of_unwritten {n j : Nat} (h : s.rg.firstUnwritten 0 j) (hj : j < n) (k : List Half → Result) :
    withRg s n k = .fault (.unwrittenRg j) := by
  rw [withRg, Memory.readRange_of_unwritten h.1 (by omega) h.2.1 fun m hm hmj => h.2.2 m hmj hm]

/-! Faults: a reading operation faults at the first unwritten element it reads, or where its continuation does. -/

theorem withFb_eq_fault {i : Nat} {k : Byte → Result} {r : Fault} :
    withFb s i k = .fault r ↔ (s.fb.read i = none ∧ r = .unwrittenFb i) ∨ ∃ b, s.fb.read i = some b ∧ k b = .fault r := by
  unfold withFb
  split
  · rename_i hn
    simp [hn, eq_comm]
  · rename_i b hb
    simp [hb]

theorem withPb_eq_fault {i : Nat} {k : Byte → Result} {r : Fault} :
    withPb s i k = .fault r ↔ (s.pb.read i = none ∧ r = .unwrittenPb i) ∨ ∃ b, s.pb.read i = some b ∧ k b = .fault r := by
  unfold withPb
  split
  · rename_i hn
    simp [hn, eq_comm]
  · rename_i b hb
    simp [hb]

theorem withFbRange_fault {i n : Nat} {k : List Byte → Result} {r : Fault} (h : withFbRange s i n k = .fault r) :
    (∃ j, i ≤ j ∧ j < i + n ∧ s.fb.read j = none ∧ r = .unwrittenFb j) ∨
      ∃ bs, bs.length = n ∧ s.fb.holds i bs ∧ k bs = .fault r := by
  unfold withFbRange at h
  split at h
  · rename_i j hj
    obtain ⟨h1, h2, h3, -⟩ := Memory.readRange_error hj
    exact .inl ⟨j, h1, h2, h3, (Host.Outcome.fault.inj h).symm⟩
  · rename_i bs hbs
    obtain ⟨hl, hk⟩ := Memory.readRange_ok hbs
    exact .inr ⟨bs, hl, fun m hm => hk m (by omega), h⟩

theorem withPbRange_fault {i n : Nat} {k : List Byte → Result} {r : Fault} (h : withPbRange s i n k = .fault r) :
    (∃ j, i ≤ j ∧ j < i + n ∧ s.pb.read j = none ∧ r = .unwrittenPb j) ∨
      ∃ bs, bs.length = n ∧ s.pb.holds i bs ∧ k bs = .fault r := by
  unfold withPbRange at h
  split at h
  · rename_i j hj
    obtain ⟨h1, h2, h3, -⟩ := Memory.readRange_error hj
    exact .inl ⟨j, h1, h2, h3, (Host.Outcome.fault.inj h).symm⟩
  · rename_i bs hbs
    obtain ⟨hl, hk⟩ := Memory.readRange_ok hbs
    exact .inr ⟨bs, hl, fun m hm => hk m (by omega), h⟩

theorem withRg_fault {n : Nat} {k : List Half → Result} {r : Fault} (h : withRg s n k = .fault r) :
    (∃ j, j < n ∧ s.rg.read j = none ∧ r = .unwrittenRg j) ∨
      ∃ vs, vs.length = n ∧ s.rg.holds 0 vs ∧ k vs = .fault r := by
  unfold withRg at h
  split at h
  · rename_i j hj
    obtain ⟨-, h2, h3, -⟩ := Memory.readRange_error hj
    exact .inl ⟨j, by omega, h3, (Host.Outcome.fault.inj h).symm⟩
  · rename_i vs hvs
    obtain ⟨hl, hk⟩ := Memory.readRange_ok hvs
    exact .inr ⟨vs, hl, fun m hm => by simpa using hk m (by omega), h⟩

/-- A reading operation refuses nothing that its continuation does not refuse. -/
theorem withFb_ne_refused {i : Nat} {k : Byte → Result} {r : Refusal} (hk : ∀ b, k b ≠ .refused r) :
    withFb s i k ≠ .refused r := by
  unfold withFb
  split
  · simp
  · exact hk _

theorem withPb_ne_refused {i : Nat} {k : Byte → Result} {r : Refusal} (hk : ∀ b, k b ≠ .refused r) :
    withPb s i k ≠ .refused r := by
  unfold withPb
  split
  · simp
  · exact hk _

theorem withFbRange_ne_refused {i n : Nat} {k : List Byte → Result} {r : Refusal} (hk : ∀ bs, k bs ≠ .refused r) :
    withFbRange s i n k ≠ .refused r := by
  unfold withFbRange
  split
  · simp
  · exact hk _

theorem withPbRange_ne_refused {i n : Nat} {k : List Byte → Result} {r : Refusal} (hk : ∀ bs, k bs ≠ .refused r) :
    withPbRange s i n k ≠ .refused r := by
  unfold withPbRange
  split
  · simp
  · exact hk _

theorem withRg_ne_refused {n : Nat} {k : List Half → Result} {r : Refusal} (hk : ∀ vs, k vs ≠ .refused r) :
    withRg s n k ≠ .refused r := by
  unfold withRg
  split
  · simp
  · exact hk _

/-- The part of a run that starts `n` elements in. -/
theorem Memory.holds_drop {α : Type} {m : Memory α} {i : Nat} {vs : List α} (h : m.holds i vs) (n : Nat) :
    m.holds (i + n) (vs.drop n) := by
  intro k hk
  rw [List.length_drop] at hk
  have := h (n + k) (by omega)
  rw [List.getElem?_drop, ← this]
  congr 1
  omega

/-- The first `n` elements of a run. -/
theorem Memory.holds_take {α : Type} {m : Memory α} {i : Nat} {vs : List α} (h : m.holds i vs) (n : Nat) :
    m.holds i (vs.take n) := by
  intro k hk
  rw [List.length_take] at hk
  rw [h k (by omega), List.getElem?_take, if_pos (by omega)]

/-- Two runs that a buffer holds at one place and of one length are the same. -/
theorem Memory.holds_unique {α : Type} {m : Memory α} {i : Nat} {vs ws : List α} (hv : m.holds i vs)
    (hw : m.holds i ws) (hl : vs.length = ws.length) : vs = ws := by
  apply List.ext_getElem? fun k => ?_
  by_cases hk : k < vs.length
  · rw [← hv k hk, hw k (by omega)]
  · rw [List.getElem?_eq_none (by omega), List.getElem?_eq_none (by omega)]

/-- A run is stored where it is written from index 0. -/
theorem stored_writeRange {α : Type} (m : Memory α) (vs : List α) : Stored m vs (m.writeRange 0 vs) := by
  constructor
  · intro k hk
    rw [Memory.read_writeRange, if_pos (by omega), Nat.sub_zero]
  · intro k hk
    exact Memory.read_writeRange_outside m (Or.inr (by omega))

theorem Stored.holds {α : Type} {m m' : Memory α} {vs : List α} (h : Stored m vs m') : m'.holds 0 vs := by
  intro k hk
  rw [Nat.zero_add]
  exact h.1 k hk

end Sys2Proof.Machine
end

