-- ==== Sys2Proof/Laws/Commands.lean ====
section
/-! SUPPORT. What each command can do: if it answers next, one of the listed cases holds. A failing case is
`s.setStatus` of a code other than 0, a completed one names all it writes. -/

namespace Sys2Proof.Machine

variable {s t : State}

theorem execCrcReset_cases (h : execCrcReset s = .next t) : t = (s.setAcc 0xFFFF).setStatus 0 := by
  simpa [execCrcReset] using h

theorem execCrcFeed_cases {b : Byte} (h : execCrcFeed b s = .next t) :
    t = (s.setAcc (crcUpdate s.acc b)).setStatus 0 := by
  simpa [execCrcFeed] using h

theorem execCrcBuf_cases {n : Half} (h : execCrcBuf n s = .next t) :
    (256 < n.toNat ∧ t = s.setStatus 2) ∨
    ∃ bytes, bytes.length = n.toNat ∧ n.toNat ≤ 256 ∧ s.fb.holds 0 bytes ∧ t = (s.setAcc (crc16 bytes)).setStatus 0 := by
  unfold execCrcBuf at h
  split at h
  · exact .inl ⟨‹_›, by simpa [Status.code] using h⟩
  · obtain ⟨bytes, hl, hb, hk⟩ := withFbRange_eq_next.1 h
    exact .inr ⟨bytes, hl, by omega, hb, by simpa using hk⟩

theorem execAddrCheck_cases {a : Byte} (h : execAddrCheck a s = .next t) :
    (validAddr a = true ∧ t = s.setStatus 0) ∨ (validAddr a = false ∧ t = s.setStatus 1) := by
  unfold execAddrCheck at h
  split at h
  · exact .inl ⟨‹_›, by simpa using h⟩
  · rename_i hv
    exact .inr ⟨by simpa using hv, by simpa [Status.code] using h⟩

theorem execFrameBuild_cases {a f : Byte} (h : execFrameBuild a f s = .next t) :
    (validAddr a = false ∧ t = s.setStatus 1) ∨
    (validAddr a = true ∧ 252 < s.plen.toNat ∧ t = s.setStatus 2) ∨
    ∃ payload, validAddr a = true ∧ payload.length = s.plen.toNat ∧ s.plen.toNat ≤ 252 ∧ s.pb.holds 0 payload ∧
      t = (s.putFrame (sealFrame (a :: f :: payload))).setStatus 0 := by
  unfold execFrameBuild at h
  split at h
  · exact .inl ⟨‹_›, by simpa [Status.code] using h⟩
  · rename_i hv
    split at h
    · exact .inr (.inl ⟨by simpa using hv, by omega, by simpa [Status.code] using h⟩)
    · obtain ⟨p, hl, hb, hk⟩ := withPbRange_eq_next.1 h
      exact .inr (.inr ⟨p, by simpa using hv, hl, by omega, hb, by simpa using hk⟩)

/-- FRAME_PARSE: a failure, an exception response, or a normal response. -/
theorem execFrameParse_cases {a f : Byte} {cap : Half} (h : execFrameParse a f cap s = .next t) :
    (t = s.setStatus 2 ∨ t = s.setStatus 3 ∨ t = s.setStatus 4 ∨ t = s.setStatus 5) ∨
    (∃ code, 5 ≤ s.flen.toNat ∧ s.flen.toNat ≤ 256 ∧ s.fb.read 1 = some (f ||| 0x80) ∧ s.fb.read 2 = some code ∧
      t = (s.setResponse 1 code (f ||| 0x80)).setStatus 0) ∨
    (∃ payload, payload.length = s.flen.toNat - 4 ∧ 4 ≤ s.flen.toNat ∧ s.flen.toNat ≤ 256 ∧ s.fb.read 1 = some f ∧
      s.fb.holds 2 payload ∧ t = ((s.putPayload payload).setResponse 0 0 f).setStatus 0) := by
  unfold execFrameParse at h
  split at h
  · exact .inl (.inl (by simpa [Status.code] using h))
  split at h
  · exact .inl (.inr (.inl (by simpa [Status.code] using h)))
  obtain ⟨b0, -, h1⟩ := withFb_eq_next.1 h
  split at h1
  · exact .inl (.inr (.inl (by simpa [Status.code] using h1)))
  obtain ⟨frame, -, -, h2⟩ := withFbRange_eq_next.1 h1
  split at h2
  · exact .inl (.inr (.inr (.inl (by simpa [Status.code] using h2))))
  obtain ⟨r, hr, h3⟩ := withFb_eq_next.1 h2
  split at h3
  · rename_i hrf
    subst hrf
    unfold parseException at h3
    split at h3
    · exact .inl (.inr (.inl (by simpa [Status.code] using h3)))
    · obtain ⟨code, hc, h4⟩ := withFb_eq_next.1 h3
      exact .inr (.inl ⟨code, by omega, by omega, hr, hc, by simpa using h4⟩)
  split at h3
  · exact .inl (.inr (.inr (.inr (by simpa [Status.code] using h3))))
  · rename_i hf
    have hf : r = f := by simpa using hf
    subst hf
    unfold parseNormal at h3
    split at h3
    · exact .inl (.inl (by simpa [Status.code] using h3))
    · obtain ⟨p, hl, hb, h4⟩ := withFbRange_eq_next.1 h3
      exact .inr (.inr ⟨p, hl, by omega, by omega, hr, hb, by simpa using h4⟩)

/-- SLAVE_PARSE's decode of an accepted frame: one case per function code. -/
theorem slaveDecode_cases {f : Byte} {cnt : Half} (h : slaveDecode f cnt s = .next t) :
    (∃ ah al vh vl, f = 0x03 ∧ s.fb.read 2 = some ah ∧ s.fb.read 3 = some al ∧ s.fb.read 4 = some vh ∧
      s.fb.read 5 = some vl ∧ t = (s.setRequest 0x03 (be16 ah al) (be16 vh vl) 0 0).setStatus 0) ∨
    (∃ ah al vh vl, f = 0x06 ∧ s.fb.read 2 = some ah ∧ s.fb.read 3 = some al ∧ s.fb.read 4 = some vh ∧
      s.fb.read 5 = some vl ∧ t = (s.setRequest 0x06 (be16 ah al) 1 (be16 vh vl) 0).setStatus 0) ∨
    (∃ ah al bc data, f ≠ 0x03 ∧ f ≠ 0x06 ∧ s.fb.read 2 = some ah ∧ s.fb.read 3 = some al ∧ s.fb.read 6 = some bc ∧
      data.length = 2 * cnt.toNat ∧ s.fb.holds 7 data ∧
      t = ((s.setRequest f (be16 ah al) cnt 0 bc).putRegisters (be16List data)).setStatus 0) := by
  unfold slaveDecode at h
  obtain ⟨ah, al, hah, hal, h⟩ := withFbHalf_eq_next.1 h
  split at h
  · obtain ⟨vh, vl, hvh, hvl, h⟩ := withFbHalf_eq_next.1 h
    subst_vars
    exact .inl ⟨ah, al, vh, vl, rfl, hah, hal, hvh, hvl, by simpa using h⟩
  split at h
  · obtain ⟨vh, vl, hvh, hvl, h⟩ := withFbHalf_eq_next.1 h
    subst_vars
    exact .inr (.inl ⟨ah, al, vh, vl, rfl, hah, hal, hvh, hvl, by simpa using h⟩)
  · obtain ⟨bc, hbc, h⟩ := withFb_eq_next.1 h
    obtain ⟨data, hl, hd, h⟩ := withFbRange_eq_next.1 h
    exact .inr (.inr ⟨ah, al, bc, data, ‹_›, ‹_›, hah, hal, hbc, hl, hd, by simpa using h⟩)

/-- SLAVE_PARSE's check of the whole frame: its length or checksum fails, or it is decoded. -/
theorem slaveVerify_cases {f : Byte} {cnt : Half} {e : Nat} (h : slaveVerify f cnt e s = .next t) :
    (t = s.setStatus 3 ∨ t = s.setStatus 4) ∨ (s.flen.toNat = e ∧ slaveDecode f cnt s = .next t) := by
  unfold slaveVerify at h
  split at h
  · exact .inl (.inl (by simpa [Status.code] using h))
  obtain ⟨frame, -, -, h⟩ := withFbRange_eq_next.1 h
  split at h
  · exact .inl (.inr (by simpa [Status.code] using h))
  · exact .inr ⟨by simpa using ‹¬ s.flen.toNat ≠ e›, h⟩

/-- SLAVE_PARSE: a failure, or the decode of a frame whose count, for 0x10, is the one its bytes 4 and 5 give. -/
theorem execSlaveParse_cases {own : Byte} (h : execSlaveParse own s = .next t) :
    (t = s.setStatus 1 ∨ t = s.setStatus 2 ∨ t = s.setStatus 3 ∨ t = s.setStatus 4 ∨ t = s.setStatus 5) ∨
    ∃ f cnt, s.fb.read 1 = some f ∧ slaveDecode f cnt s = .next t ∧
      ((f = 0x03 ∨ f = 0x06) ∧ cnt = 0 ∧ s.flen.toNat = 8 ∨
        f = 0x10 ∧ cnt.toNat ≤ 123 ∧ s.flen.toNat = 9 + 2 * cnt.toNat ∧
          ∃ h l, s.fb.read 4 = some h ∧ s.fb.read 5 = some l ∧ cnt = be16 h l) := by
  unfold execSlaveParse at h
  split at h
  · exact .inl (.inr (.inl (by simpa [Status.code] using h)))
  split at h
  · exact .inl (.inl (by simpa [Status.code] using h))
  split at h
  · exact .inl (.inr (.inr (.inl (by simpa [Status.code] using h))))
  obtain ⟨b0, -, h⟩ := withFb_eq_next.1 h
  split at h
  · exact .inl (.inl (by simpa [Status.code] using h))
  obtain ⟨f, hf, h⟩ := withFb_eq_next.1 h
  split at h
  · exact .inl (.inr (.inr (.inr (.inr (by simpa [Status.code] using h)))))
  rename_i hrec
  unfold slaveLength at h
  split at h
  · rename_i hf36
    rcases slaveVerify_cases h with (h | h) | ⟨he, h⟩
    · exact .inl (.inr (.inr (.inl h)))
    · exact .inl (.inr (.inr (.inr (.inl h))))
    · exact .inr ⟨f, 0, hf, h, .inl ⟨hf36, rfl, he⟩⟩
  rename_i hf36
  split at h
  · exact .inl (.inr (.inr (.inl (by simpa [Status.code] using h))))
  obtain ⟨hb, lb, hhb, hlb, h⟩ := withFbHalf_eq_next.1 h
  split at h
  · exact .inl (.inr (.inl (by simpa [Status.code] using h)))
  rcases slaveVerify_cases h with (h | h) | ⟨he, h⟩
  · exact .inl (.inr (.inr (.inl h)))
  · exact .inl (.inr (.inr (.inr (.inl h))))
  · refine .inr ⟨f, _, hf, h, .inr ⟨?_, by omega, he, hb, lb, hhb, hlb, rfl⟩⟩
    simp only [recognised, Bool.or_eq_false_iff, decide_eq_false_iff_not, not_and, not_not] at hrec
    exact hrec ⟨fun e => hf36 (.inl e), fun e => hf36 (.inr e)⟩

theorem execReqRemlen_cases {f : Byte} {c : Half} (h : execReqRemlen f c s = .next t) :
    (f = 0x10 ∧ 123 < c.toNat ∧ t = s.setStatus 2 ∨ (f ≠ 0x03 ∧ f ≠ 0x06 ∧ f ≠ 0x10) ∧ t = s.setStatus 5) ∨
    ((f = 0x03 ∨ f = 0x06) ∧ t = (s.setDLen 6).setStatus 0) ∨
    (f = 0x10 ∧ c.toNat ≤ 123 ∧ t = (s.setDLen (BitVec.ofNat 16 (7 + 2 * c.toNat))).setStatus 0) := by
  unfold execReqRemlen at h
  split at h
  · exact .inr (.inl ⟨‹_›, by simpa using h⟩)
  split at h
  · split at h
    · exact .inl (.inl ⟨‹_›, ‹_›, by simpa [Status.code] using h⟩)
    · exact .inr (.inr ⟨‹_›, by omega, by simpa using h⟩)
  · rename_i h36 h10
    exact .inl (.inr ⟨⟨fun e => h36 (.inl e), fun e => h36 (.inr e), h10⟩, by simpa [Status.code] using h⟩)

theorem marshalPair_cases {x y : Half} (h : marshalPair x y s = .next t) :
    t = (s.putPayload [hi x, lo x, hi y, lo y]).setStatus 0 := by
  simpa [marshalPair, bytesBe16] using h

theorem marshalRegisters_cases {head : List Byte} {c : Half} (h : marshalRegisters head c s = .next t) :
    ∃ vs, vs.length = c.toNat ∧ s.rg.holds 0 vs ∧
      t = (s.putPayload (head ++ BitVec.ofNat 8 (2 * c.toNat) :: bytesBe16List vs)).setStatus 0 := by
  obtain ⟨vs, hl, hb, hk⟩ := withRg_eq_next.1 h
  exact ⟨vs, hl, hb, by simpa using hk⟩

theorem countOutside_eq_false {max : Nat} {c : Half} : countOutside max c = false ↔ 1 ≤ c.toNat ∧ c.toNat ≤ max := by
  simp only [countOutside, Bool.or_eq_false_iff, decide_eq_false_iff_not]
  omega

theorem countOutside_eq_true {max : Nat} {c : Half} : countOutside max c = true ↔ c.toNat = 0 ∨ max < c.toNat := by
  simp only [countOutside, Bool.or_eq_true, decide_eq_true_eq]
  omega

theorem execMrsRdReq_cases {a c : Half} (h : execMrsRdReq a c s = .next t) :
    t = s.setStatus 2 ∨
    (1 ≤ c.toNat ∧ c.toNat ≤ 125 ∧ t = (s.putPayload [hi a, lo a, hi c, lo c]).setStatus 0) := by
  unfold execMrsRdReq at h
  split at h
  · exact .inl (by simpa [Status.code] using h)
  · rename_i hc
    have hc := countOutside_eq_false.1 (by simpa using hc)
    exact .inr ⟨hc.1, hc.2, marshalPair_cases h⟩

theorem execMrsWmReq_cases {a c : Half} (h : execMrsWmReq a c s = .next t) :
    t = s.setStatus 2 ∨ ∃ vs, vs.length = c.toNat ∧ 1 ≤ c.toNat ∧ c.toNat ≤ 123 ∧ s.rg.holds 0 vs ∧
      t = (s.putPayload (hi a :: lo a :: hi c :: lo c :: BitVec.ofNat 8 (2 * c.toNat) :: bytesBe16List vs)).setStatus 0 := by
  unfold execMrsWmReq at h
  split at h
  · exact .inl (by simpa [Status.code] using h)
  · rename_i hc
    have hc := countOutside_eq_false.1 (by simpa using hc)
    obtain ⟨vs, hl, hb, hk⟩ := marshalRegisters_cases h
    exact .inr ⟨vs, hl, hc.1, hc.2, hb, hk⟩

theorem execMrsRdRsp_cases {c : Half} (h : execMrsRdRsp c s = .next t) :
    t = s.setStatus 2 ∨ ∃ vs, vs.length = c.toNat ∧ 1 ≤ c.toNat ∧ c.toNat ≤ 125 ∧ s.rg.holds 0 vs ∧
      t = (s.putPayload (BitVec.ofNat 8 (2 * c.toNat) :: bytesBe16List vs)).setStatus 0 := by
  unfold execMrsRdRsp at h
  split at h
  · exact .inl (by simpa [Status.code] using h)
  · rename_i hc
    have hc := countOutside_eq_false.1 (by simpa using hc)
    obtain ⟨vs, hl, hb, hk⟩ := marshalRegisters_cases h
    exact .inr ⟨vs, hl, hc.1, hc.2, hb, hk⟩

theorem execMrsExc_cases {c : Byte} (h : execMrsExc c s = .next t) :
    t = s.setStatus 2 ∨ (1 ≤ c.toNat ∧ c.toNat ≤ 8 ∧ t = (s.putPayload [c]).setStatus 0) := by
  unfold execMrsExc at h
  split at h
  · exact .inl (by simpa [Status.code] using h)
  · exact .inr ⟨by omega, by omega, by simpa using h⟩

theorem execUnmRdRsp_cases {c : Half} (h : execUnmRdRsp c s = .next t) :
    (t = s.setStatus 2 ∨ t = s.setStatus 3) ∨
    ∃ data, data.length = 2 * c.toNat ∧ 1 ≤ c.toNat ∧ c.toNat ≤ 125 ∧ s.plen.toNat = 1 + 2 * c.toNat ∧
      s.pb.holds 1 data ∧ t = (s.putRegisters (be16List data)).setStatus 0 := by
  unfold execUnmRdRsp at h
  split at h
  · exact .inl (.inl (by simpa [Status.code] using h))
  rename_i hc
  have hc := countOutside_eq_false.1 (by simpa using hc)
  split at h
  · exact .inl (.inl (by simpa [Status.code] using h))
  split at h
  · exact .inl (.inr (by simpa [Status.code] using h))
  obtain ⟨b, -, h⟩ := withPb_eq_next.1 h
  split at h
  · exact .inl (.inr (by simpa [Status.code] using h))
  split at h
  · exact .inl (.inr (by simpa [Status.code] using h))
  obtain ⟨data, hl, hd, h⟩ := withPbRange_eq_next.1 h
  exact .inr ⟨data, hl, hc.1, hc.2, by omega, hd, by simpa using h⟩

theorem checkEcho_cases {x y : Half} (h : checkEcho x y s = .next t) :
    t = s.setStatus 2 ∨ t = s.setStatus 3 ∨
    (s.plen = 4 ∧ s.pb.holds 0 [hi x, lo x, hi y, lo y] ∧ t = s.setStatus 0) := by
  unfold checkEcho at h
  split at h
  · exact .inl (by simpa [Status.code] using h)
  split at h
  · exact .inr (.inl (by simpa [Status.code] using h))
  obtain ⟨p, hl, hp, h⟩ := withPbRange_eq_next.1 h
  split at h
  · exact .inr (.inl (by simpa [Status.code] using h))
  · rename_i h4 hne
    have hp' : p = [hi x, lo x, hi y, lo y] := by simpa [bytesBe16] using hne
    subst hp'
    exact .inr (.inr ⟨by bv_omega, hp, by simpa using h⟩)

theorem loadFrame_cases {bytes : List Byte} (h : loadFrame bytes s = .next t) :
    bytes.length ≤ 256 ∧ t = s.putFrame bytes := by
  unfold loadFrame at h
  split at h
  · cases h
  · exact ⟨by omega, (Host.Outcome.next.inj h).symm⟩

theorem loadFrame_of_length {bytes : List Byte} (h : bytes.length ≤ 256) : loadFrame bytes s = .next (s.putFrame bytes) := by
  rw [loadFrame, if_neg (by omega)]

/-- A wire form's only effect is that its frame's bytes are loaded. -/
theorem exec_wire_cases {i : Instr} (hw : i.isCommand = false) (h : exec i s = .next t) :
    ∃ bytes, bytes.length ≤ 256 ∧ t = s.putFrame bytes := by
  cases i <;> simp only [Instr.isCommand, reduceCtorEq] at hw <;> simp only [exec] at h
  case wireReq03 => exact ⟨_, loadFrame_cases (by rwa [execWireReq03] at h)⟩
  case wireRsp03 => exact ⟨_, loadFrame_cases (by rwa [execWireRsp03] at h)⟩
  case wireReq06 => exact ⟨_, loadFrame_cases (by rwa [execWireReq06] at h)⟩
  case wireRsp06 => exact ⟨_, loadFrame_cases (by rwa [execWireRsp06] at h)⟩
  case wireReq10 => exact ⟨_, loadFrame_cases (by rwa [execWireReq10] at h)⟩
  case wireRsp10 => exact ⟨_, loadFrame_cases (by rwa [execWireRsp10] at h)⟩
  case wireExc => exact ⟨_, loadFrame_cases (by rwa [execWireExc] at h)⟩

@[simp] theorem frameOf_length (a f : Byte) (p : List Byte) (c : Half) : (frameOf a f p c).length = p.length + 4 := by
  simp [frameOf]

@[simp] theorem readResponsePayload_length (regs : List Half) :
    (readResponsePayload regs).length = 1 + 2 * regs.length := by
  simp [readResponsePayload]; omega

@[simp] theorem writeRequestPayload_length (a : Half) (regs : List Half) :
    (writeRequestPayload a regs).length = 5 + 2 * regs.length := by
  simp [writeRequestPayload]; omega

@[simp] theorem sealFrame_length (body : List Byte) : (sealFrame body).length = body.length + 2 := by
  simp [sealFrame]

/-- What the fields of `putFrame`, `putPayload` and `putRegisters` are. -/
@[simp] theorem State.putFrame_fb (bytes : List Byte) : (s.putFrame bytes).fb = s.fb.writeRange 0 bytes := rfl
@[simp] theorem State.putFrame_flen (bytes : List Byte) : (s.putFrame bytes).flen = BitVec.ofNat 16 bytes.length := rfl
@[simp] theorem State.putPayload_pb (bytes : List Byte) : (s.putPayload bytes).pb = s.pb.writeRange 0 bytes := rfl
@[simp] theorem State.putPayload_plen (bytes : List Byte) : (s.putPayload bytes).plen = BitVec.ofNat 16 bytes.length := rfl
@[simp] theorem State.putRegisters_rg (vs : List Half) : (s.putRegisters vs).rg = s.rg.writeRange 0 vs := rfl
@[simp] theorem State.putRegisters_rcount (vs : List Half) :
    (s.putRegisters vs).rcount = BitVec.ofNat 8 vs.length := rfl

end Sys2Proof.Machine
end

