-- ==== Sys2Proof/Laws/Bus.lean ====
section
/-! SUPPORT. The host bus: the register map read both ways, and what one access and one step can do. -/

namespace Sys2Proof.Machine

variable {s t : State}

/-- Every location starts at its offset. -/
@[simp] theorem locAt_offset (l : Loc) : locAt l.offset = some l := by
  cases l
  case fb i =>
    have ho : (Loc.fb i).offset = i.val := rfl
    generalize (Loc.fb i).offset = off at ho
    subst ho
    rw [locAt, dif_pos i.isLt]
  case pb i =>
    have ho : (Loc.pb i).offset = 0x100 + i.val := rfl
    generalize (Loc.pb i).offset = off at ho
    have hi : off - 0x100 = i.val := by omega
    rw [locAt, dif_neg (by omega), dif_pos (by omega)]
    simp only [hi]
  case rg i =>
    have ho : (Loc.rg i).offset = 0x200 + 2 * i.val := rfl
    generalize (Loc.rg i).offset = off at ho
    have hi : (off - 0x200) / 2 = i.val := by omega
    rw [locAt, dif_neg (by omega), dif_neg (by omega), if_pos (by omega), if_pos (by omega), hi, rgLoc,
      dif_pos i.isLt]
  case t i =>
    have ho : (Loc.t i).offset = 0x400 + 2 * i.val := rfl
    generalize (Loc.t i).offset = off at ho
    have hi : (off - 0x400) / 2 = i.val := by omega
    rw [locAt, dif_neg (by omega), dif_neg (by omega), if_neg (by omega), if_neg (by omega), if_pos (by omega), hi,
      tableLoc, dif_pos i.isLt]
  all_goals rfl

/-- A register found in the map is at its own offset. -/
theorem registerMap_offset : ∀ p ∈ registerMap, p.2.offset = p.1 := by decide

/-- The location found at an offset starts there. -/
theorem offset_of_locAt {off : Nat} {l : Loc} (h : locAt off = some l) : l.offset = off := by
  rw [locAt] at h
  split at h
  · cases h; rfl
  split at h
  · cases h; simp only [Loc.offset]; omega
  split at h
  · split at h
    · unfold rgLoc at h
      split at h
      · cases h; simp only [Loc.offset]; omega
      · cases h
    · cases h
  split at h
  · obtain ⟨p, hp, rfl⟩ := Option.map_eq_some_iff.1 h
    rw [registerMap_offset p (List.mem_of_find?_eq_some hp)]
    simpa using List.find?_some hp
  split at h
  · unfold tableLoc at h
    split at h
    · cases h; simp only [Loc.offset]; omega
    · cases h
  · cases h

/-- A read that completes returns what its location holds, and only the host's side changes. -/
theorem hostAccess_read_cases {off : Nat} {w : AccessWidth} (h : hostAccess (.read off w) s = .next t) :
    ∃ l, locAt off = some l ∧ l.width = w ∧ t = hostRead l s := by
  unfold hostAccess at h
  cases hl : locAt off with
  | none => simp [hl] at h
  | some l =>
    simp only [hl] at h
    split at h
    · cases h
    · exact ⟨l, rfl, by simpa using ‹¬ l.width ≠ w›, by simpa using h.symm⟩

/-- A read of a location at its width completes. -/
theorem hostAccess_read_loc (l : Loc) : hostAccess (.read l.offset l.width) s = .next (hostRead l s) := by
  simp [hostAccess]

/-- What writing one location can do. -/
theorem writeLoc_cases {l : Loc} {d : HostData} (h : writeLoc l d s = .next t) :
    (∃ i v, l = .fb i ∧ d = .b8 v ∧ t = s.setFb (s.fb.write i.val v)) ∨
    (∃ i v, l = .pb i ∧ d = .b8 v ∧ t = s.setPb (s.pb.write i.val v)) ∨
    (∃ i v, l = .rg i ∧ d = .b16 v ∧ t = s.setRg (s.rg.write i.val v)) ∨
    (∃ v, l = .rcount ∧ d = .b8 v ∧ t = s.setRcount v) ∨
    (∃ v, l = .flen ∧ d = .b16 v ∧ t = s.setFlen v) ∨
    (∃ v, l = .plen ∧ d = .b16 v ∧ t = s.setPlen v) ∨
    (∃ w, l = .cmd ∧ d = .b64 w ∧ hostCommand w s = .next t) := by
  cases d with
  | b8 v =>
    cases l with
    | fb i => exact .inl ⟨i, v, rfl, rfl, (Host.Outcome.next.inj h).symm⟩
    | pb i => exact .inr (.inl ⟨i, v, rfl, rfl, (Host.Outcome.next.inj h).symm⟩)
    | rcount => exact .inr (.inr (.inr (.inl ⟨v, rfl, rfl, (Host.Outcome.next.inj h).symm⟩)))
    | _ => cases h
  | b16 v =>
    cases l with
    | rg i => exact .inr (.inr (.inl ⟨i, v, rfl, rfl, (Host.Outcome.next.inj h).symm⟩))
    | flen => exact .inr (.inr (.inr (.inr (.inl ⟨v, rfl, rfl, (Host.Outcome.next.inj h).symm⟩))))
    | plen => exact .inr (.inr (.inr (.inr (.inr (.inl ⟨v, rfl, rfl, (Host.Outcome.next.inj h).symm⟩)))))
    | _ => cases h
  | b32 v => cases h
  | b64 w =>
    cases l with
    | cmd => exact .inr (.inr (.inr (.inr (.inr (.inr ⟨w, rfl, rfl, h⟩)))))
    | _ => cases h

/-- What a write that completes can do. -/
theorem hostAccess_write_cases {off : Nat} {d : HostData} (h : hostAccess (.write off d) s = .next t) :
    ∃ l, locAt off = some l ∧ l.width = d.width ∧ l.writable = true ∧ writeLoc l d s = .next t := by
  unfold hostAccess at h
  cases hl : locAt off with
  | none => simp [hl] at h
  | some l =>
    simp only [hl] at h
    split at h
    · cases h
    split at h
    · cases h
    · exact ⟨l, rfl, by simpa using ‹¬ l.width ≠ d.width›, by simpa using ‹¬ l.writable = false›, h⟩

/-- A write of a writable location at its width is the write of that location. -/
theorem hostAccess_write_loc {l : Loc} {d : HostData} (hw : l.width = d.width) (h : l.writable = true) :
    hostAccess (.write l.offset d) s = writeLoc l d s := by
  simp [hostAccess, hw, h]

/-- A draw before a run of reads counts as its first unwritten element. -/
theorem drawsOf_add_unwritten {α : Type} (m : Memory α) (i n : Nat) :
    drawsOf m i + ((List.range' (i + 1) n).filter fun j => (m.read j).isNone).length =
      ((List.range' i (n + 1)).filter fun j => (m.read j).isNone).length := by
  rw [List.range'_succ, List.filter_cons, drawsOf]
  cases m.read i <;> simp [Nat.add_comm]

/-- What a run of host reads of FB returns: as many values as bytes, each its byte or the draw numbered by the draws made and
the unwritten bytes before it, and one draw made for each unwritten byte. -/
theorem readFbRun_spec (s : State) : ∀ (n i draws : Nat),
    (readFbRun s i n draws).1.length = n ∧
    (readFbRun s i n draws).2 = draws + ((List.range' i n).filter fun j => (s.fb.read j).isNone).length ∧
    ∀ k, k < n → (readFbRun s i n draws).1[k]? = some (.b8 (readByteOrDraw s.fb (i + k)
      (draws + ((List.range' i k).filter fun j => (s.fb.read j).isNone).length)))
  | 0, _, _ => ⟨rfl, rfl, fun _ h => absurd h (Nat.not_lt_zero _)⟩
  | n + 1, i, draws => by
    obtain ⟨hl, hd, hk⟩ := readFbRun_spec s n (i + 1) (draws + drawsOf s.fb i)
    refine ⟨congrArg (· + 1) hl, hd.trans ?_, fun k h => ?_⟩
    · rw [Nat.add_assoc, drawsOf_add_unwritten]
    · cases k with
      | zero => rfl
      | succ k =>
        refine (hk k (Nat.lt_of_succ_lt_succ h)).trans ?_
        rw [Nat.add_assoc draws, drawsOf_add_unwritten, Nat.add_right_comm, Nat.add_assoc i]

/-- Past the end of the host's program a step changes nothing. -/
theorem step_of_end (h : s.program[s.pc]? = none) : step s = .next s := by
  simp only [step, stepHost, nextLine, h]

/-- A step is the host's next line. -/
theorem step_of_line {l : HostLine} (h : s.program[s.pc]? = some l) : step s = runLine l s := by
  simp only [step, stepHost, nextLine, h]

/-- The line that `placeLine` places. -/
theorem placeLine_getElem? (l : HostLine) : ∀ (p : List HostLine) (k : Nat), (placeLine l p k)[k]? = some l
  | [], 0 => rfl
  | [], k + 1 => by rw [placeLine, List.getElem?_cons_succ]; exact placeLine_getElem? l [] k
  | _ :: _, 0 => rfl
  | _ :: rest, k + 1 => by rw [placeLine, List.getElem?_cons_succ]; exact placeLine_getElem? l rest k

/-- A step of a state with a table word placed runs that word's line. -/
theorem step_withFetchWord (nbits w : Nat) :
    step (s.withFetchWord nbits w) = runLine (tableLine nbits w) (s.withFetchWord nbits w) :=
  step_of_line (placeLine_getElem? _ _ _)

end Sys2Proof.Machine
end

