-- ==== Sys2Proof/Laws/Checksum.lean ====
section
/-! SUPPORT. The checksum's algebra: a division step is linear over XOR, steps on a value with zero low bits shift it, and the
checksum test of a body followed by two bytes. -/

namespace Sys2Proof.Machine

/-- A division step is linear over XOR. -/
theorem crcStep_xor (a b : Half) : crcStep (a ^^^ b) = crcStep a ^^^ crcStep b := by
  have h : (a ^^^ b) >>> 1 = (a >>> 1) ^^^ (b >>> 1) := by
    apply BitVec.eq_of_getLsbD_eq
    intro i hi
    simp
  simp only [crcStep, BitVec.getLsbD_xor, h]
  cases a.getLsbD 0 <;> cases b.getLsbD 0 <;> simp
  · ac_rfl
  · ac_rfl
  · rw [BitVec.xor_comm (b >>> 1) crcPoly, BitVec.xor_assoc, ← BitVec.xor_assoc crcPoly crcPoly]
    simp

/-- So are several. -/
theorem crcSteps_xor (n : Nat) (a b : Half) : crcSteps n (a ^^^ b) = crcSteps n a ^^^ crcSteps n b := by
  induction n generalizing a b with
  | zero => rfl
  | succ n ih => simp only [crcSteps, crcStep_xor, ih]

/-- A step on an even value is a shift. -/
theorem crcStep_even {a : Half} (h : a.getLsbD 0 = false) : crcStep a = a >>> 1 := by
  rw [crcStep, h]
  rfl

/-- `n` steps on a value whose `n` low bits are 0 are a shift by `n`. -/
theorem crcSteps_shift (n : Nat) (a : Half) (h : ∀ i < n, a.getLsbD i = false) : crcSteps n a = a >>> n := by
  induction n generalizing a with
  | zero => simp [crcSteps]
  | succ n ih =>
    rw [crcSteps, crcStep_even (h 0 (by omega)), ih]
    · rw [← BitVec.shiftRight_add, Nat.add_comm]
    · intro i hi
      rw [BitVec.getLsbD_ushiftRight]
      exact h (1 + i) (by omega)

/-- The checksum test of a body and two bytes. -/
theorem chkOk_append (body : List Byte) (x y : Byte) : chkOk (body ++ [x, y]) = decide (crc16 body = be16 y x) := by
  have h : (body ++ [x, y]).length - 2 = body.length := by simp
  rw [chkOk, h]
  simp

/-- A frame that passes the test is a body and its checksum, low byte first. -/
theorem chkOk_eq_true {frame : List Byte} (h : chkOk frame = true) : ∃ body, frame = sealFrame body := by
  unfold chkOk at h
  split at h
  · rename_i x y hd
    refine ⟨frame.take (frame.length - 2), ?_⟩
    rw [sealFrame, of_decide_eq_true h, lo_be16, hi_be16, ← hd, List.take_append_drop]
  · cases h

/-- A sealed body passes the checksum test. -/
@[simp] theorem chkOk_sealFrame (body : List Byte) : chkOk (sealFrame body) = true := by
  rw [sealFrame, chkOk_append, be16_hi_lo, decide_eq_true rfl]

end Sys2Proof.Machine
end

