-- ==== Sys2Proof/Laws/Decode.lean ====
section
/-! SUPPORT. What each part of the decoder answers. -/

namespace Sys2Proof

open Machine

/-- A word passes the field check exactly where RES and the unused fields are 0, and decodes to the row's command. -/
theorem checkFields_eq_ok {w : Word} {u : FieldUse} {i j : Instr} :
    checkFields w u i = .ok j ↔ j = i ∧ resField w = 0 ∧ (u.a = false → aField w = 0) ∧ (u.b = false → bField w = 0) ∧
      (u.c = false → cField w = 0) ∧ (u.d = false → dField w = 0) := by
  constructor
  · intro h
    unfold checkFields at h
    split at h; · cases h
    split at h; · cases h
    split at h; · cases h
    split at h; · cases h
    split at h; · cases h
    cases h
    refine ⟨rfl, by simpa using ‹¬ resField w ≠ 0›, ?_, ?_, ?_, ?_⟩ <;> intro hu <;> by_contra hc <;> simp_all
  · rintro ⟨rfl, hr, ha, hb, hc, hd⟩
    unfold checkFields
    rw [if_neg (by simp [hr]), if_neg fun h => h.2 (ha h.1), if_neg fun h => h.2 (hb h.1), if_neg fun h => h.2 (hc h.1),
      if_neg fun h => h.2 (hd h.1)]

/-- An 8-byte frame's fields. -/
theorem decodeTwoFields_eq_ok {mk : Half → Half → Half → Instr} {bs : List Byte} {i : Instr} :
    decodeTwoFields mk bs = .ok i ↔ ∃ x y c, i = mk x y c ∧ bs = [hi x, lo x, hi y, lo y, lo c, hi c] := by
  constructor
  · intro h
    unfold decodeTwoFields at h
    split at h
    · cases h
      exact ⟨_, _, _, rfl, by simp⟩
    · cases h
  · rintro ⟨x, y, c, rfl, rfl⟩
    simp [decodeTwoFields]

/-- A frame's registers. -/
theorem decodeRegisters_eq_ok {mk : List Half → Half → Instr} {n : Nat} {bs : List Byte} {i : Instr} (hn : n % 2 = 0) :
    decodeRegisters mk n bs = .ok i ↔
      ∃ regs c, i = mk regs c ∧ n = 2 * regs.length ∧ bs = bytesBe16List regs ++ [lo c, hi c] := by
  constructor
  · intro h
    unfold decodeRegisters at h
    split at h
    · rename_i x y hd
      cases h
      have hl : bs.length = n + 2 := by
        have := congrArg List.length hd
        simp at this
        omega
      refine ⟨_, _, rfl, ?_, ?_⟩
      · rw [be16List_length, List.length_take]
        omega
      · rw [bytesBe16List_be16List _ (by rw [List.length_take]; omega), hi_be16, lo_be16, ← hd, List.take_append_drop]
    · cases h
  · rintro ⟨regs, c, rfl, rfl, rfl⟩
    have h1 : (bytesBe16List regs ++ [lo c, hi c]).drop (2 * regs.length) = [lo c, hi c] := by
      rw [← bytesBe16List_length]
      simp
    have h2 : (bytesBe16List regs ++ [lo c, hi c]).take (2 * regs.length) = bytesBe16List regs := by
      rw [← bytesBe16List_length]
      simp
    simp [decodeRegisters, h1, h2]

/-- A word decodes to a command, never to a wire form. -/
theorem decodeCommand_isCommand {w : Word} {i : Instr} (h : decodeCommand w = .ok i) : i.isCommand = true := by
  unfold decodeCommand at h
  split at h
  case h_18 => cases h
  all_goals
    obtain ⟨rfl, -⟩ := checkFields_eq_ok.1 h
    rfl

end Sys2Proof
end

