-- ==== Sys2Proof/Laws/PerInstr.lean ====
section
/-! SUPPORT. For every instruction: its encoding meets the match and the mask of its own row of spec/opcode_table.json. -/

namespace Sys2Proof.Laws

open Machine

/-- The bits a row of spec/opcode_table.json fixes: `mask` says which, `pattern` their values. -/
structure RowPattern where
  pattern : Nat
  mask    : Nat
deriving DecidableEq, Repr

/-- Each instruction's row of spec/opcode_table.json: of the command word, or of the frame's function-code byte. -/
def rowPattern (i : Instr) : RowPattern :=
  match i with
  | .crcReset => ⟨0x0000000000000001, 0xFFFFFFFFFFFFFFFF⟩
  | .crcFeed _ => ⟨0x0000000000000002, 0xFFFFFFFFFFFF00FF⟩
  | .crcBuf _ => ⟨0x0000000000000003, 0xFFFF0000FFFFFFFF⟩
  | .addrCheck _ => ⟨0x0000000000000010, 0xFFFFFFFFFFFF00FF⟩
  | .frameBuild _ _ => ⟨0x0000000000000011, 0xFFFFFFFFFF0000FF⟩
  | .frameParse _ _ _ => ⟨0x0000000000000012, 0xFFFF0000FF0000FF⟩
  | .slaveParse _ => ⟨0x0000000000000013, 0xFFFFFFFFFFFF00FF⟩
  | .reqRemlen _ _ => ⟨0x0000000000000014, 0x0000FFFFFF00FFFF⟩
  | .mrsRdReq _ _ => ⟨0x0000000000000020, 0x00000000FFFFFFFF⟩
  | .mrsWs _ _ => ⟨0x0000000000000021, 0x00000000FFFFFFFF⟩
  | .mrsWmReq _ _ => ⟨0x0000000000000022, 0x00000000FFFFFFFF⟩
  | .mrsRdRsp _ => ⟨0x0000000000000023, 0x0000FFFFFFFFFFFF⟩
  | .mrsWmRsp _ _ => ⟨0x0000000000000024, 0x00000000FFFFFFFF⟩
  | .mrsExc _ => ⟨0x0000000000000025, 0xFFFFFFFFFFFF00FF⟩
  | .unmRdRsp _ => ⟨0x0000000000000030, 0x0000FFFFFFFFFFFF⟩
  | .chkWsRsp _ _ => ⟨0x0000000000000031, 0x00000000FFFFFFFF⟩
  | .chkWmRsp _ _ => ⟨0x0000000000000032, 0x00000000FFFFFFFF⟩
  | .wireReq03 _ _ _ _ => ⟨0x03, 0xFF⟩
  | .wireRsp03 _ _ _ => ⟨0x03, 0xFF⟩
  | .wireReq06 _ _ _ _ => ⟨0x06, 0xFF⟩
  | .wireRsp06 _ _ _ _ => ⟨0x06, 0xFF⟩
  | .wireReq10 _ _ _ _ => ⟨0x10, 0xFF⟩
  | .wireRsp10 _ _ _ _ => ⟨0x10, 0xFF⟩
  | .wireExc _ _ _ _ => ⟨0x80, 0x80⟩

/-- An encoding meets a row: the command word does, or byte 1 of the frame. -/
def meetsRow (p : RowPattern) : Encoding → Prop
  | .command w => w &&& BitVec.ofNat 64 p.mask = BitVec.ofNat 64 p.pattern
  | .frame _ bytes => ∃ fc, bytes[1]? = some fc ∧ fc &&& BitVec.ofNat 8 p.mask = BitVec.ofNat 8 p.pattern

/-- The encoding of a well-formed instruction meets its row. -/
def MatchesRow.Statement (i : Instr) : Prop := i.wf = true → meetsRow (rowPattern i) (encode i)

namespace MatchesRow

/-- A packed word meets a row where each of its fields does. -/
theorem packWord_meets {opc a b : Byte} {c d : Half} {mask pat : Word} (ho : opc &&& opcField mask = opcField pat)
    (ha : a &&& aField mask = aField pat) (hb : b &&& bField mask = bField pat) (hr : 0 = resField pat)
    (hc : c &&& cField mask = cField pat) (hd : d &&& dField mask = dField pat) :
    packWord opc a b c d &&& mask = pat := by
  rw [and_eq_iff_fields]
  refine ⟨by simpa using ho, by simpa using ha, by simpa using hb, ?_, by simpa using hc, by simpa using hd⟩
  rw [resField_packWord, ← hr]
  exact BitVec.zero_and

theorem crcReset : Statement (.crcReset) := fun _ => by
  simp only [rowPattern, encode, meetsRow]
  apply packWord_meets <;> simp [opcField, aField, bField, resField, cField, dField]
theorem crcFeed (x : Byte) : Statement (.crcFeed x) := fun _ => by
  simp only [rowPattern, encode, meetsRow]
  apply packWord_meets <;> simp [opcField, aField, bField, resField, cField, dField]
theorem crcBuf (n : Half) : Statement (.crcBuf n) := fun _ => by
  simp only [rowPattern, encode, meetsRow]
  apply packWord_meets <;> simp [opcField, aField, bField, resField, cField, dField]
theorem addrCheck (a : Byte) : Statement (.addrCheck a) := fun _ => by
  simp only [rowPattern, encode, meetsRow]
  apply packWord_meets <;> simp [opcField, aField, bField, resField, cField, dField]
theorem frameBuild (a f : Byte) : Statement (.frameBuild a f) := fun _ => by
  simp only [rowPattern, encode, meetsRow]
  apply packWord_meets <;> simp [opcField, aField, bField, resField, cField, dField]
theorem frameParse (a f : Byte) (n : Half) : Statement (.frameParse a f n) := fun _ => by
  simp only [rowPattern, encode, meetsRow]
  apply packWord_meets <;> simp [opcField, aField, bField, resField, cField, dField]
theorem slaveParse (a : Byte) : Statement (.slaveParse a) := fun _ => by
  simp only [rowPattern, encode, meetsRow]
  apply packWord_meets <;> simp [opcField, aField, bField, resField, cField, dField]
theorem reqRemlen (f : Byte) (n : Half) : Statement (.reqRemlen f n) := fun _ => by
  simp only [rowPattern, encode, meetsRow]
  apply packWord_meets <;> simp [opcField, aField, bField, resField, cField, dField]
theorem mrsRdReq (x y : Half) : Statement (.mrsRdReq x y) := fun _ => by
  simp only [rowPattern, encode, meetsRow]
  apply packWord_meets <;> simp [opcField, aField, bField, resField, cField, dField]
theorem mrsWs (x y : Half) : Statement (.mrsWs x y) := fun _ => by
  simp only [rowPattern, encode, meetsRow]
  apply packWord_meets <;> simp [opcField, aField, bField, resField, cField, dField]
theorem mrsWmReq (x y : Half) : Statement (.mrsWmReq x y) := fun _ => by
  simp only [rowPattern, encode, meetsRow]
  apply packWord_meets <;> simp [opcField, aField, bField, resField, cField, dField]
theorem mrsRdRsp (n : Half) : Statement (.mrsRdRsp n) := fun _ => by
  simp only [rowPattern, encode, meetsRow]
  apply packWord_meets <;> simp [opcField, aField, bField, resField, cField, dField]
theorem mrsWmRsp (x y : Half) : Statement (.mrsWmRsp x y) := fun _ => by
  simp only [rowPattern, encode, meetsRow]
  apply packWord_meets <;> simp [opcField, aField, bField, resField, cField, dField]
theorem mrsExc (x : Byte) : Statement (.mrsExc x) := fun _ => by
  simp only [rowPattern, encode, meetsRow]
  apply packWord_meets <;> simp [opcField, aField, bField, resField, cField, dField]
theorem unmRdRsp (n : Half) : Statement (.unmRdRsp n) := fun _ => by
  simp only [rowPattern, encode, meetsRow]
  apply packWord_meets <;> simp [opcField, aField, bField, resField, cField, dField]
theorem chkWsRsp (x y : Half) : Statement (.chkWsRsp x y) := fun _ => by
  simp only [rowPattern, encode, meetsRow]
  apply packWord_meets <;> simp [opcField, aField, bField, resField, cField, dField]
theorem chkWmRsp (x y : Half) : Statement (.chkWmRsp x y) := fun _ => by
  simp only [rowPattern, encode, meetsRow]
  apply packWord_meets <;> simp [opcField, aField, bField, resField, cField, dField]
theorem wireReq03 (a : Byte) (x y c : Half) : Statement (.wireReq03 a x y c) := fun _ =>
  ⟨_, rfl, by simp [rowPattern]⟩
theorem wireRsp03 (a : Byte) (r : List Half) (c : Half) : Statement (.wireRsp03 a r c) := fun _ =>
  ⟨_, rfl, by simp [rowPattern]⟩
theorem wireReq06 (a : Byte) (x y c : Half) : Statement (.wireReq06 a x y c) := fun _ =>
  ⟨_, rfl, by simp [rowPattern]⟩
theorem wireRsp06 (a : Byte) (x y c : Half) : Statement (.wireRsp06 a x y c) := fun _ =>
  ⟨_, rfl, by simp [rowPattern]⟩
theorem wireReq10 (a : Byte) (x : Half) (r : List Half) (c : Half) : Statement (.wireReq10 a x r c) := fun _ =>
  ⟨_, rfl, by simp [rowPattern]⟩
theorem wireRsp10 (a : Byte) (x y c : Half) : Statement (.wireRsp10 a x y c) := fun _ =>
  ⟨_, rfl, by simp [rowPattern]⟩
theorem wireExc (a f x : Byte) (c : Half) : Statement (.wireExc a f x c) := fun h =>
  ⟨f, rfl, of_decide_eq_true h⟩

end MatchesRow

end Sys2Proof.Laws
end

