-- ==== Sys2Proof/Tests/Slice0.lean ====
section
/-! SUPPORT. Tests on fixed values, every expected value from spec/95_test_vectors.md or written out from the tables of
spec/30_encoding.md and spec/20_memory.md, and for every obligation with hypotheses a witness that meets them. -/

namespace Sys2Proof.Tests

set_option Elab.async false

open Sys2Proof.Machine

/-! Helpers. -/

/-- Reset state after LOAD_FB. -/
def onFb (bytes : List Byte) : State := State.reset.putFrame bytes
/-- Reset state after LOAD_PB. -/
def onPb (bytes : List Byte) : State := State.reset.putPayload bytes
/-- Reset state after LOAD_RG. -/
def onRg (values : List Half) : State := State.reset.putRegisters values
/-- Reset state with a program of one line. -/
def onLine (l : HostLine) : State := { State.reset with program := [l] }
theorem onLine_line (l : HostLine) : (onLine l).program[0]? = some l := rfl
/-- A field of the next state, if there is one. -/
def after {α : Type} (o : Result) (f : State → α) : Option α :=
  match o with
  | .next t => some (f t)
  | .fault _ => none
  | .refused _ => none
/-- The fault, if there is one. -/
def faultOf (o : Result) : Option Fault :=
  match o with
  | .next _ => none
  | .fault r => some r
  | .refused _ => none
/-- The refusal, if there is one. -/
def refusalOf (o : Result) : Option Refusal :=
  match o with
  | .next _ => none
  | .fault _ => none
  | .refused r => some r
/-- The value an `Except` holds. -/
def got {α : Type} (e : Except Nat α) : Option α :=
  match e with
  | .error _ => none
  | .ok v => some v
/-- What a decoder answers, as data. -/
def decoded (e : Except DecodeError Instr) : Option Instr × Option DecodeError :=
  match e with
  | .ok i => (some i, none)
  | .error r => (none, some r)

theorem onFb_holds (bytes : List Byte) : (onFb bytes).fb.holds 0 bytes := (stored_writeRange _ _).holds
theorem onPb_holds (bytes : List Byte) : (onPb bytes).pb.holds 0 bytes := (stored_writeRange _ _).holds
theorem onRg_holds (values : List Half) : (onRg values).rg.holds 0 values := (stored_writeRange _ _).holds
/-- The elements after the last one loaded are unwritten. -/
theorem onFb_firstUnwritten (bytes : List Byte) : (onFb bytes).fb.firstUnwritten 0 bytes.length := by
  refine ⟨Nat.zero_le _, (stored_writeRange [] bytes).2 _ (Nat.le_refl _), fun k hk _ => ?_⟩
  have := (stored_writeRange State.reset.fb bytes).1 k hk
  rw [List.getElem?_eq_getElem hk] at this
  rw [onFb, State.putFrame_fb, this]
  rfl
theorem onPb_plen {bytes : List Byte} (h : bytes.length < 65536) : (onPb bytes).plen.toNat = bytes.length := by
  rw [onPb, State.putPayload_plen, BitVec.toNat_ofNat]
  exact Nat.mod_eq_of_lt h
/-- The scenario response of spec/95_test_vectors.md section 1.1. -/
def scenarioResponse : List Byte := [0x01, 0x03, 0x04, 0x00, 0x14, 0x00, 0x50, 0xBA, 0x0B]
/-- The write-multiple request of its section 3.5. -/
def writeRequest : List Byte := [0x01, 0x10, 0x00, 0x01, 0x00, 0x02, 0x04, 0x00, 0x0A, 0x01, 0x02, 0x92, 0x30]
/-- The read request of its section 1.1. -/
def readRequest : List Byte := [0x01, 0x03, 0x00, 0x00, 0x00, 0x02, 0xC4, 0x0B]
/-- The write-single request of its section 1.2. -/
def writeSingle : List Byte := [0x01, 0x06, 0x00, 0x03, 0x00, 0x64, 0x78, 0x21]

/-! WellFormed: an ill-formed term for each check, at the first value outside it, and the last inside. -/

theorem test_wf_read_response : (Instr.wireRsp03 1 (List.replicate 126 0) 0).wf = false ∧
    (Instr.wireRsp03 1 (List.replicate 125 0) 0).wf = true := by decide +kernel
theorem test_wf_write_request : (Instr.wireReq10 1 0 (List.replicate 124 0) 0).wf = false ∧
    (Instr.wireReq10 1 0 (List.replicate 123 0) 0).wf = true := by decide +kernel
theorem test_wf_exception : (Instr.wireExc 1 0x03 2 0).wf = false ∧ (Instr.wireExc 1 0x83 2 0).wf = true := by decide

/-! Decoding: words of spec/95_test_vectors.md sections 3.1 to 3.9. -/

theorem test_decode_checksum :
    decoded (decodeCommand 0x0000000000000001) = (some .crcReset, none) ∧
    decoded (decodeCommand 0x000000000000FF02) = (some (.crcFeed 255), none) ∧
    decoded (decodeCommand 0x0000010100000003) = (some (.crcBuf 257), none) := by decide +kernel
theorem test_decode_codec :
    decoded (decodeCommand 0x000000000000F710) = (some (.addrCheck 247), none) ∧
    decoded (decodeCommand 0x000000000003F811) = (some (.frameBuild 248 0x03), none) ∧
    decoded (decodeCommand 0x000000FC00830112) = (some (.frameParse 1 0x83 252), none) ∧
    decoded (decodeCommand 0x0000000000000113) = (some (.slaveParse 1), none) ∧
    decoded (decodeCommand 0x007C000000100014) = (some (.reqRemlen 0x10 124), none) := by decide +kernel
theorem test_decode_marshal :
    decoded (decodeCommand 0x007D123400000020) = (some (.mrsRdReq 4660 125), none) ∧
    decoded (decodeCommand 0x0064000300000021) = (some (.mrsWs 3 100), none) ∧
    decoded (decodeCommand 0x007C000100000022) = (some (.mrsWmReq 1 124), none) ∧
    decoded (decodeCommand 0x007E000000000023) = (some (.mrsRdRsp 126), none) ∧
    decoded (decodeCommand 0x0002000100000024) = (some (.mrsWmRsp 1 2), none) ∧
    decoded (decodeCommand 0x0000000000000925) = (some (.mrsExc 9), none) := by decide +kernel
theorem test_decode_check :
    decoded (decodeCommand 0x0001000000000030) = (some (.unmRdRsp 1), none) ∧
    decoded (decodeCommand 0x0064000300000031) = (some (.chkWsRsp 3 100), none) ∧
    decoded (decodeCommand 0x0003000100000032) = (some (.chkWmRsp 1 3), none) := by decide +kernel
/-- The illegal words of section 3.9. -/
theorem test_decode_rejects :
    decoded (decodeCommand 0x0000000000000000) = (none, some (.reservedOpcode 0x00)) ∧
    decoded (decodeCommand 0x0000000000000004) = (none, some (.reservedOpcode 0x04)) ∧
    decoded (decodeCommand 0x0000000000000033) = (none, some (.reservedOpcode 0x33)) ∧
    decoded (decodeCommand 0x00000000000000FF) = (none, some (.reservedOpcode 0xFF)) ∧
    decoded (decodeCommand 0x0000000000000101) = (none, some .unusedField) ∧
    decoded (decodeCommand 0x0000000001000302) = (none, some .reservedField) ∧
    decoded (decodeCommand 0x0000000100030111) = (none, some .unusedField) ∧
    decoded (decodeCommand 0x0001000000000225) = (none, some .unusedField) := by decide +kernel
/-- Frames of sections 1, 2 and 4, by the layouts of R78 to R84. -/
theorem test_decode_frames :
    decoded (decodeWire .request readRequest) = (some (.wireReq03 1 0 2 0x0BC4), none) ∧
    decoded (decodeWire .response scenarioResponse) = (some (.wireRsp03 1 [20, 80] 0x0BBA), none) ∧
    decoded (decodeWire .request writeSingle) = (some (.wireReq06 1 3 100 0x2178), none) ∧
    decoded (decodeWire .response writeSingle) = (some (.wireRsp06 1 3 100 0x2178), none) ∧
    decoded (decodeWire .request writeRequest) = (some (.wireReq10 1 1 [0x000A, 0x0102] 0x3092), none) ∧
    decoded (decodeWire .response [0x01, 0x10, 0x00, 0x01, 0x00, 0x02, 0x10, 0x08]) =
      (some (.wireRsp10 1 1 2 0x0810), none) ∧
    decoded (decodeWire .response [0x01, 0x83, 0x02, 0xC0, 0xF1]) = (some (.wireExc 1 0x83 2 0xF1C0), none) := by
  decide +kernel
theorem test_decode_frames_rejects :
    decoded (decodeWire .request [0x01]) = (none, some .noHeader) ∧
    decoded (decodeWire .request [0x01, 0x04, 0x00, 0x00]) = (none, some (.unrecognisedFunction 0x04)) ∧
    decoded (decodeWire .request [0x01, 0x03, 0x00]) = (none, some .wrongLength) ∧
    decoded (decodeWire .response [0x01, 0x03, 0x03, 0x00, 0x14, 0x00, 0x00, 0x00]) = (none, some .byteCountMismatch) ∧
    decoded (decodeWire .request [0x01, 0x10, 0x00, 0x01, 0x00, 0x7C, 0xF8]) = (none, some .tooManyRegisters) := by
  decide +kernel
/-- Rows of spec/opcode_table.json, each row's match. -/
theorem test_decode_table :
    decodeTableWord 64 0x12 = some (.frameParse 0 0 0) ∧ decodeTableWord 64 0x31 = some (.chkWsRsp 0 0) ∧
    decodeTableWord 8 0x03 = some (.wireReq03 0 0 0 0) ∧ decodeTableWord 8 0x06 = some (.wireReq06 0 0 0 0) ∧
    decodeTableWord 8 0x10 = some (.wireReq10 0 0 [] 0) ∧ decodeTableWord 8 0x80 = some (.wireExc 0 0x80 0 0) := by
  decide +kernel

/-! One step of each instruction, with the values of spec/95_test_vectors.md sections 3.1 to 3.8. -/

theorem test_crcReset : after (exec .crcReset { State.reset with acc := 0x1234 }) (fun t => (t.status, t.acc)) =
    some (0, 0xFFFF) := by decide +kernel
theorem test_crcFeed : after (exec (.crcFeed 3) { State.reset with acc := 0x807E }) (fun t => (t.status, t.acc)) =
    some (0, 0x2140) := by decide +kernel
theorem test_crcBuf : after (exec (.crcBuf 9) (onFb [0x31, 0x32, 0x33, 0x34, 0x35, 0x36, 0x37, 0x38, 0x39]))
    (fun t => (t.status, t.acc)) = some (0, 0x4B37) := by decide +kernel
theorem test_crcBuf_unwritten : faultOf (exec (.crcBuf 3) State.reset) = some (.unwrittenFb 0) := by decide +kernel
theorem test_addrCheck : after (exec (.addrCheck 247) State.reset) State.status = some 0 ∧
    after (exec (.addrCheck 248) State.reset) State.status = some 1 := by decide +kernel
theorem test_frameBuild : after (exec (.frameBuild 1 0x03) (onPb [0x00, 0x00, 0x00, 0x02]))
    (fun t => (t.status, got (t.fb.readRange 0 8), t.flen)) = some (0, some readRequest, 8) := by decide +kernel
theorem test_frameBuild_too_long : after (exec (.frameBuild 1 0x10) { State.reset with plen := 253 }) State.status = some 2 ∧
    after (exec (.frameBuild 248 0x03) { State.reset with plen := 253 }) State.status = some 1 := by decide +kernel
theorem test_frameParse : after (exec (.frameParse 1 0x03 5) (onFb scenarioResponse))
    (fun t => (t.status, got (t.pb.readRange 0 5), t.plen, t.rspKind, t.dFc)) =
      some (0, some [0x04, 0x00, 0x14, 0x00, 0x50], 5, 0, 0x03) := by decide +kernel
theorem test_frameParse_exception : after (exec (.frameParse 1 0x03 252) (onFb [0x01, 0x83, 0x02, 0x77, 0xB1, 0x76]))
    (fun t => (t.status, t.rspKind, t.excCode, t.dFc, t.plen)) = some (0, 1, 2, 0x83, 0) := by decide +kernel
theorem test_slaveParse : after (exec (.slaveParse 1) (onFb writeRequest))
    (fun t => (t.status, t.dFc, t.dAddr, t.dCount, t.dBc)) = some (0, 0x10, 1, 2, 4) ∧
    after (exec (.slaveParse 1) (onFb writeRequest)) (fun t => (got (t.rg.readRange 0 2), t.rcount)) =
      some (some [0x000A, 0x0102], 2) := by decide +kernel
theorem test_slaveParse_single : after (exec (.slaveParse 1) (onFb writeSingle))
    (fun t => (t.status, t.dFc, t.dAddr, t.dCount, t.dValue, t.dBc)) = some (0, 0x06, 3, 1, 100, 0) := by decide +kernel
theorem test_reqRemlen : after (exec (.reqRemlen 0x10 123) State.reset) (fun t => (t.status, t.dLen)) = some (0, 253) ∧
    after (exec (.reqRemlen 0x83 0) State.reset) (fun t => (t.status, t.dLen)) = some (5, 0) := by decide +kernel
theorem test_mrsRdReq : after (exec (.mrsRdReq 4660 125) State.reset)
    (fun t => (t.status, got (t.pb.readRange 0 4), t.plen)) = some (0, some [0x12, 0x34, 0x00, 0x7D], 4) := by
  decide +kernel
theorem test_mrsWs : after (exec (.mrsWs 3 100) State.reset)
    (fun t => (t.status, got (t.pb.readRange 0 4), t.plen)) = some (0, some [0x00, 0x03, 0x00, 0x64], 4) := by
  decide +kernel
theorem test_mrsWmReq : after (exec (.mrsWmReq 1 2) (onRg [0x000A, 0x0102]))
    (fun t => (t.status, got (t.pb.readRange 0 9), t.plen)) =
      some (0, some [0x00, 0x01, 0x00, 0x02, 0x04, 0x00, 0x0A, 0x01, 0x02], 9) := by decide +kernel
theorem test_mrsWmReq_unwritten : faultOf (exec (.mrsWmReq 1 2) (onRg [0x0007])) = some (.unwrittenRg 1) := by
  decide +kernel
theorem test_mrsRdRsp : after (exec (.mrsRdRsp 2) (onRg [0x0014, 0x0050]))
    (fun t => (t.status, got (t.pb.readRange 0 5), t.plen)) = some (0, some [0x04, 0x00, 0x14, 0x00, 0x50], 5) := by
  decide +kernel
theorem test_mrsWmRsp : after (exec (.mrsWmRsp 1 0) State.reset)
    (fun t => (t.status, got (t.pb.readRange 0 4), t.plen)) = some (0, some [0x00, 0x01, 0x00, 0x00], 4) := by
  decide +kernel
theorem test_mrsExc : after (exec (.mrsExc 8) State.reset) (fun t => (t.status, got (t.pb.readRange 0 1), t.plen)) =
    some (0, some [0x08], 1) ∧ after (exec (.mrsExc 9) State.reset) (fun t => (t.status, t.plen)) = some (2, 0) := by
  decide +kernel
theorem test_unmRdRsp : after (exec (.unmRdRsp 2) (onPb [0x04, 0x00, 0x14, 0x00, 0x50]))
    (fun t => (t.status, got (t.rg.readRange 0 2), t.rcount)) = some (0, some [20, 80], 2) := by decide +kernel
theorem test_unmRdRsp_extra : after (exec (.unmRdRsp 1) (onPb [0x02, 0x00, 0x01, 0x09]))
    (fun t => (t.status, t.rcount)) = some (3, 0) := by decide +kernel
theorem test_chkWsRsp : after (exec (.chkWsRsp 3 100) (onPb [0x00, 0x03, 0x00, 0x64])) State.status = some 0 ∧
    after (exec (.chkWsRsp 3 100) (onPb [0x00, 0x03, 0x00, 0x65])) State.status = some 3 := by decide +kernel
theorem test_chkWmRsp : after (exec (.chkWmRsp 1 2) (onPb [0x00, 0x01, 0x00, 0x02])) State.status = some 0 ∧
    after (exec (.chkWmRsp 1 3) (onPb [0x00, 0x01, 0x00, 0x02])) State.status = some 3 := by decide +kernel
/-- The frames of R78 to R84 are loaded as they stand in spec/95_test_vectors.md. -/
theorem test_wire_requests :
    after (exec (.wireReq03 1 0 2 0x0BC4) State.reset) (fun t => (got (t.fb.readRange 0 8), t.flen)) =
      some (some readRequest, 8) ∧
    after (exec (.wireReq06 1 3 100 0x2178) State.reset) (fun t => (got (t.fb.readRange 0 8), t.flen)) =
      some (some writeSingle, 8) ∧
    after (exec (.wireReq10 1 1 [0x000A, 0x0102] 0x3092) State.reset) (fun t => (got (t.fb.readRange 0 13), t.flen)) =
      some (some writeRequest, 13) := by decide +kernel
theorem test_wire_responses :
    after (exec (.wireRsp03 1 [20, 80] 0x0BBA) State.reset) (fun t => (got (t.fb.readRange 0 9), t.flen)) =
      some (some scenarioResponse, 9) ∧
    after (exec (.wireRsp06 1 3 100 0x2178) State.reset) (fun t => (got (t.fb.readRange 0 8), t.flen)) =
      some (some writeSingle, 8) ∧
    after (exec (.wireRsp10 1 1 2 0x0810) State.reset) (fun t => (got (t.fb.readRange 0 8), t.flen)) =
      some (some [0x01, 0x10, 0x00, 0x01, 0x00, 0x02, 0x10, 0x08], 8) ∧
    after (exec (.wireExc 1 0x83 2 0xF1C0) State.reset) (fun t => (got (t.fb.readRange 0 5), t.flen)) =
      some (some [0x01, 0x83, 0x02, 0xC0, 0xF1], 5) := by decide +kernel

/-! The machine around the instructions. -/

/-- The update's first row of section 2, and the table's spot values. -/
theorem test_table : crcUpdate 0xFFFF 0x31 = 0x947E ∧ crcTable 0x01 = 0xC0C1 ∧ crcTable 0x80 = 0xA001 ∧
    crcTable 0xFF = 0x4040 := by decide +kernel
/-- R89's example. -/
theorem test_assemble : assemble .FRAME_PARSE [(.addr, 1), (.fc, 3), (.cap, 252)] = some 0x000000FC00030112 ∧
    assemble .FRAME_PARSE [(.addr, 1), (.fc, 3), (.cap, 65536)] = none := by decide +kernel
/-- An illegal word leaves ACC and writes IllegalCommand (section 3.9). -/
theorem test_illegal : after (step { onLine (.command 0x04) with acc := 0x807E }) (fun t => (t.status, t.acc, t.cmd, t.pc)) =
    some (6, 0x807E, 0x04, 1) := by decide +kernel
/-- BR_EQ taken and not (program P4's line 9). -/
theorem test_branch : after (step (onLine (.brEq .acc 0xFFFF 11))) State.pc = some 11 ∧
    after (step (onLine (.brEq .acc 0 11))) State.pc = some 1 := by decide +kernel
/-- The gaps of R55, another width, a read-only register. -/
theorem test_refused :
    refusalOf (hostAccess (.read 0x2FA .w16) State.reset) = some (.noLocation 0x2FA) ∧
    refusalOf (hostAccess (.read 0x31B .w8) State.reset) = some (.noLocation 0x31B) ∧
    refusalOf (hostAccess (.read 0x30A .w8) State.reset) = some (.wrongWidth .acc) ∧
    refusalOf (hostAccess (.write 0x30A (.b16 0)) State.reset) = some (.readOnly .acc) := by decide +kernel
theorem test_map : locAt 0x2F8 = some (.rg 124) ∧ locAt 0x2F9 = none ∧ locAt 0x5FE = some (.t 255) ∧ locAt 0x600 = none := by
  decide +kernel
/-- Retrying and the classes of R183 and R184. -/
theorem test_classes : Status.checksumError.retryable = true ∧ Status.invalidResponse.retryable = false ∧
    errorClass (.slaveParse 0) State.reset .invalidAddress 0 = some .parameterError ∧
    errorClass (.slaveParse 1) State.reset .invalidAddress 0 = some .addressMismatch ∧
    errorClass (.frameParse 1 3 252) State.reset .ok 1 = some .deviceException ∧
    wireExceptionOf 2 = some .IllegalDataAddress ∧ wireExceptionOf 9 = none := by decide +kernel
theorem test_safe_run : SafeRun 1 (onLine (.command 0x01)) := ⟨_, rfl⟩

/-! Witnesses: for every obligation with hypotheses, operands and states that meet them together, clause by clause, at the
ends of each range. -/

theorem witness_PlatformResetResetsTheBlock : (onLine .platformReset).program[(onLine .platformReset).pc]? =
    some .platformReset := onLine_line _
theorem witness_EveryStepKeepsTheInvariant : (onLine (.command 0x0064000300000021)).Inv ∧
    after (step (onLine (.command 0x0064000300000021))) State.plen = some 4 :=
  ⟨⟨by decide, by decide, by decide, by decide⟩, by decide +kernel⟩
theorem witness_ChecksumDetectsEverySingleByteChange :
    chkOk scenarioResponse = true ∧ 0 < scenarioResponse.length ∧ scenarioResponse[0]? ≠ some 0x02 ∧
    8 < scenarioResponse.length ∧ scenarioResponse[8]? ≠ some 0x0C := by decide +kernel
theorem witness_CrcBufChecksumsThePrefix : 256 < (257 : Half).toNat ∧
    (∃ bytes : List Byte, bytes.length = (256 : Half).toNat ∧ (onFb bytes).fb.holds 0 bytes) ∧
    (([] : List Byte).length = (0 : Half).toNat ∧ State.reset.fb.holds 0 []) ∧
    ∃ bytes : List Byte, bytes.length < (256 : Half).toNat ∧ (onFb bytes).fb.firstUnwritten 0 bytes.length :=
  ⟨by decide, ⟨List.replicate 256 0, List.length_replicate, onFb_holds _⟩, by decide,
    List.replicate 255 0, by rw [List.length_replicate]; decide, onFb_firstUnwritten _⟩
theorem witness_AddrCheckAdmits1To247 : (1 ≤ (1 : Byte).toNat ∧ (247 : Byte).toNat ≤ 247) ∧ (0 : Byte).toNat = 0 ∧
    248 ≤ (248 : Byte).toNat := by decide
theorem witness_FrameBuildFramesThePayload :
    256 < ({ State.reset with plen := 253 } : State).plen.toNat + 4 ∧
    (∃ bytes : List Byte, bytes.length = 252 ∧ (onPb bytes).plen.toNat = bytes.length ∧ (onPb bytes).pb.holds 0 bytes) ∧
    (([] : List Byte).length = State.reset.plen.toNat ∧ State.reset.pb.holds 0 []) ∧
    (1 < ({ onPb [0x00] with plen := 2 } : State).plen.toNat ∧
      ({ onPb [0x00] with plen := 2 } : State).pb.firstUnwritten 0 1) :=
  ⟨by decide, ⟨List.replicate 252 0xAA, List.length_replicate,
    onPb_plen (by rw [List.length_replicate]; decide), onPb_holds _⟩, by decide, by decide⟩
theorem witness_FrameParseCopiesANormalPayload :
    ((onFb scenarioResponse).flen.toNat = [0x04, 0x00, 0x14, 0x00, (0x50 : Byte)].length + 4 ∧
      (onFb scenarioResponse).fb.holds 0 (0x01 :: 0x03 :: [0x04, 0x00, 0x14, 0x00, 0x50] ++ [0xBA, 0x0B]) ∧
      crc16 (0x01 :: 0x03 :: [0x04, 0x00, 0x14, 0x00, 0x50]) = be16 0x0B 0xBA ∧
      (0x03 : Byte) ≠ 0x03 ||| 0x80 ∧ 5 ≤ (5 : Half).toNat) ∧
    ((onFb [0x01, 0x06, 0x80, 0x22]).flen.toNat = ([] : List Byte).length + 4 ∧
      (onFb [0x01, 0x06, 0x80, 0x22]).fb.holds 0 (0x01 :: 0x06 :: [] ++ [0x80, 0x22]) ∧
      crc16 (0x01 :: 0x06 :: []) = be16 0x22 0x80 ∧ (0x06 : Byte) ≠ 0x06 ||| 0x80 ∧
      ([] : List Byte).length ≤ (0 : Half).toNat) := by decide +kernel
theorem witness_ExceptionResponsesAreClassified :
    ((onFb [0x01, 0x83, 0x09, 0x81, 0x36]).flen.toNat = ([] : List Byte).length + 5 ∧
      (onFb [0x01, 0x83, 0x09, 0x81, 0x36]).fb.holds 0 (0x01 :: (0x03 ||| 0x80) :: 0x09 :: [] ++ [0x81, 0x36]) ∧
      crc16 (0x01 :: (0x03 ||| 0x80) :: 0x09 :: []) = be16 0x36 0x81) ∧
    ((onFb [0x01, 0x83, 0x02, 0x77, 0xB1, 0x76]).fb.holds 0 (0x01 :: (0x03 ||| 0x80) :: 0x02 :: [0x77] ++ [0xB1, 0x76]) ∧
      crc16 (0x01 :: (0x03 ||| 0x80) :: 0x02 :: [0x77]) = be16 0x76 0xB1 ∧
      crc16 (0x01 :: (0x03 ||| 0x80) :: 0x02 :: [0x77]) ≠ be16 0x76 0xB2) := by decide +kernel
theorem witness_FrameParseFailurePriority :
    256 < ({ State.reset with flen := 257 } : State).flen.toNat ∧ (onFb [0x01, 0x03, 0x00]).flen.toNat < 4 ∧
    ((onFb [0x01, 0x83, 0x41, 0x81]).flen.toNat = ([] : List Byte).length + 4 ∧
      (onFb [0x01, 0x83, 0x41, 0x81]).fb.read 0 = some 0x01 ∧ (0x01 : Byte) ≠ 0x02 ∧
      (onFb [0x01, 0x83, 0x41, 0x81]).fb.holds 0 (0x01 :: 0x83 :: [] ++ [0x41, 0x81]) ∧
      crc16 (0x01 :: 0x83 :: []) = be16 0x81 0x41 ∧ (0x83 : Byte) = 0x03 ||| 0x80) ∧
    ((onFb [0x01, 0x04, 0x04, 0x00, 0x14, 0x00, 0x50, 0xBB, 0xBC]).fb.holds 0
        (0x01 :: 0x04 :: [0x04, 0x00, 0x14, 0x00, 0x50] ++ [0xBB, 0xBC]) ∧
      crc16 (0x01 :: 0x04 :: [0x04, 0x00, 0x14, 0x00, 0x50]) = be16 0xBC 0xBB ∧ (0x04 : Byte) ≠ 0x03 ||| 0x80 ∧
      (0x04 : Byte) ≠ 0x03) ∧
    ((onFb scenarioResponse).fb.holds 0 (0x01 :: 0x03 :: [0x04, 0x00, 0x14, 0x00, 0x50] ++ [0xBA, 0x0B]) ∧
      (4 : Half).toNat < [0x04, 0x00, 0x14, 0x00, (0x50 : Byte)].length) ∧
    ((onFb [0x01, 0x03, 0x04, 0x00, 0x14, 0x00, 0x50, 0xBA, 0x0C]).fb.holds 0
        (0x01 :: 0x03 :: [0x04, 0x00, 0x14, 0x00, 0x50] ++ [0xBA, 0x0C]) ∧
      crc16 (0x01 :: 0x03 :: [0x04, 0x00, 0x14, 0x00, 0x50]) ≠ be16 0x0C 0xBA) := by decide +kernel
theorem witness_ParsersFaultOnUnwrittenBytes :
    (4 ≤ ({ State.reset with flen := 256 } : State).flen.toNat ∧ State.reset.fb.read 0 = none) ∧
    ((onFb [0x01]).fb.read 0 = some 0x01 ∧ (onFb [0x01]).fb.read 1 = none ∧ (onFb [0x01]).fb.firstUnwritten 0 1) ∧
    ((onFb [0x01, 0x06, 0x00, 0x03, 0x00, 0x64, 0x78]).fb.read 1 = some 0x06 ∧
      (onFb [0x01, 0x06, 0x00, 0x03, 0x00, 0x64, 0x78]).fb.firstUnwritten 0 7) ∧
    ((onFb [0x01, 0x10, 0x00, 0x01]).fb.read 1 = some 0x10 ∧ (onFb [0x01, 0x10, 0x00, 0x01]).fb.read 4 = none) ∧
    ((onFb [0x01, 0x10, 0x00, 0x01, 0x00]).fb.read 4 = some 0x00 ∧
      (onFb [0x01, 0x10, 0x00, 0x01, 0x00]).fb.read 5 = none) ∧
    ((onFb [0x01, 0x10, 0x00, 0x01, 0x00, 0x7B]).fb.read 5 = some 0x7B ∧ (be16 0x00 0x7B).toNat ≤ 123 ∧
      ({ onFb [0x01, 0x10, 0x00, 0x01, 0x00, 0x7B] with flen := 255 } : State).flen.toNat = 9 + 2 * (be16 0x00 0x7B).toNat ∧
      (onFb [0x01, 0x10, 0x00, 0x01, 0x00, 0x7B]).fb.firstUnwritten 0 6) := by decide +kernel
theorem witness_SlaveParseDecodesRequests :
    ((onFb readRequest).flen = 8 ∧ (onFb readRequest).fb.holds 0 [0x01, 0x03, 0x00, 0x00, 0x00, 0x02, 0xC4, 0x0B] ∧
      crc16 [0x01, 0x03, 0x00, 0x00, 0x00, 0x02] = be16 0x0B 0xC4) ∧
    ((onFb writeSingle).flen = 8 ∧ (onFb writeSingle).fb.holds 0 [0x01, 0x06, 0x00, 0x03, 0x00, 0x64, 0x78, 0x21] ∧
      crc16 [0x01, 0x06, 0x00, 0x03, 0x00, 0x64] = be16 0x21 0x78) ∧
    ((be16 0x00 0x02).toNat ≤ 123 ∧ [0x00, 0x0A, 0x01, (0x02 : Byte)].length = 2 * (be16 0x00 0x02).toNat ∧
      (onFb writeRequest).flen.toNat = 9 + 2 * (be16 0x00 0x02).toNat ∧
      (onFb writeRequest).fb.holds 0
        (0x01 :: 0x10 :: 0x00 :: 0x01 :: 0x00 :: 0x02 :: 0x04 :: [0x00, 0x0A, 0x01, 0x02] ++ [0x92, 0x30]) ∧
      crc16 (0x01 :: 0x10 :: 0x00 :: 0x01 :: 0x00 :: 0x02 :: 0x04 :: [0x00, 0x0A, 0x01, 0x02]) = be16 0x30 0x92) ∧
    ((onFb [0x01, 0x10, 0x00, 0x01, 0x00, 0x00, 0x00, 0x08, 0xAC]).flen.toNat = 9 + 2 * (be16 0x00 0x00).toNat ∧
      (onFb [0x01, 0x10, 0x00, 0x01, 0x00, 0x00, 0x00, 0x08, 0xAC]).fb.holds 0
        (0x01 :: 0x10 :: 0x00 :: 0x01 :: 0x00 :: 0x00 :: 0x00 :: [] ++ [0x08, 0xAC]) ∧
      crc16 (0x01 :: 0x10 :: 0x00 :: 0x01 :: 0x00 :: 0x00 :: 0x00 :: []) = be16 0xAC 0x08) := by decide +kernel
theorem witness_SlaveParseFailurePriority :
    256 < ({ State.reset with flen := 257 } : State).flen.toNat ∧ State.reset.flen.toNat < 2 ∧
    ((onFb [0x02, 0x03]).fb.read 0 = some 0x02 ∧ (0x02 : Byte) ≠ 0x01 ∧ 2 ≤ (onFb [0x02, 0x03]).flen.toNat) ∧
    ((onFb [0x01, 0x04]).fb.read 1 = some 0x04 ∧ (0x04 : Byte) ≠ 0x03 ∧ (0x04 : Byte) ≠ 0x06 ∧ (0x04 : Byte) ≠ 0x10) ∧
    ((onFb [0x01, 0x03, 0x00]).fb.read 1 = some 0x03 ∧ (onFb [0x01, 0x03, 0x00]).flen.toNat ≠ 8) ∧
    ((onFb [0x01, 0x10, 0x00, 0x01, 0x00]).fb.read 1 = some 0x10 ∧ (onFb [0x01, 0x10, 0x00, 0x01, 0x00]).flen.toNat < 6) ∧
    ((onFb [0x01, 0x10, 0x00, 0x01, 0x00, 0x7C]).fb.read 4 = some 0x00 ∧
      (onFb [0x01, 0x10, 0x00, 0x01, 0x00, 0x7C]).fb.read 5 = some 0x7C ∧ 123 < (be16 0x00 0x7C).toNat) ∧
    ((onFb [0x01, 0x10, 0x00, 0x01, 0x00, 0x7B]).fb.read 5 = some 0x7B ∧ (be16 0x00 0x7B).toNat ≤ 123 ∧
      (onFb [0x01, 0x10, 0x00, 0x01, 0x00, 0x7B]).flen.toNat ≠ 9 + 2 * (be16 0x00 0x7B).toNat) ∧
    ((onFb [0x01, 0x03, 0x00, 0x00, 0x00, 0x02, 0xC4, 0x00]).flen.toNat = 8 ∧
      (onFb [0x01, 0x03, 0x00, 0x00, 0x00, 0x02, 0xC4, 0x00]).fb.holds 0
        ([0x01, 0x03, 0x00, 0x00, 0x00, 0x02] ++ [0xC4, 0x00]) ∧
      crc16 [0x01, 0x03, 0x00, 0x00, 0x00, 0x02] ≠ be16 0x00 0xC4) ∧
    ((onFb [0x01, 0x10, 0x00, 0x01, 0x00, 0x00, 0x00, 0x08, 0xAD]).flen.toNat = 9 + 2 * (be16 0x00 0x00).toNat ∧
      (onFb [0x01, 0x10, 0x00, 0x01, 0x00, 0x00, 0x00, 0x08, 0xAD]).fb.holds 0
        ([0x01, 0x10, 0x00, 0x01, 0x00, 0x00, 0x00] ++ [0x08, 0xAD]) ∧
      crc16 [0x01, 0x10, 0x00, 0x01, 0x00, 0x00, 0x00] ≠ be16 0xAD 0x08) := by decide +kernel
theorem witness_ReqRemlenComputesTheRemainder : (123 : Half).toNat ≤ 123 ∧ 123 < (124 : Half).toNat ∧
    (0x04 : Byte) ≠ 0x03 ∧ (0x04 : Byte) ≠ 0x06 ∧ (0x04 : Byte) ≠ 0x10 := by decide
theorem witness_MrsRdReqLeavesStartAndCount : 1 ≤ (1 : Half).toNat ∧ (125 : Half).toNat ≤ 125 ∧ (0 : Half).toNat = 0 ∧
    126 ≤ (126 : Half).toNat := by decide
theorem witness_MrsWmReqLeavesTheRegisters :
    ([(7 : Half)].length = (1 : Half).toNat ∧ (onRg [7]).rg.holds 0 [7]) ∧
    (∃ regs : List Half, regs.length = (123 : Half).toNat ∧ (onRg regs).rg.holds 0 regs) ∧
    124 ≤ (124 : Half).toNat ∧ (1 < (2 : Half).toNat ∧ (onRg [7]).rg.firstUnwritten 0 1) :=
  ⟨by decide, ⟨List.replicate 123 7, List.length_replicate, onRg_holds _⟩, by decide, by decide⟩
theorem witness_MrsRdRspLeavesTheRegisters :
    ([(7 : Half)].length = (1 : Half).toNat ∧ (onRg [7]).rg.holds 0 [7]) ∧
    (∃ regs : List Half, regs.length = (125 : Half).toNat ∧ (onRg regs).rg.holds 0 regs) ∧
    126 ≤ (126 : Half).toNat ∧ (1 < (2 : Half).toNat ∧ (onRg [7]).rg.firstUnwritten 0 1) :=
  ⟨by decide, ⟨List.replicate 125 7, List.length_replicate, onRg_holds _⟩, by decide, by decide⟩
theorem witness_MrsExcLeavesAStandardCode : 1 ≤ (1 : Byte).toNat ∧ (8 : Byte).toNat ≤ 8 ∧ (0 : Byte).toNat = 0 ∧
    9 ≤ (9 : Byte).toNat := by decide
theorem witness_UnmRdRspUnpacksTheRegisters :
    256 < ({ State.reset with plen := 257 } : State).plen.toNat ∧ State.reset.plen.toNat = 0 ∧
    (({ State.reset with plen := 1 } : State).plen.toNat = 1 ∧ State.reset.pb.read 0 = none) ∧
    ((onPb [0x04, 0x00, 0x14, 0x00, 0x50]).pb.read 0 = some 0x04 ∧ (0x04 : Byte).toNat ≠ 2 * (1 : Half).toNat) ∧
    ((onPb [0x02, 0x00]).pb.read 0 = some 0x02 ∧ (0x02 : Byte).toNat = 2 * (1 : Half).toNat ∧
      (onPb [0x02, 0x00]).plen.toNat ≠ 1 + 2 * (1 : Half).toNat) ∧
    (({ onPb [0x02, 0x00] with plen := 3 } : State).plen.toNat = 1 + 2 * (1 : Half).toNat ∧
      (onPb [0x02, 0x00]).pb.firstUnwritten 1 2) ∧
    ((onPb [0x02, 0xFF, 0xFF]).pb.read 0 = some 0x02 ∧ (onPb [0x02, 0xFF, 0xFF]).plen.toNat = 1 + 2 * (1 : Half).toNat ∧
      [0xFF, (0xFF : Byte)].length = 2 * (1 : Half).toNat ∧ (onPb [0x02, 0xFF, 0xFF]).pb.holds 1 [0xFF, 0xFF]) := by
  decide +kernel
theorem onPb_data {b : Byte} {data : List Byte} (h : data.length < 65535) : (onPb (b :: data)).pb.read 0 = some b ∧
    (onPb (b :: data)).plen.toNat = data.length + 1 ∧ (onPb (b :: data)).pb.holds 1 data :=
  ⟨onPb_holds (b :: data) 0 (Nat.zero_lt_succ _), onPb_plen (Nat.succ_lt_succ h), Memory.holds_drop (onPb_holds (b :: data)) 1⟩
/-- The longest response. -/
theorem witness_UnmRdRspUnpacksTheRegisters_longest : (0xFA : Byte).toNat = 2 * (125 : Half).toNat ∧
    ∃ data : List Byte, data.length = 250 ∧ (onPb (0xFA :: data)).pb.read 0 = some 0xFA ∧
      (onPb (0xFA :: data)).plen.toNat = data.length + 1 ∧ (onPb (0xFA :: data)).pb.holds 1 data :=
  ⟨by decide, List.replicate 250 0x11, List.length_replicate, onPb_data (by rw [List.length_replicate]; decide)⟩
theorem witness_ChkWsRspAcceptsTheEcho :
    256 < ({ State.reset with plen := 257 } : State).plen.toNat ∧
    ((onPb [0x00, 0x03, 0x00]).plen.toNat ≤ 256 ∧ (onPb [0x00, 0x03, 0x00]).plen ≠ 4) ∧
    ((onPb [0x00, 0x03, 0x00, 0x64]).plen = 4 ∧ (onPb [0x00, 0x03, 0x00, 0x64]).pb.holds 0 [hi 3, lo 3, hi 100, lo 100]) ∧
    ((onPb [0x00, 0x03, 0x00, 0x65]).pb.holds 0 [0x00, 0x03, 0x00, 0x65] ∧
      [0x00, 0x03, 0x00, 0x65] ≠ [hi 3, lo 3, hi 100, lo 100]) ∧
    (({ onPb [0x00, 0x03, 0x00] with plen := 4 } : State).plen = 4 ∧ (onPb [0x00, 0x03, 0x00]).pb.firstUnwritten 0 3) := by
  decide +kernel
theorem witness_ChkWmRspAcceptsTheEcho :
    256 < ({ State.reset with plen := 65535 } : State).plen.toNat ∧
    ((onPb [0x00, 0x01, 0x00]).plen.toNat ≤ 256 ∧ (onPb [0x00, 0x01, 0x00]).plen ≠ 4) ∧
    ((onPb [0x00, 0x01, 0x00, 0x02]).plen = 4 ∧ (onPb [0x00, 0x01, 0x00, 0x02]).pb.holds 0 [hi 1, lo 1, hi 2, lo 2] ∧
      [0x00, 0x01, 0x00, 0x02] ≠ [hi 1, lo 1, hi 3, lo 3]) ∧
    (({ onPb [0x00] with plen := 4 } : State).plen = 4 ∧ (onPb [0x00]).pb.firstUnwritten 0 1) := by decide +kernel
theorem witness_WireFramesFollowTheirLayouts :
    (List.replicate 125 (7 : Half)).length ≤ 125 ∧ (List.replicate 125 (7 : Half))[124]? = some 7 ∧
    (List.replicate 123 (7 : Half)).length ≤ 123 ∧ (List.replicate 123 (7 : Half))[122]? = some 7 := by decide +kernel
/-- Each of the seven forms, the longest of each. -/
theorem witness_WireFramesArriveInTheFrameBuffer :
    (Instr.wireReq03 1 0 2 0x0BC4).wf = true ∧ (Instr.wireRsp03 1 (List.replicate 125 7) 0).wf = true ∧
    (Instr.wireReq06 1 3 100 0x2178).wf = true ∧ (Instr.wireRsp06 1 3 100 0x2178).wf = true ∧
    (Instr.wireReq10 1 0 (List.replicate 123 7) 0).wf = true ∧ (Instr.wireRsp10 1 1 2 0x0810).wf = true ∧
    (Instr.wireExc 1 0x83 2 0xF1C0).wf = true ∧
    encode (.wireExc 1 0x83 2 0xF1C0) = .frame .response [0x01, 0x83, 0x02, 0xC0, 0xF1] := by decide +kernel
theorem witness_DecodeUndoesEncode : (Instr.frameParse 1 3 252).wf = true ∧
    (Instr.wireReq10 1 0 (List.replicate 123 7) 0).wf = true := by decide +kernel
theorem witness_EncodeUndoesDecode : decoded (decode (.command 0x000000FC00030112)) = (some (.frameParse 1 3 252), none) ∧
    decoded (decode (.frame .response scenarioResponse)) = (some (.wireRsp03 1 [20, 80] 0x0BBA), none) := by decide +kernel
theorem witness_LegalWordsMeetMatchAndMask :
    (∃ r ∈ commandTable, (0x000000FC00030112 : Word) &&& r.maskBits = r.matchBits) ∧
    ∀ r ∈ commandTable, (0x0000000100030111 : Word) &&& r.maskBits ≠ r.matchBits := by decide +kernel
/-- The ends of each reserved range. -/
theorem witness_ReservedOpcodesFailIllegalCommand :
    (opcField 0x00).toNat = 0x00 ∧ (0x04 ≤ (opcField 0x04).toNat ∧ (opcField 0x0F).toNat ≤ 0x0F) ∧
    (0x15 ≤ (opcField 0x15).toNat ∧ (opcField 0x1F).toNat ≤ 0x1F) ∧
    (0x26 ≤ (opcField 0x26).toNat ∧ (opcField 0x2F).toNat ≤ 0x2F) ∧ 0x33 ≤ (opcField 0xFF).toNat := by decide +kernel
/-- A word for each field. -/
theorem witness_NonzeroUnusedFieldsFailIllegalCommand :
    (∃ r ∈ commandTable, opcField 0x0000000001000302 = r.opc) ∧ resField 0x0000000001000302 ≠ 0 ∧
    (∃ r ∈ commandTable, opcField 0x0101 = r.opc ∧ r.a = none ∧ aField 0x0101 ≠ 0) ∧
    (∃ r ∈ commandTable, opcField 0x010102 = r.opc ∧ r.b = none ∧ bField 0x010102 ≠ 0) ∧
    (∃ r ∈ commandTable, opcField 0x0000000100030111 = r.opc ∧ r.c = none ∧ cField 0x0000000100030111 ≠ 0) ∧
    ∃ r ∈ commandTable, opcField 0x0001000000000225 = r.opc ∧ r.d = none ∧ dField 0x0001000000000225 ≠ 0 := by
  decide +kernel
theorem witness_AssemblyPlacesNamedOperands :
    assemble .FRAME_PARSE [(.addr, 255), (.fc, 255), (.cap, 65535)] = some 0x0000FFFF00FFFF12 ∧
    assemble .MRS_RD_REQ [(.count, 2)] = some 0x0002000000000020 ∧
    assemble .FRAME_PARSE [(.addr, 256)] = none ∧ assemble .CRC_RESET [(.byte, 0)] = none := by decide +kernel
theorem witness_FailureChangesOnlyStatus : after (hostCommand 0x0000000000000010 State.reset) State.status = some 1 ∧
    after (hostCommand 0x0000000000000004 State.reset) State.status = some 6 := by decide +kernel
/-- Commands of R181's table that fail, and that succeed. -/
theorem witness_CommandsLeaveOnlyTheirStatuses :
    (Instr.frameParse 1 3 252).isCommand = true ∧
    after (exec (.frameParse 1 3 252) (onFb scenarioResponse)) (fun t => (t.status, t.dFc)) = some (0, 0x03) ∧
    after (exec (.frameParse 1 6 252) (onFb scenarioResponse)) State.status = some 5 ∧
    after (exec (.frameBuild 1 0x06) (onPb [0x00, 0x03, 0x00, 0x64])) State.flen = some 8 ∧
    after (exec (.slaveParse 1) (onFb writeRequest)) State.rcount = some 2 ∧
    after (exec (.unmRdRsp 2) (onPb [0x04, 0x00, 0x14, 0x00, 0x50])) State.rcount = some 2 ∧
    after (exec (.mrsWmReq 1 2) (onRg [0x000A, 0x0102])) State.plen = some 9 := by decide +kernel
theorem witness_CommandsWriteOnlyTheirRegisters : (Instr.crcFeed 3).isCommand = true ∧
    after (exec (.crcFeed 3) { State.reset with acc := 0x807E }) State.acc = some 0x2140 ∧
    after (exec (.reqRemlen 0x10 2) State.reset) State.dLen = some 11 := by decide +kernel
/-- A command of each storing form, completing. -/
theorem witness_StoringCommandsKeepOtherElements : (Instr.mrsExc 2).isCommand = true ∧
    after (exec (.mrsExc 2) State.reset) State.plen = some 1 ∧
    after (exec (.mrsRdRsp 2) (onRg [0x0014, 0x0050])) State.plen = some 5 ∧
    after (exec (.slaveParse 1) (onFb readRequest)) State.dFc = some 0x03 := by decide +kernel
theorem witness_FaultsNameUnwrittenElements :
    faultOf (exec (.crcBuf 2) (onFb [0x00])) = some (.unwrittenFb 1) ∧
    faultOf (exec (.frameBuild 1 0x03) { State.reset with plen := 2 }) = some (.unwrittenPb 0) ∧
    faultOf (exec (.mrsRdRsp 2) (onRg [7])) = some (.unwrittenRg 1) := by decide +kernel
/-- A buffer of `n` elements, all `v`. -/
def filled {α : Type} (v : α) (n : Nat) : Memory α := Memory.writeRange [] 0 (List.replicate n v)
theorem filled_written {α : Type} (v : α) (n : Nat) : (filled v n).written n := by
  intro k hk
  rw [filled, (stored_writeRange [] (List.replicate n v)).1 k (by simpa using hk), List.getElem?_replicate, if_pos hk]
  rfl
theorem allWritten_of {f p : Memory Byte} {r : Memory Half} (hf : f.written 256) (hp : p.written 256) (hr : r.written 125) :
    ({ State.reset with fb := f, pb := p, rg := r } : State).allWritten := ⟨hf, hp, hr⟩
theorem witness_EveryCommandWordCompletes : ∃ s : State, s.allWritten :=
  ⟨_, allWritten_of (f := filled 0 256) (p := filled 0 256) (r := filled 0 125) (filled_written _ _) (filled_written _ _)
    (filled_written _ _)⟩
theorem witness_NoCommandReadsRcount :
    after (exec (.mrsRdRsp 2) { onRg [0x0014, 0x0050] with rcount := 7 }) (fun t => (t.status, t.plen, t.rcount)) =
      some (0, 5, 7) ∧
    faultOf (exec (.mrsRdRsp 2) { onRg [0x0014] with rcount := 7 }) = some (.unwrittenRg 1) := by decide +kernel
/-- Each status of SLAVE_PARSE: FLEN above 256, a count of 124, an invalid own, another address, an accepted request, a short
frame, a wrong checksum, an unrecognised function code. -/
theorem witness_SlaveParseFailuresAreClassified :
    after (exec (.slaveParse 1) { State.reset with flen := 257 }) State.status = some 2 ∧
    after (exec (.slaveParse 1) (onFb [0x01, 0x10, 0x00, 0x01, 0x00, 0x7C, 0x00])) State.status = some 2 ∧
    after (exec (.slaveParse 0) State.reset) State.status = some 1 ∧
    after (exec (.slaveParse 1) (onFb [0x02, 0x03, 0x00, 0x00, 0x00, 0x02, 0xC4, 0x38])) State.status = some 1 ∧
    after (exec (.slaveParse 1) (onFb writeRequest)) State.status = some 0 ∧
    after (exec (.slaveParse 1) State.reset) State.status = some 3 ∧
    after (exec (.slaveParse 1) (onFb [0x01, 0x03, 0x00, 0x00, 0x00, 0x02, 0x00, 0x00])) State.status = some 4 ∧
    after (exec (.slaveParse 1) (onFb [0x01, 0x04])) State.status = some 5 := by
  decide +kernel
/-- One result in each row of R183's table, and a plain OK. -/
theorem witness_ResultsHaveTheirErrorClass :
    after (exec (.addrCheck 0) State.reset) State.status = some Status.invalidAddress.code ∧
    after (exec (.mrsExc 9) State.reset) State.status = some Status.invalidParameter.code ∧
    after (exec (.reqRemlen 0x10 124) State.reset) State.status = some Status.invalidParameter.code ∧
    after (exec (.frameParse 1 6 252) (onFb scenarioResponse)) State.status = some Status.invalidFunctionCode.code ∧
    after (exec (.unmRdRsp 1) State.reset) State.status = some Status.invalidResponse.code ∧
    after (exec (.frameParse 1 0x03 252) (onFb [0x01, 0x03, 0x00, 0x00])) State.status = some Status.checksumError.code ∧
    after (exec (.frameParse 1 0x03 252) (onFb [0x01, 0x83, 0x02, 0xC0, 0xF1])) (fun t => (t.status, t.rspKind)) =
      some (Status.ok.code, 1) ∧
    after (exec .crcReset State.reset) State.status = some Status.ok.code := by decide +kernel
/-- A written and an unwritten element at each end of each buffer. -/
theorem witness_HostReadsReturnTheirLocation :
    (({ State.reset with fb := [(255, 7)] } : State).fb.read 255 = some 7 ∧ (onPb [7]).pb.read 0 = some 7) ∧
    ({ State.reset with rg := [(124, 7)] } : State).rg.read 124 = some 7 ∧ State.reset.fb.read 0 = none ∧
    State.reset.pb.read 255 = none ∧ State.reset.rg.read 124 = none := by decide +kernel
theorem witness_CmdReadsBackTheLastWord : after (hostCommand 0x0000000000000302 State.reset) State.cmd = some 0x302 := by
  decide +kernel
theorem no_location {off : Nat} (h : locAt off = none) (l : Loc) : l.offset ≠ off := by
  rintro rfl
  rw [locAt_offset] at h
  cases h
/-- Offsets with no location, and locations with another width and read only. -/
theorem witness_UnadmittedAccessesAreRefused : (∀ l : Loc, l.offset ≠ 0x2FA) ∧ (∀ l : Loc, l.offset ≠ 0x600) ∧
    AccessWidth.w32 ≠ Loc.cmd.width ∧ (HostData.b8 0).width ≠ Loc.acc.width ∧
    (HostData.b16 0).width = (Loc.t 255).width :=
  ⟨no_location (by decide), no_location (by decide), by decide, by decide, rfl⟩
theorem witness_HostReadsHaveNoSideEffect : after (hostAccess (.read 0x30A .w16) State.reset) (fun t => (t.reply, t.draws)) =
    some ([.b16 0xFFFF], 0) := by decide +kernel
/-- A line of each kind, the longest loads and the last index. -/
theorem witness_PseudoOperationsExpand :
    (∃ bytes : List Byte, bytes.length = 256 ∧ (onLine (.loadFb bytes)).program[0]? = some (.loadFb bytes)) ∧
    (∃ bytes : List Byte, bytes.length = 256 ∧ (onLine (.loadPb bytes)).program[0]? = some (.loadPb bytes)) ∧
    (∃ values : List Half, values.length = 125 ∧ (onLine (.loadRg values)).program[0]? = some (.loadRg values)) ∧
    (onLine (.pokeFb 255 1)).program[0]? = some (.pokeFb 255 1) ∧ (onLine (.read .acc)).program[0]? = some (.read .acc) ∧
    (onLine (.access (.read 0x309 .w8))).program[0]? = some (.access (.read 0x309 .w8)) ∧
    (∃ bytes : List Byte, bytes.length = 257 ∧ (onLine (.loadFb bytes)).program[0]? = some (.loadFb bytes)) ∧
    (∃ values : List Half, values.length = 126 ∧ (onLine (.loadRg values)).program[0]? = some (.loadRg values)) :=
  ⟨⟨List.replicate 256 0, List.length_replicate, onLine_line _⟩, ⟨List.replicate 256 0, List.length_replicate, onLine_line _⟩,
    ⟨List.replicate 125 0, List.length_replicate, onLine_line _⟩, onLine_line _, onLine_line _, onLine_line _,
    ⟨List.replicate 257 0, List.length_replicate, onLine_line _⟩, ⟨List.replicate 126 0, List.length_replicate, onLine_line _⟩⟩
/-- READ FB[0..FLEN): a written and an unwritten byte, the longest frame, and one past the buffer's end. -/
theorem witness_PseudoOperationsExpand_readFrame :
    (let s : State := { onLine .readFrame with fb := [(0, 7)], flen := 2 }
     s.program[s.pc]? = some .readFrame ∧ s.fb.read 0 = some 7 ∧ s.fb.read 1 = none ∧ 1 < s.flen.toNat) ∧
    ({ onLine .readFrame with flen := 256 } : State).flen.toNat = 256 ∧
    refusalOf (step { onLine .readFrame with flen := 257 }) = some (.pastBufferEnd 256) := by decide +kernel
theorem witness_ProgramLinesMoveTheIndex : State.reset.program[State.reset.pc]? = none ∧
    (onLine .stop).program[0]? = some .stop ∧ (onLine (.brEq .acc 0 11)).program[0]? = some (.brEq .acc 0 11) ∧
    (onLine (.brStatus .ok 5)).program[0]? = some (.brStatus .ok 5) ∧
    after (step (onLine (.setFlen 9))) State.flen = some 9 :=
  ⟨rfl, onLine_line _, onLine_line _, onLine_line _, by decide⟩
theorem witness_StepRunsTheDecodedInstruction :
    (onLine (.command 0x000000FC00030112)).program[0]? = some (.command 0x000000FC00030112) ∧
    (onLine (.receive .response scenarioResponse)).program[0]? = some (.receive .response scenarioResponse) ∧
    decoded (decodeCommand 0x000000FC00030112) = (some (.frameParse 1 3 252), none) ∧
    decoded (decodeCommand 0x0000000100030111) = (none, some .unusedField) ∧
    decoded (decodeWire .response scenarioResponse) = (some (.wireRsp03 1 [20, 80] 0x0BBA), none) ∧
    decodeTableWord 64 0x0000000000000302 = some (.crcFeed 3) ∧
    (onLine (.receive .request [0x01, 0x04])).program[0]? = some (.receive .request [0x01, 0x04]) ∧
    decoded (decodeWire .request [0x01, 0x04]) = (none, some (.unrecognisedFunction 0x04)) ∧
    decoded (decodeWire .request []) = (none, some .noHeader) ∧
    decodeTableWord 8 0x80 = some (.wireExc 0 0x80 0 0) ∧
    decodeTableWord 8 0x10 = some (.wireReq10 0 0 [] 0) :=
  ⟨onLine_line _, onLine_line _, by decide +kernel⟩
theorem witness_StepRunsTheDecodedInstruction_tooLong : ∃ bytes : List Byte, bytes.length = 257 ∧
    (onLine (.receive .response bytes)).program[0]? = some (.receive .response bytes) ∧
    decodeWire .response bytes = .error (.unrecognisedFunction 0) :=
  ⟨List.replicate 257 0, List.length_replicate, onLine_line _, rfl⟩
theorem witness_WriteSingleRoundTripConfirms : 1 ≤ (1 : Byte).toNat ∧ (247 : Byte).toNat ≤ 247 := by decide
theorem witness_ReadResponseCarriesTheRegisters :
    (∃ regs : List Half, (125 : Half).toNat = regs.length ∧ (onRg regs).rg.holds 0 regs) ∧
    (1 : Half).toNat = [(20 : Half)].length ∧ (onRg [20]).rg.holds 0 [20] :=
  ⟨⟨List.replicate 125 7, List.length_replicate.symm, onRg_holds _⟩, by decide, by decide⟩
theorem witness_WriteRequestCarriesTheRegisters :
    (∃ regs : List Half, (123 : Half).toNat = regs.length ∧ (onRg regs).rg.holds 0 regs) ∧
    (1 : Half).toNat = [(20 : Half)].length ∧ (onRg [20]).rg.holds 0 [20] :=
  ⟨⟨List.replicate 123 7, List.length_replicate.symm, onRg_holds _⟩, by decide, by decide⟩
/-- Byte 0 changed, and the last byte. -/
theorem witness_FrameParseRejectsEveryChangedByte : chkOk scenarioResponse = true ∧ scenarioResponse[0]? = some 0x01 ∧
    (scenarioResponse[0]? ≠ some 0x02 ∧
      (onFb (scenarioResponse.set 0 0x02)).fb.holds 0 (scenarioResponse.set 0 0x02)) ∧
    (8 < scenarioResponse.length ∧ scenarioResponse[8]? ≠ some 0x0C ∧
      (onFb (scenarioResponse.set 8 0x0C)).fb.holds 0 (scenarioResponse.set 8 0x0C) ∧
      (onFb (scenarioResponse.set 8 0x0C)).flen.toNat = scenarioResponse.length) := by decide +kernel

end Sys2Proof.Tests
end

section
/-! PROOF. What a command keeps of the state's CMD and host side, and the two obligations about the state of the block: CMD
reads back the last word (R20), and the table ROM is R24's loop and R24's listing. -/

namespace Sys2Proof.Machine

variable {s t : State}

/-- Every instruction keeps CMD and the host's own fields: no rule of R20 to R38 has a command or a frame write them. -/
theorem exec_keeps_cmd_and_host {i : Instr} (h : exec i s = .next t) :
    t = { t with cmd := s.cmd, program := s.program, pc := s.pc, reply := s.reply, draws := s.draws } := by
  cases hc : i.isCommand with
  | false =>
    obtain ⟨bytes, -, rfl⟩ := exec_wire_cases hc h
    rfl
  | true =>
    cases i with
    | crcReset => obtain rfl := execCrcReset_cases h; rfl
    | crcFeed byte => obtain rfl := execCrcFeed_cases h; rfl
    | crcBuf n => obtain ⟨-, rfl⟩ | ⟨bytes, -, -, -, rfl⟩ := execCrcBuf_cases h <;> rfl
    | addrCheck addr => obtain ⟨-, rfl⟩ | ⟨-, rfl⟩ := execAddrCheck_cases h <;> rfl
    | frameBuild addr fc =>
      obtain ⟨-, rfl⟩ | ⟨-, -, rfl⟩ | ⟨payload, -, -, -, -, rfl⟩ := execFrameBuild_cases h <;> rfl
    | frameParse addr fc cap =>
      obtain (rfl | rfl | rfl | rfl) | ⟨code, -, -, -, -, rfl⟩ | ⟨payload, -, -, -, -, -, rfl⟩ :=
        execFrameParse_cases h <;> rfl
    | slaveParse own =>
      obtain hfail | ⟨f, cnt, -, hdecode, -⟩ := execSlaveParse_cases h
      · obtain rfl | rfl | rfl | rfl | rfl := hfail <;> rfl
      · obtain ⟨ah, al, vh, vl, -, -, -, -, -, rfl⟩ | ⟨ah, al, vh, vl, -, -, -, -, -, rfl⟩ |
          ⟨ah, al, bc, data, -, -, -, -, -, -, -, rfl⟩ := slaveDecode_cases hdecode <;> rfl
    | reqRemlen fc count =>
      obtain (⟨-, -, rfl⟩ | ⟨-, rfl⟩) | ⟨-, rfl⟩ | ⟨-, -, rfl⟩ := execReqRemlen_cases h <;> rfl
    | mrsRdReq start count => obtain rfl | ⟨-, -, rfl⟩ := execMrsRdReq_cases h <;> rfl
    | mrsWs addr value => obtain rfl := marshalPair_cases h; rfl
    | mrsWmReq start count => obtain rfl | ⟨vs, -, -, -, -, rfl⟩ := execMrsWmReq_cases h <;> rfl
    | mrsRdRsp count => obtain rfl | ⟨vs, -, -, -, -, rfl⟩ := execMrsRdRsp_cases h <;> rfl
    | mrsWmRsp start count => obtain rfl := marshalPair_cases h; rfl
    | mrsExc code => obtain rfl | ⟨-, -, rfl⟩ := execMrsExc_cases h <;> rfl
    | unmRdRsp count => obtain (rfl | rfl) | ⟨data, -, -, -, -, -, rfl⟩ := execUnmRdRsp_cases h <;> rfl
    | chkWsRsp addr value => obtain rfl | rfl | ⟨-, -, rfl⟩ := checkEcho_cases h <;> rfl
    | chkWmRsp start count => obtain rfl | rfl | ⟨-, -, rfl⟩ := checkEcho_cases h <;> rfl
    | _ => cases hc

/-- What running a command word can do: an illegal word writes IllegalCommand, a legal one runs its command (R70, R75). -/
theorem runCommand_cases {w : Word} (h : runCommand w s = .next t) :
    (∃ e, decodeCommand w = .error e ∧ t = s.setStatus 6) ∨ ∃ i, decodeCommand w = .ok i ∧ exec i s = .next t := by
  unfold runCommand at h
  split at h
  · exact .inl ⟨_, ‹_›, by simpa [Status.code] using h⟩
  · exact .inr ⟨_, ‹_›, h⟩

/-- A command word, legal or not, keeps CMD and the host's own fields. -/
theorem runCommand_keeps_cmd_and_host {w : Word} (h : runCommand w s = .next t) :
    t = { t with cmd := s.cmd, program := s.program, pc := s.pc, reply := s.reply, draws := s.draws } := by
  obtain ⟨e, -, rfl⟩ | ⟨i, -, hi⟩ := runCommand_cases h
  · rfl
  · exact exec_keeps_cmd_and_host hi

/-- A completed write of CMD leaves the word in it (R20). -/
theorem hostCommand_cmd {w : Word} (h : hostCommand w s = .next t) : t.cmd = w :=
  congrArg State.cmd (runCommand_keeps_cmd_and_host h)

/-- A host read of CMD returns its word and makes no draw (R54). -/
theorem hostAccess_read_cmd (s : State) :
    hostAccess (.read 0x300 .w64) s = .next { s with reply := [.b64 s.cmd] } :=
  hostAccess_read_loc .cmd

/-- A host write of CMD is the execution of the word (R20). -/
theorem hostAccess_write_cmd (w : Word) (s : State) :
    hostAccess (.write 0x300 (.b64 w)) s = hostCommand w s :=
  hostAccess_write_loc (l := .cmd) (d := .b64 w) rfl rfl

/-- Settles O49: whatever the word does once CMD holds it, no command writes CMD, so the read returns the word. -/
theorem cmdReadsBackTheLastWord : Obligations.CmdReadsBackTheLastWord := by
  refine ⟨fun w s => ⟨hostAccess_write_cmd w s, rfl⟩, fun w s t h => ?_, hostAccess_read_cmd State.reset⟩
  rw [hostAccess_read_cmd, hostCommand_cmd h]

/-- The table's loop is the iterated division step. -/
theorem crcSteps_eq_iterate (n : Nat) (c : Half) : crcSteps n c = crcStep^[n] c := by
  induction n generalizing c with
  | zero => rfl
  | succ n ih => rw [crcSteps, ih, Function.iterate_succ_apply]

/-- Settles O5: the loop by unrolling the model's recursion, the listing by the kernel's evaluation of its 256 entries. -/
theorem tableIsTheListing : Obligations.TableIsTheListing :=
  ⟨fun i => crcSteps_eq_iterate 8 (i.setWidth 16), by decide +kernel⟩

end Sys2Proof.Machine
end

section
/-! PROOF. R55: the accesses that the host bus refuses, one lemma per ground of refusal, and the gaps of the register map. -/

namespace Sys2Proof.Machine

variable {s : State}

/-- The map finds nothing at an offset exactly when no location starts there. -/
theorem locAt_eq_none_iff {off : Nat} : locAt off = none ↔ ∀ l : Loc, l.offset ≠ off := by
  constructor
  · rintro h l rfl
    simp at h
  · intro h
    exact Option.eq_none_iff_forall_ne_some.2 fun l hl => h l (offset_of_locAt hl)

/-- A read where no location starts is refused. -/
theorem hostAccess_read_no_location {off : Nat} (h : ∀ l : Loc, l.offset ≠ off) (w : AccessWidth) :
    hostAccess (.read off w) s = .refused (.noLocation off) := by
  simp [hostAccess, locAt_eq_none_iff.2 h]

/-- A write where no location starts is refused. -/
theorem hostAccess_write_no_location {off : Nat} (h : ∀ l : Loc, l.offset ≠ off) (d : HostData) :
    hostAccess (.write off d) s = .refused (.noLocation off) := by
  simp [hostAccess, locAt_eq_none_iff.2 h]

/-- A read at another width than the location's is refused. -/
theorem hostAccess_read_wrong_width {l : Loc} {w : AccessWidth} (h : w ≠ l.width) :
    hostAccess (.read l.offset w) s = .refused (.wrongWidth l) := by
  simp [hostAccess, h.symm]

/-- A write at another width than the location's is refused, before its right to be written is asked. -/
theorem hostAccess_write_wrong_width {l : Loc} {d : HostData} (h : d.width ≠ l.width) :
    hostAccess (.write l.offset d) s = .refused (.wrongWidth l) := by
  simp [hostAccess, h.symm]

/-- A write of a read-only location at its width is refused. -/
theorem hostAccess_write_read_only {l : Loc} {d : HostData} (hw : d.width = l.width) (h : l.writable = false) :
    hostAccess (.write l.offset d) s = .refused (.readOnly l) := by
  simp [hostAccess, hw, h]

/-- The locations R54 marks read are the ones the bus does not write. -/
theorem writable_eq_false_iff {l : Loc} : l.writable = false ↔
    l = .status ∨ l = .acc ∨ l = .rspKind ∨ l = .excCode ∨ l = .dFc ∨ l = .dAddr ∨ l = .dCount ∨ l = .dValue ∨
      l = .dBc ∨ l = .dLen ∨ ∃ i, l = .t i := by
  cases l <;> simp [Loc.writable]

/-- Where the locations of R54 start: in the buffers below 0x2FA, in the registers from 0x300 to 0x31C, or in the table. -/
theorem offset_bounds (l : Loc) : l.offset < 0x2FA ∨
    (0x300 ≤ l.offset ∧ l.offset ≤ 0x31C ∧ l.offset ≠ 0x309 ∧ l.offset ≠ 0x31B) ∨
    (0x400 ≤ l.offset ∧ l.offset < 0x600) := by
  cases l with
  | fb i | pb i | rg i => left; simp only [Loc.offset]; omega
  | t i => right; right; simp only [Loc.offset]; omega
  | _ => right; left; simp only [Loc.offset]; omega

/-- Settles O50: each ground of refusal by its own lemma, the gaps by the bounds of the locations' offsets. -/
theorem unadmittedAccessesAreRefused : Obligations.UnadmittedAccessesAreRefused := by
  intro s
  refine ⟨fun off h => ⟨hostAccess_read_no_location h, hostAccess_write_no_location h⟩,
    fun l w h => hostAccess_read_wrong_width h, fun l d h => hostAccess_write_wrong_width h,
    fun l d hw h => hostAccess_write_read_only hw (writable_eq_false_iff.2 h), ?_⟩
  intro off hgap l hl
  have hl' := offset_bounds l
  omega

end Sys2Proof.Machine
end

section
/-! PROOF. The layouts of the wire frames, index by index (R78 to R84): where a frame's register data and its checksum stand
behind the bytes before them. -/

namespace Sys2Proof.Machine

/-- Register `k` is laid out as bytes `2k` and `2k+1`, high byte first (R57). -/
theorem bytesBe16List_getElem? {regs : List Half} {k : Nat} {v : Half} (h : regs[k]? = some v) :
    (bytesBe16List regs)[2 * k]? = some (hi v) ∧ (bytesBe16List regs)[2 * k + 1]? = some (lo v) := by
  induction regs generalizing k with
  | nil => simp at h
  | cons r rs ih =>
    cases k with
    | zero =>
      obtain rfl : r = v := by simpa using h
      exact ⟨rfl, rfl⟩
    | succ k => exact ih (by simpa using h)

/-- The index of a byte behind a head is the head's length further on. -/
theorem getElem?_append_length_add (head tail : List Byte) (i : Nat) : (head ++ tail)[head.length + i]? = tail[i]? := by
  rw [List.getElem?_append_right (Nat.le_add_right _ _), Nat.add_sub_cancel_left]

/-- Behind a head, register `k` of a frame stands `2k` bytes on (R79, R82). -/
theorem frame_register_getElem? (head : List Byte) {regs : List Half} {k : Nat} {v : Half} (h : regs[k]? = some v)
    (chk : Half) :
    (head ++ (bytesBe16List regs ++ [lo chk, hi chk]))[head.length + 2 * k]? = some (hi v) ∧
    (head ++ (bytesBe16List regs ++ [lo chk, hi chk]))[head.length + 1 + 2 * k]? = some (lo v) := by
  obtain ⟨hhi, hlo⟩ := bytesBe16List_getElem? h
  rw [Nat.add_assoc head.length, Nat.add_comm 1, getElem?_append_length_add, getElem?_append_length_add]
  have before : ∀ {i b}, (bytesBe16List regs)[i]? = some b → (bytesBe16List regs ++ [lo chk, hi chk])[i]? = some b :=
    fun hb => (List.getElem?_append_left (List.getElem?_eq_some_iff.1 hb).1).trans hb
  exact ⟨before hhi, before hlo⟩

/-- Behind a head and the register data, a frame ends with its checksum, low byte first (R58). -/
theorem frame_checksum_getElem? (head : List Byte) (regs : List Half) (chk : Half) :
    (head ++ (bytesBe16List regs ++ [lo chk, hi chk]))[head.length + 2 * regs.length]? = some (lo chk) ∧
    (head ++ (bytesBe16List regs ++ [lo chk, hi chk]))[head.length + 1 + 2 * regs.length]? = some (hi chk) := by
  rw [Nat.add_assoc head.length, Nat.add_comm 1, getElem?_append_length_add, getElem?_append_length_add,
    ← bytesBe16List_length regs]
  exact ⟨getElem?_append_length_add _ _ 0, getElem?_append_length_add _ _ 1⟩

/-- Settles O30: the fixed layouts by the encoder's equations, the two with registers by where the data and the checksum
stand behind their heads of 3 and of 7 bytes. -/
theorem wireFramesFollowTheirLayouts : Obligations.WireFramesFollowTheirLayouts := by
  intro a x y chk
  refine ⟨rfl, rfl, rfl, rfl, fun fc code => rfl, fun regs _ => ?_, fun regs _ => ?_⟩
  · refine ⟨_, rfl, ?_, rfl, rfl, rfl, fun k v h => frame_register_getElem? [_, _, _] h chk,
      frame_checksum_getElem? [_, _, _] regs chk⟩
    simp only [frameOf, readResponsePayload, List.length_cons, List.length_append, bytesBe16List_length, List.length_nil]
    omega
  · refine ⟨_, rfl, ?_, rfl, rfl, rfl, rfl, rfl, rfl, rfl,
      fun k v h => frame_register_getElem? [_, _, _, _, _, _, _] h chk,
      frame_checksum_getElem? [_, _, _, _, _, _, _] regs chk⟩
    simp only [frameOf, writeRequestPayload, readResponsePayload, List.length_cons, List.length_append, bytesBe16_length,
      bytesBe16List_length, List.length_nil]
    omega

end Sys2Proof.Machine
end

section
/-! PROOF. Which command words are legal (R70 to R75): R73's table as the decoder reads it, a word's legality field by field,
and the effect of an illegal word. -/

namespace Sys2Proof.Machine

variable {w : Word} {s : State} {r : CommandRow}

/-- The word is legal by the row: its opcode is the row's, and RES and the fields the row does not use are 0 (R73, R74). -/
def LegalBy (r : CommandRow) (w : Word) : Prop :=
  opcField w = r.opc ∧ resField w = 0 ∧ (r.a = none → aField w = 0) ∧ (r.b = none → bField w = 0) ∧
    (r.c = none → cField w = 0) ∧ (r.d = none → dField w = 0)

/-- The fields a row uses are those it names an operand for. -/
def fieldUse (r : CommandRow) : FieldUse := ⟨r.a.isSome, r.b.isSome, r.c.isSome, r.d.isSome⟩

/-- The bits a row's mask fixes in a field: none where the row names an operand for it, else all of them. -/
def fieldMask (n : Nat) (name : Option OperandName) : BitVec n := if name = none then BitVec.allOnes n else 0

/-- R73's match and mask columns, field by field, are what its opcode and operand columns say. -/
theorem matchBits_maskBits_fields (hr : r ∈ commandTable) :
    opcField r.maskBits = BitVec.allOnes 8 ∧ opcField r.matchBits = r.opc ∧
    aField r.maskBits = fieldMask 8 r.a ∧ aField r.matchBits = 0 ∧
    bField r.maskBits = fieldMask 8 r.b ∧ bField r.matchBits = 0 ∧
    resField r.maskBits = BitVec.allOnes 8 ∧ resField r.matchBits = 0 ∧
    cField r.maskBits = fieldMask 16 r.c ∧ cField r.matchBits = 0 ∧
    dField r.maskBits = fieldMask 16 r.d ∧ dField r.matchBits = 0 := by
  revert r
  decide

/-- A field is 0 under its row's mask exactly where the row uses it or it is 0. -/
theorem and_fieldMask_eq_zero {n : Nat} {v : BitVec n} {name : Option OperandName} :
    v &&& fieldMask n name = 0 ↔ (name = none → v = 0) := by
  unfold fieldMask
  split <;> simp [*]

/-- Meeting a row's match and mask is being legal by it (R70). -/
theorem meets_iff_legalBy (hr : r ∈ commandTable) : w &&& r.maskBits = r.matchBits ↔ LegalBy r w := by
  obtain ⟨mo, po, ma, pa, mb, pb, mr, pr, mc, pc, md, pd⟩ := matchBits_maskBits_fields hr
  rw [and_eq_iff_fields, mo, po, ma, pa, mb, pb, mr, pr, mc, pc, md, pd, BitVec.and_allOnes, BitVec.and_allOnes,
    and_fieldMask_eq_zero, and_fieldMask_eq_zero, and_fieldMask_eq_zero, and_fieldMask_eq_zero, LegalBy]
  tauto

/-- The field check of a row's fields passes exactly the words of its opcode that are legal by the row. -/
theorem checkFields_fieldUse_eq_ok {i j : Instr} (ho : opcField w = r.opc) :
    checkFields w (fieldUse r) i = .ok j ↔ j = i ∧ LegalBy r w := by
  simp [checkFields_eq_ok, fieldUse, LegalBy, ho]

/-- A word with a row's opcode decodes by the check of the row's fields. -/
theorem decodeCommand_of_opc (hr : r ∈ commandTable) (ho : opcField w = r.opc) :
    ∃ i, decodeCommand w = checkFields w (fieldUse r) i := by
  fin_cases hr <;> exact ⟨_, by rw [decodeCommand, ho]; rfl⟩

/-- A word that decodes has the opcode of one of the rows. -/
theorem opc_of_decodeCommand {i : Instr} (h : decodeCommand w = .ok i) : ∃ r ∈ commandTable, opcField w = r.opc := by
  by_contra! hne
  have hno : ∀ n, (∃ r ∈ commandTable, r.opc.toNat = n) → (opcField w).toNat ≠ n := by
    rintro n ⟨r, hr, rfl⟩ ho
    exact hne r hr (BitVec.eq_of_toNat_eq ho)
  unfold decodeCommand at h
  split at h
  case h_18 => cases h
  all_goals exact absurd ‹(opcField w).toNat = _› (hno _ (by decide))

/-- The decoder gives a command exactly for the words that are legal by a row (R70 to R75). -/
theorem decodeCommand_ok_iff : (∃ i, decodeCommand w = .ok i) ↔ ∃ r ∈ commandTable, LegalBy r w := by
  constructor
  · rintro ⟨i, h⟩
    obtain ⟨r, hr, ho⟩ := opc_of_decodeCommand h
    obtain ⟨j, hj⟩ := decodeCommand_of_opc hr ho
    exact ⟨r, hr, ((checkFields_fieldUse_eq_ok ho).1 (hj ▸ h)).2⟩
  · rintro ⟨r, hr, hw⟩
    obtain ⟨i, hi⟩ := decodeCommand_of_opc hr hw.1
    exact ⟨i, hi.trans ((checkFields_fieldUse_eq_ok hw.1).2 ⟨rfl, hw⟩)⟩

/-- A word that decodes is executed as its command (R70). -/
theorem runCommand_of_ok {i : Instr} (h : decodeCommand w = .ok i) : runCommand w s = exec i s := by
  rw [runCommand, h]

/-- A word legal by no row fails IllegalCommand and writes STATUS alone (R70, R75). -/
theorem runCommand_of_not_legalBy (h : ∀ r ∈ commandTable, ¬ LegalBy r w) :
    runCommand w s = .next { s with status := 6 } := by
  cases hd : decodeCommand w with
  | ok i =>
    obtain ⟨r, hr, hw⟩ := decodeCommand_ok_iff.1 ⟨i, hd⟩
    exact absurd hw (h r hr)
  | error e =>
    rw [runCommand, hd]
    rfl

/-- No two rows have one opcode. -/
theorem opc_inj (hr : r ∈ commandTable) : ∀ r' ∈ commandTable, r.opc = r'.opc → r = r' := by
  revert r
  decide

/-- The opcodes of R73 are none of R75's reserved ranges. -/
theorem opc_not_reserved (hr : r ∈ commandTable) :
    (1 ≤ r.opc.toNat ∧ r.opc.toNat ≤ 0x03) ∨ (0x10 ≤ r.opc.toNat ∧ r.opc.toNat ≤ 0x14) ∨
      (0x20 ≤ r.opc.toNat ∧ r.opc.toNat ≤ 0x25) ∨ (0x30 ≤ r.opc.toNat ∧ r.opc.toNat ≤ 0x32) := by
  revert r
  decide

/-- Settles O35: meeting a row's match and mask is being legal by it, and the decoder takes exactly the legal words. -/
theorem legalWordsMeetMatchAndMask : Obligations.LegalWordsMeetMatchAndMask := by
  refine fun w s => ⟨fun ⟨r, hr, hw⟩ => ?_, fun h => ?_⟩
  · obtain ⟨i, hi⟩ := decodeCommand_ok_iff.2 ⟨r, hr, (meets_iff_legalBy hr).1 hw⟩
    exact ⟨i, decodeCommand_isCommand hi, hi, runCommand_of_ok hi⟩
  · exact runCommand_of_not_legalBy fun r hr hw => h r hr ((meets_iff_legalBy hr).2 hw)

/-- Settles O36: a reserved opcode is no row's, so the word is legal by no row. -/
theorem reservedOpcodesFailIllegalCommand : Obligations.ReservedOpcodesFailIllegalCommand := by
  intro w s hres
  refine runCommand_of_not_legalBy fun r hr hw => ?_
  have hopc := opc_not_reserved hr
  rw [← hw.1] at hopc
  omega

/-- Settles O37: only the row of its opcode could make the word legal, and that row demands the field to be 0. -/
theorem nonzeroUnusedFieldsFailIllegalCommand : Obligations.NonzeroUnusedFieldsFailIllegalCommand := by
  intro w s r hr ho hne
  refine runCommand_of_not_legalBy fun r' hr' ⟨ho', hres, ha, hb, hc, hd⟩ => ?_
  obtain rfl := opc_inj hr r' hr' (ho.symm.trans ho')
  obtain h | ⟨hu, h⟩ | ⟨hu, h⟩ | ⟨hu, h⟩ | ⟨hu, h⟩ := hne
  exacts [h hres, h (ha hu), h (hb hu), h (hc hu), h (hd hu)]

end Sys2Proof.Machine
end

section
/-! PROOF. The checksum as the bitwise division (R102): every update is eight division steps, the division steps lose nothing,
so a changed byte changes the checksum of every sequence that holds it (R104). -/

namespace Sys2Proof.Machine

/-- The low byte of a 16-bit value is its truncation. -/
theorem lo_eq_setWidth (v : Half) : lo v = v.setWidth 8 := (BitVec.setWidth_eq_extractLsb' (by decide)).symm

/-- The high byte of a 16-bit value, zero-extended, is the value shifted by 8. -/
theorem setWidth_hi (v : Half) : (hi v).setWidth 16 = v >>> 8 := by
  apply BitVec.eq_of_getLsbD_eq
  intro i hi'
  by_cases h : i < 8
  · simp [hi, h, hi']
  · simp [hi, h, BitVec.getLsbD_of_ge v (8 + i) (by omega)]

/-- A byte XORed into the low half of a value is shifted out by 8. -/
theorem xor_setWidth_ushiftRight (v : Half) (b : Byte) : (v ^^^ b.setWidth 16) >>> 8 = v >>> 8 := by
  apply BitVec.eq_of_getLsbD_eq
  intro i _
  simp

/-- With its low byte cleared, a value is only shifted by eight division steps. -/
theorem crcSteps_clear_lo (c : Half) : crcSteps 8 (c ^^^ (lo c).setWidth 16) = c >>> 8 := by
  rw [crcSteps_shift 8, xor_setWidth_ushiftRight]
  intro i hi'
  simp [lo_eq_setWidth, hi', show i < 16 by omega]

/-- Eight division steps of a value: those of its low byte, which the table lists, and a shift of the rest. -/
theorem crcSteps_eight (c : Half) : crcSteps 8 c = (c >>> 8) ^^^ crcTable (lo c) := by
  calc crcSteps 8 c
      = crcSteps 8 ((c ^^^ (lo c).setWidth 16) ^^^ (lo c).setWidth 16) := by
        rw [BitVec.xor_assoc, BitVec.xor_self, BitVec.xor_zero]
    _ = (c >>> 8) ^^^ crcTable (lo c) := by rw [crcSteps_xor, crcSteps_clear_lo, crcTable]

/-- One table-driven update is eight division steps (R102). -/
theorem crcUpdate_eq_crcSteps (acc : Half) (b : Byte) : crcUpdate acc b = crcSteps 8 (acc ^^^ b.setWidth 16) := by
  rw [crcSteps_eight, xor_setWidth_ushiftRight, crcUpdate]

/-- Settles O6: the eight steps split into the table's entry and a shift. -/
theorem updateIsEightDivisionSteps : Obligations.UpdateIsEightDivisionSteps := fun acc b =>
  (crcUpdate_eq_crcSteps acc b).trans (crcSteps_eq_iterate 8 _)

/-- A division step gives 0 for 0 alone: where the low bit is 1, bit 15 of the result is the divisor's. -/
theorem eq_zero_of_crcStep {c : Half} (h : crcStep c = 0) : c = 0 := by
  cases h0 : c.getLsbD 0 with
  | true =>
    have h15 := congrArg (BitVec.getLsbD · 15) h
    simp [crcStep, h0, crcPoly] at h15
  | false =>
    rw [crcStep_even h0] at h
    apply BitVec.eq_of_getLsbD_eq
    intro i _
    cases i with
    | zero => exact h0
    | succ i => simpa [Nat.add_comm] using congrArg (BitVec.getLsbD · i) h

/-- A division step loses nothing. -/
theorem crcStep_injective : Function.Injective crcStep := fun a b h => by
  rw [← BitVec.xor_eq_zero_iff] at h ⊢
  exact eq_zero_of_crcStep ((crcStep_xor a b).trans h)

/-- Nor do several. -/
theorem crcSteps_injective (n : Nat) : Function.Injective (crcSteps n) := by
  rw [funext (crcSteps_eq_iterate n)]
  exact crcStep_injective.iterate n

/-- Different accumulators stay different under one byte. -/
theorem crcUpdate_injective_acc (b : Byte) : Function.Injective (crcUpdate · b) := fun x y h => by
  simp only [crcUpdate_eq_crcSteps] at h
  exact (BitVec.xor_left_inj _).1 (crcSteps_injective 8 h)

/-- Different bytes take one accumulator to different ones. -/
theorem crcUpdate_injective_byte (acc : Half) : Function.Injective (crcUpdate acc) := fun x y h => by
  simp only [crcUpdate_eq_crcSteps] at h
  have hx : x.setWidth 16 = y.setWidth 16 := (BitVec.xor_right_inj _).1 (crcSteps_injective 8 h)
  simpa using congrArg (BitVec.setWidth 8) hx

/-- Different accumulators stay different under any sequence of bytes. -/
theorem foldl_crcUpdate_injective : ∀ bytes : List Byte, Function.Injective (bytes.foldl crcUpdate)
  | [] => fun _ _ h => h
  | b :: bytes => fun _ _ h => crcUpdate_injective_acc b (foldl_crcUpdate_injective bytes h)

/-- A checksum goes on from that of the bytes before (R104). -/
theorem crc16_append (a b : List Byte) : crc16 (a ++ b) = b.foldl crcUpdate (crc16 a) := List.foldl_append

/-- A frame with its checksum appended low byte first has checksum 0 (R104). -/
theorem crc16_sealFrame (body : List Byte) : crc16 (sealFrame body) = 0 := by
  have first : crcUpdate (crc16 body) (lo (crc16 body)) = (hi (crc16 body)).setWidth 16 := by
    rw [crcUpdate_eq_crcSteps, crcSteps_clear_lo, setWidth_hi]
  rw [sealFrame, crc16_append, List.foldl_cons, List.foldl_cons, List.foldl_nil, first, crcUpdate_eq_crcSteps,
    BitVec.xor_self]
  rfl

/-- A frame that passes the checksum test has checksum 0. -/
theorem crc16_of_chkOk {frame : List Byte} (h : chkOk frame = true) : crc16 frame = 0 := by
  obtain ⟨body, rfl⟩ := chkOk_eq_true h
  exact crc16_sealFrame body

/-- Two sequences that differ in one byte have different checksums. -/
theorem crc16_change_byte_injective (before after : List Byte) :
    Function.Injective fun b => crc16 (before ++ b :: after) := fun x y h => by
  simp only [crc16_append, List.foldl_cons] at h
  exact crcUpdate_injective_byte _ (foldl_crcUpdate_injective after h)

/-- Settles O7: both frames passing the test would have checksum 0, and sequences that differ in one byte have different
checksums. -/
theorem checksumDetectsEverySingleByteChange : Obligations.ChecksumDetectsEverySingleByteChange := by
  refine ⟨rfl, crc16_append, crc16_sealFrame, fun frame i b hframe hi hb => ?_⟩
  refine Bool.eq_false_iff.2 fun hset => hb ?_
  have old : crc16 (frame.take i ++ frame[i] :: frame.drop (i + 1)) = 0 := by
    rw [← List.drop_eq_getElem_cons hi, List.take_append_drop, crc16_of_chkOk hframe]
  have new : crc16 (frame.take i ++ b :: frame.drop (i + 1)) = 0 := by
    rw [← crc16_of_chkOk hset, List.set_eq_take_append_cons_drop, if_pos hi]
  have same : frame[i] = b := crc16_change_byte_injective _ _ (old.trans new.symm)
  rw [List.getElem?_eq_getElem hi, same]

/-- Settles O8: the checksum evaluated on the published bytes. -/
theorem publishedVectorsMatch : Obligations.PublishedVectorsMatch := by
  unfold Obligations.PublishedVectorsMatch
  decide

end Sys2Proof.Machine
end

section
/-! PROOF. The checksum commands (R110 to R112): their words, what each answers, and a stream of feeds. -/

namespace Sys2Proof.Machine

variable (s : State)

/-- CRC_RESET puts the seed in ACC (R110). -/
theorem exec_crcReset : exec .crcReset s = .next { s with acc := 0xFFFF, status := 0 } := rfl

/-- CRC_FEED updates ACC by one byte (R111). -/
theorem exec_crcFeed (b : Byte) :
    exec (.crcFeed b) s = .next { s with acc := crcUpdate s.acc b, status := 0 } := rfl

/-- CRC_BUF past the buffer's end fails (R112). -/
theorem exec_crcBuf_of_gt {n : Half} (h : 256 < n.toNat) : exec (.crcBuf n) s = .next { s with status := 2 } :=
  if_pos h

/-- CRC_BUF within the buffer reads its prefix and checksums it (R112). -/
theorem exec_crcBuf_of_le {n : Half} (h : n.toNat ≤ 256) :
    exec (.crcBuf n) s = withFbRange s 0 n.toNat fun bytes => ok (s.setAcc (crc16 bytes)) :=
  if_neg (Nat.not_lt.2 h)

variable {s}

/-- A stream of feeds folds the update over its bytes (R111). -/
theorem runsOk_crcFeed (hs : s.status = 0) (bytes : List Byte) :
    RunsOk (bytes.map .crcFeed) s { s with acc := bytes.foldl crcUpdate s.acc, status := 0 } := by
  induction bytes generalizing s with
  | nil => exact hs ▸ rfl
  | cons b bytes ih => exact ⟨_, exec_crcFeed s b, fun _ => rfl, ih rfl⟩

/-- Settles O9: the word is the packing of the opcode alone, the effect CRC_RESET's equation. -/
theorem crcResetSetsTheSeed : Obligations.CrcResetSetsTheSeed := ⟨by decide, exec_crcReset⟩

/-- Settles O10: CRC_FEED's equation, and the stream of feeds from the state that CRC_RESET leaves. -/
theorem crcFeedAdvancesTheAccumulator : Obligations.CrcFeedAdvancesTheAccumulator := by
  refine fun s => ⟨fun b => ⟨by simp [encode, packWord], ?_⟩, fun bytes => ?_⟩
  · rw [exec_crcFeed, crcUpdate, lo_eq_setWidth]
  · exact ⟨_, exec_crcReset s, fun _ => rfl, runsOk_crcFeed rfl bytes⟩

/-- Settles O11: past the end the check fails first; else the run of FB decides, read whole or stopped at the first unwritten
byte. -/
theorem crcBufChecksumsThePrefix : Obligations.CrcBufChecksumsThePrefix := by
  refine fun s n => ⟨by simp [encode, packWord], exec_crcBuf_of_gt s, fun bytes hlen hn hb => ?_, fun j hn hj hu => ?_⟩
  · rw [exec_crcBuf_of_le s hn, ← hlen, withFbRange_of_holds hb]
    rfl
  · rw [exec_crcBuf_of_le s hn, withFbRange_of_unwritten hu (by omega)]

end Sys2Proof.Machine
end

section
/-! PROOF. The Frame Codec's commands without a frame to parse (R120, R122, R140): what ADDR_CHECK, FRAME_BUILD and REQ_REMLEN
answer. -/

namespace Sys2Proof.Machine

/-- The valid addresses are 1 to 247 (R120). -/
theorem validAddr_eq_true {a : Byte} : validAddr a = true ↔ 1 ≤ a.toNat ∧ a.toNat ≤ 247 := by
  simp [validAddr]

/-- The invalid ones are 0 and 248 to 255 (R120). -/
theorem validAddr_eq_false {a : Byte} : validAddr a = false ↔ a.toNat = 0 ∨ 248 ≤ a.toNat := by
  rw [← Bool.not_eq_true, validAddr_eq_true]
  omega

variable {s : State} {a f : Byte}

/-- ADDR_CHECK answers by the address alone (R120). -/
theorem exec_addrCheck (s : State) (a : Byte) :
    exec (.addrCheck a) s = if validAddr a then ok s else fail .invalidAddress s := rfl

/-- Settles O12: the validity of the address decides. -/
theorem addrCheckAdmits1To247 : Obligations.AddrCheckAdmits1To247 := by
  refine fun s a => ⟨by simp [encode, packWord], fun hvalid => ?_, fun hinvalid => ?_⟩
  · rw [exec_addrCheck, validAddr_eq_true.2 hvalid]
    rfl
  · rw [exec_addrCheck, validAddr_eq_false.2 hinvalid]
    rfl

/-- FRAME_BUILD for an invalid address fails first (R122). -/
theorem exec_frameBuild_of_invalid (h : validAddr a = false) :
    exec (.frameBuild a f) s = .next { s with status := 1 } :=
  if_pos h

/-- FRAME_BUILD of a payload that makes the frame longer than FB fails next (R122). -/
theorem exec_frameBuild_of_gt (ha : validAddr a = true) (h : 256 < s.plen.toNat + 4) :
    exec (.frameBuild a f) s = .next { s with status := 2 } :=
  (if_neg (by simp [ha])).trans (if_pos h)

/-- FRAME_BUILD of a payload that fits reads it and leaves the sealed frame (R122). -/
theorem exec_frameBuild_of_le (ha : validAddr a = true) (h : s.plen.toNat + 4 ≤ 256) :
    exec (.frameBuild a f) s =
      withPbRange s 0 s.plen.toNat fun payload => ok (s.putFrame (sealFrame (a :: f :: payload))) :=
  (if_neg (by simp [ha])).trans (if_neg (Nat.not_lt.2 h))

/-- A frame left in FB is stored there, FLEN is its length, and nothing else is written. -/
theorem putFrame_eq {n : Half} {bytes : List Byte} (h : bytes.length = n.toNat) :
    s.putFrame bytes = { s with fb := s.fb.writeRange 0 bytes, flen := n } := by
  rw [State.putFrame, h, BitVec.ofNat_toNat, BitVec.setWidth_eq]
  rfl

/-- Settles O13: the checks in their order, then the run of PB decides: read whole, the sealed frame is stored and passes the
checksum test with residue 0; else it stops at the first unwritten byte. -/
theorem frameBuildFramesThePayload : Obligations.FrameBuildFramesThePayload := by
  refine fun s a f => ⟨by simp [encode, packWord], fun hinvalid => ?_, fun h1 h247 hgt => ?_,
    fun payload h1 h247 hlen hle hpb => ?_, fun j h1 h247 hle hj hu => ?_⟩
  · exact exec_frameBuild_of_invalid (validAddr_eq_false.2 hinvalid)
  · exact exec_frameBuild_of_gt (validAddr_eq_true.2 ⟨h1, h247⟩) hgt
  · have hflen : (sealFrame (a :: f :: payload)).length = (s.plen + 4).toNat := by
      rw [sealFrame_length, List.length_cons, List.length_cons, hlen, BitVec.toNat_add_of_lt (by simp; omega)]
      rfl
    refine ⟨{ s with fb := s.fb.writeRange 0 (sealFrame (a :: f :: payload)), flen := s.plen + 4, status := 0 }, ?_,
      stored_writeRange s.fb _, rfl, chkOk_sealFrame _, crc16_sealFrame _⟩
    rw [exec_frameBuild_of_le (validAddr_eq_true.2 ⟨h1, h247⟩) hle, ← hlen, withPbRange_of_holds hpb, putFrame_eq hflen]
    rfl
  · rw [exec_frameBuild_of_le (validAddr_eq_true.2 ⟨h1, h247⟩) hle, withPbRange_of_unwritten hu (by omega)]

/-- REQ_REMLEN for a read or a single write: six more bytes, whatever the count (R140). -/
theorem exec_reqRemlen_of_fixed (count : Half) (h : f = 0x03 ∨ f = 0x06) :
    exec (.reqRemlen f count) s = .next { s with dLen := 6, status := 0 } :=
  if_pos h

/-- REQ_REMLEN for a multiple write: by the count, which is at most 123 (R140). -/
theorem exec_reqRemlen_0x10 (s : State) (count : Half) :
    exec (.reqRemlen 0x10 count) s =
      if count.toNat > 123 then fail .invalidParameter s else ok (s.setDLen (BitVec.ofNat 16 (7 + 2 * count.toNat))) :=
  rfl

/-- REQ_REMLEN for a function code that a slave does not recognise (R140). -/
theorem exec_reqRemlen_of_other (count : Half) (h3 : f ≠ 0x03) (h6 : f ≠ 0x06) (h10 : f ≠ 0x10) :
    exec (.reqRemlen f count) s = .next { s with status := 5 } :=
  (if_neg (not_or.2 ⟨h3, h6⟩)).trans (if_neg h10)

/-- Settles O20: one equation per kind of function code, and for 0x10 its bound. -/
theorem reqRemlenComputesTheRemainder : Obligations.ReqRemlenComputesTheRemainder := by
  refine fun s f count => ⟨by simp [encode, packWord], exec_reqRemlen_of_fixed count, ?_, ?_,
    exec_reqRemlen_of_other count⟩
  · rintro rfl hle
    rw [exec_reqRemlen_0x10, if_neg (Nat.not_lt.2 hle)]
    rfl
  · rintro rfl hgt
    rw [exec_reqRemlen_0x10, if_pos hgt]
    rfl

end Sys2Proof.Machine
end

section
/-! PROOF. FRAME_PARSE (R125 to R127): its checks in their order up to the checksum, and what it answers for a whole frame. -/

namespace Sys2Proof.Machine

/-- A byte of a run that a buffer holds from index 0 on. -/
theorem Memory.read_of_holds {α : Type} {m : Memory α} {vs : List α} {k : Nat} {v : α} (h : m.holds 0 vs)
    (hk : vs[k]? = some v) : m.read k = some v := by
  rw [← hk, ← h k (List.getElem?_eq_some_iff.1 hk).1, Nat.zero_add]

variable {s : State} {a f : Byte} {cap : Half}

/-- FRAME_PARSE with FLEN past the end of FB (R127). -/
theorem exec_frameParse_of_gt (h : 256 < s.flen.toNat) :
    exec (.frameParse a f cap) s = .next { s with status := 2 } :=
  if_pos h

/-- FRAME_PARSE of a frame too short for a header and a checksum (R127). -/
theorem exec_frameParse_of_lt (h : s.flen.toNat < 4) :
    exec (.frameParse a f cap) s = .next { s with status := 3 } :=
  (if_neg (by omega)).trans (if_pos h)

/-- FRAME_PARSE of a frame from another address, before its checksum is looked at (R127). -/
theorem exec_frameParse_of_other_address {b : Byte} (h4 : 4 ≤ s.flen.toNat) (h256 : s.flen.toNat ≤ 256)
    (hb : s.fb.read 0 = some b) (hne : b ≠ a) : exec (.frameParse a f cap) s = .next { s with status := 3 } := by
  rw [exec, execFrameParse, if_neg (by omega), if_neg (by omega), withFb_of_read hb, if_pos hne]
  rfl

/-- FRAME_PARSE of a whole frame from the address asked for: the checksum first, then the function code (R125). -/
theorem exec_frameParse_of_holds {r chkLo chkHi : Byte} {payload : List Byte} (hlen : s.flen.toNat = payload.length + 4)
    (h256 : s.flen.toNat ≤ 256) (hfb : s.fb.holds 0 (a :: r :: payload ++ [chkLo, chkHi])) :
    exec (.frameParse a f cap) s =
      if crc16 (a :: r :: payload) ≠ be16 chkHi chkLo then fail .checksumError s
      else if r = f ||| 0x80 then parseException r s
      else if r ≠ f then fail .invalidFunctionCode s
      else parseNormal r cap s := by
  have hframe : s.flen.toNat = (a :: r :: payload ++ [chkLo, chkHi]).length := by simp [hlen]
  rw [exec, execFrameParse, if_neg (by omega), if_neg (by omega), withFb_of_read (Memory.read_of_holds hfb rfl),
    if_neg (not_not.2 rfl), hframe, withFbRange_of_holds hfb, withFb_of_read (Memory.read_of_holds hfb rfl), chkOk_append]
  simp only [decide_eq_false_iff_not]

/-- An exception response with a code byte is classified, PB and PLEN being kept (R126). -/
theorem parseException_of_read {r code : Byte} (h5 : 5 ≤ s.flen.toNat) (hcode : s.fb.read 2 = some code) :
    parseException r s = .next { s with rspKind := 1, excCode := code, dFc := r, status := 0 } := by
  rw [parseException, if_neg (by omega), withFb_of_read hcode]
  rfl

/-- An exception response without a code byte fails (R127). -/
theorem parseException_of_lt {r : Byte} (h : s.flen.toNat < 5) :
    parseException r s = .next { s with status := 3 } :=
  if_pos h

/-- A normal response whose payload is longer than the room for it fails (R127). -/
theorem parseNormal_of_lt {r : Byte} (h : cap.toNat < s.flen.toNat - 4) :
    parseNormal r cap s = .next { s with status := 2 } :=
  if_pos h

/-- Settles O15: the frame is whole, its payload the code and what follows it, so the checksum decides and then the function
code, which is `f ||| 0x80` as well for a request code that has bit 7 set already. -/
theorem exceptionResponsesAreClassified : Obligations.ExceptionResponsesAreClassified := by
  intro s a f cap code rest chkLo chkHi hlen h256 hfb
  have hparse (g : Byte) := exec_frameParse_of_holds (f := g) (cap := cap) (payload := code :: rest) hlen h256 hfb
  have hclass := parseException_of_read (r := f ||| 0x80) (by omega) (Memory.read_of_holds hfb rfl)
  have hbit : f ||| 0x80 = (f ||| 0x80) ||| 0x80 := by rw [BitVec.or_assoc, BitVec.or_self]
  refine ⟨fun hcrc => ⟨?_, ?_⟩, fun hcrc => ?_⟩
  · rw [hparse, if_neg (not_not.2 hcrc), if_pos rfl, hclass]
  · rw [hparse, if_neg (not_not.2 hcrc), if_pos hbit, hclass]
  · rw [hparse, if_pos hcrc]
    rfl

/-- Settles O16: the checks before the checksum by their own equations, those after it by the equation of a whole frame. -/
theorem frameParseFailurePriority : Obligations.FrameParseFailurePriority := by
  refine fun s a f cap => ⟨exec_frameParse_of_gt, exec_frameParse_of_lt, fun h4 h256 =>
    ⟨fun b hb hne => exec_frameParse_of_other_address h4 h256 hb hne, fun r payload chkLo chkHi hlen hfb => ?_⟩⟩
  rw [exec_frameParse_of_holds hlen h256 hfb]
  refine ⟨fun hcrc => if_pos hcrc, fun hcrc => ?_⟩
  rw [if_neg (not_not.2 hcrc)]
  refine ⟨fun hexc hnil => ?_, fun hexc hf => ?_, fun hexc hf hcap => ?_⟩
  · rw [if_pos hexc, parseException_of_lt (by simp [hlen, hnil])]
  · rw [if_neg hexc, if_pos hf]
    rfl
  · rw [if_neg hexc, if_neg (not_not.2 hf), parseNormal_of_lt (by omega)]

end Sys2Proof.Machine
end

section
/-! PROOF. SLAVE_PARSE of an accepted request (R132, R133): the header's checks, the whole frame's, and the decode by function
code. -/

namespace Sys2Proof.Machine

variable {s : State} {own f : Byte}

/-- A frame addressed to the slave with a function code it recognises goes on to the check of its length (R132). -/
theorem exec_slaveParse_of_header (hown : validAddr own = true) (h2 : 2 ≤ s.flen.toNat) (h256 : s.flen.toNat ≤ 256)
    (h0 : s.fb.read 0 = some own) (h1 : s.fb.read 1 = some f) (hf : recognised f = true) :
    exec (.slaveParse own) s = slaveLength f s := by
  rw [exec, execSlaveParse, if_neg (by omega), if_neg (by simp [hown]), if_neg (by omega), withFb_of_read h0,
    if_neg (not_not.2 rfl), withFb_of_read h1, if_neg (by simp [hf])]

/-- A whole frame of the length expected: the checksum decides whether it is decoded (R132). -/
theorem slaveVerify_of_holds {cnt : Half} {expect : Nat} {body : List Byte} {chkLo chkHi : Byte}
    (hflen : s.flen.toNat = expect) (hbody : expect = body.length + 2) (hfb : s.fb.holds 0 (body ++ [chkLo, chkHi])) :
    slaveVerify f cnt expect s =
      if crc16 body ≠ be16 chkHi chkLo then fail .checksumError s else slaveDecode f cnt s := by
  have hframe : s.flen.toNat = (body ++ [chkLo, chkHi]).length := by simp [hflen, hbody]
  rw [slaveVerify, if_neg (not_not.2 hflen), hframe, withFbRange_of_holds hfb, chkOk_append]
  simp only [decide_eq_false_iff_not]

/-- The decode of a read request (R133). -/
theorem slaveDecode_0x03 {cnt : Half} {ah al vh vl : Byte} (hah : s.fb.read 2 = some ah) (hal : s.fb.read 3 = some al)
    (hvh : s.fb.read 4 = some vh) (hvl : s.fb.read 5 = some vl) :
    slaveDecode 0x03 cnt s = ok (s.setRequest 0x03 (be16 ah al) (be16 vh vl) 0 0) := by
  rw [slaveDecode, withFbHalf_of_read hah hal, if_pos rfl, withFbHalf_of_read hvh hvl]

/-- The decode of a single write request (R133). -/
theorem slaveDecode_0x06 {cnt : Half} {ah al vh vl : Byte} (hah : s.fb.read 2 = some ah) (hal : s.fb.read 3 = some al)
    (hvh : s.fb.read 4 = some vh) (hvl : s.fb.read 5 = some vl) :
    slaveDecode 0x06 cnt s = ok (s.setRequest 0x06 (be16 ah al) 1 (be16 vh vl) 0) := by
  rw [slaveDecode, withFbHalf_of_read hah hal, if_neg (by decide), if_pos rfl, withFbHalf_of_read hvh hvl]

/-- The decode of a multiple write request: as many registers as the count says, from the bytes behind byte_count (R133). -/
theorem slaveDecode_0x10 {cnt : Half} {ah al bc : Byte} {data : List Byte} (hah : s.fb.read 2 = some ah)
    (hal : s.fb.read 3 = some al) (hbc : s.fb.read 6 = some bc) (hlen : data.length = 2 * cnt.toNat)
    (hdata : s.fb.holds 7 data) :
    slaveDecode 0x10 cnt s = ok ((s.setRequest 0x10 (be16 ah al) cnt 0 bc).putRegisters (be16List data)) := by
  rw [slaveDecode, withFbHalf_of_read hah hal, if_neg (by decide), if_neg (by decide), withFb_of_read hbc, ← hlen,
    withFbRange_of_holds hdata]

/-- An 8-byte request with a right checksum is decoded (R132). -/
theorem exec_slaveParse_of_fixed {ah al vh vl chkLo chkHi : Byte} (hown : validAddr own = true)
    (hf : f = 0x03 ∨ f = 0x06) (hflen : s.flen = 8) (hfb : s.fb.holds 0 [own, f, ah, al, vh, vl, chkLo, chkHi])
    (hcrc : crc16 [own, f, ah, al, vh, vl] = be16 chkHi chkLo) : exec (.slaveParse own) s = slaveDecode f 0 s := by
  have h8 : s.flen.toNat = 8 := by rw [hflen]; rfl
  have hrec : recognised f = true := by
    obtain rfl | rfl := hf <;> rfl
  rw [exec_slaveParse_of_header hown (by omega) (by omega) (Memory.read_of_holds hfb rfl) (Memory.read_of_holds hfb rfl)
    hrec, slaveLength, if_pos hf, slaveVerify_of_holds (body := [own, f, ah, al, vh, vl]) h8 rfl hfb,
    if_neg (not_not.2 hcrc)]

/-- A multiple write request of the length its count gives, with a right checksum, is decoded with that count (R132). -/
theorem exec_slaveParse_of_0x10 {ah al vh vl bc chkLo chkHi : Byte} {data : List Byte} (hown : validAddr own = true)
    (hcnt : (be16 vh vl).toNat ≤ 123) (hdata : data.length = 2 * (be16 vh vl).toNat)
    (hflen : s.flen.toNat = 9 + 2 * (be16 vh vl).toNat)
    (hfb : s.fb.holds 0 (own :: 0x10 :: ah :: al :: vh :: vl :: bc :: data ++ [chkLo, chkHi]))
    (hcrc : crc16 (own :: 0x10 :: ah :: al :: vh :: vl :: bc :: data) = be16 chkHi chkLo) :
    exec (.slaveParse own) s = slaveDecode 0x10 (be16 vh vl) s := by
  rw [exec_slaveParse_of_header hown (by omega) (by omega) (Memory.read_of_holds hfb rfl) (Memory.read_of_holds hfb rfl)
    rfl, slaveLength, if_neg (by decide), if_neg (by omega),
    withFbHalf_of_read (Memory.read_of_holds hfb rfl) (Memory.read_of_holds hfb rfl), if_neg (by omega),
    slaveVerify_of_holds hflen (by simp only [List.length_cons]; omega) hfb, if_neg (not_not.2 hcrc)]

/-- Register bytes left in RG: register `k` is its two bytes, the registers past the last keep their values, and RCOUNT is
how many there are (R57). -/
theorem putRegisters_be16List_of_length {data : List Byte} {n : Nat} (hlen : data.length = 2 * n) :
    (∀ k, k < n →
      (s.putRegisters (be16List data)).rg.read k = some (be16 (data.getD (2 * k) 0) (data.getD (2 * k + 1) 0))) ∧
    (∀ k, n ≤ k → (s.putRegisters (be16List data)).rg.read k = s.rg.read k) ∧
    (s.putRegisters (be16List data)).rcount = BitVec.ofNat 8 n := by
  have hn : (be16List data).length = n := by rw [be16List_length, hlen]; omega
  obtain ⟨hin, hout⟩ := stored_writeRange s.rg (be16List data)
  refine ⟨fun k hk => ?_, fun k hk => hout k (by omega), congrArg (BitVec.ofNat 8) hn⟩
  exact (hin k (by omega)).trans (be16List_getElem? data k (by omega))

/-- Settles O18: the request passes the checks, and each function code has its decode; the data of a multiple write stands
behind the first 7 bytes of the frame. -/
theorem slaveParseDecodesRequests : Obligations.SlaveParseDecodesRequests := by
  intro s own ah al vh vl chkLo chkHi h1 h247
  have hown := validAddr_eq_true.2 ⟨h1, h247⟩
  refine ⟨fun hflen hfb hcrc => ?_, fun hflen hfb hcrc => ?_, fun bc data hcnt hdata hflen hfb hcrc => ?_⟩
  · have hread {k : Nat} {b : Byte} := Memory.read_of_holds hfb (k := k) (v := b)
    rw [exec_slaveParse_of_fixed hown (.inl rfl) hflen hfb hcrc,
      slaveDecode_0x03 (hread rfl) (hread rfl) (hread rfl) (hread rfl)]
    rfl
  · have hread {k : Nat} {b : Byte} := Memory.read_of_holds hfb (k := k) (v := b)
    rw [exec_slaveParse_of_fixed hown (.inr rfl) hflen hfb hcrc,
      slaveDecode_0x06 (hread rfl) (hread rfl) (hread rfl) (hread rfl)]
    rfl
  · have hread {k : Nat} {b : Byte} := Memory.read_of_holds hfb (k := k) (v := b)
    have hdata7 : s.fb.holds 7 data := by simpa using Memory.holds_take (Memory.holds_drop hfb 7) data.length
    obtain ⟨hin, hout, hrcount⟩ :=
      putRegisters_be16List_of_length (s := s.setRequest 0x10 (be16 ah al) (be16 vh vl) 0 bc) hdata
    refine ⟨((s.setRequest 0x10 (be16 ah al) (be16 vh vl) 0 bc).putRegisters (be16List data)).setStatus 0, ?_, hin, hout,
      ?_⟩
    · rw [exec_slaveParse_of_0x10 hown hcnt hdata hflen hfb hcrc,
        slaveDecode_0x10 (hread rfl) (hread rfl) (hread rfl) hdata hdata7]
      rfl
    · rw [← hrcount]
      rfl

end Sys2Proof.Machine
end

section
/-! PROOF. The marshaller's writers (R150 to R160): each leaves its payload's bytes in PB from index 0 on and their number in
PLEN, or fails by its count, its code or an unwritten register. -/

namespace Sys2Proof.Machine

variable {s : State} {count : Half}

/-- A completed writer of a payload: the bytes are stored in PB, PLEN is their number, and nothing else but STATUS is
written. -/
theorem ok_putPayload {n : Half} {bytes : List Byte} (h : bytes.length = n.toNat) :
    ∃ t : State, ok (s.putPayload bytes) = .next t ∧ Stored s.pb bytes t.pb ∧
      t = { s with pb := t.pb, plen := n, status := 0 } := by
  refine ⟨{ s with pb := s.pb.writeRange 0 bytes, plen := n, status := 0 }, ?_, stored_writeRange s.pb bytes, rfl⟩
  rw [State.putPayload, h, BitVec.ofNat_toNat, BitVec.setWidth_eq]
  rfl

/-- Two 16-bit values left as the payload are four bytes. -/
theorem marshalPair_leaves (s : State) (x y : Half) :
    ∃ t : State, marshalPair x y s = .next t ∧ Stored s.pb [hi x, lo x, hi y, lo y] t.pb ∧
      t = { s with pb := t.pb, plen := 4, status := 0 } :=
  ok_putPayload rfl

/-- The registers of a payload, register by register (R57). -/
theorem bytesBe16List_eq_flatMap (regs : List Half) : bytesBe16List regs = regs.flatMap fun v => [hi v, lo v] := by
  induction regs with
  | nil => rfl
  | cons v regs ih => simp [bytesBe16List, ih]

/-- Written registers are left behind a head and their byte_count. -/
theorem marshalRegisters_of_holds {head : List Byte} {n : Half} {regs : List Half} (hlen : regs.length = count.toNat)
    (hrg : s.rg.holds 0 regs) (hn : n.toNat = head.length + 1 + 2 * count.toNat) :
    ∃ t : State, marshalRegisters head count s = .next t ∧
      Stored s.pb (head ++ BitVec.ofNat 8 (2 * count.toNat) :: regs.flatMap fun v => [hi v, lo v]) t.pb ∧
      t = { s with pb := t.pb, plen := n, status := 0 } := by
  rw [marshalRegisters, ← hlen, withRg_of_holds hrg, ← bytesBe16List_eq_flatMap]
  exact ok_putPayload (by simp only [List.length_append, List.length_cons, bytesBe16List_length]; omega)

/-- An unwritten register among those to be left faults. -/
theorem marshalRegisters_of_unwritten {head : List Byte} {j : Nat} (hj : j < count.toNat)
    (hu : s.rg.firstUnwritten 0 j) : marshalRegisters head count s = .fault (.unwrittenRg j) :=
  withRg_of_unwritten hu hj _

/-- A count outside its range fails, whatever the rest of the command. -/
theorem checkCount_of_outside {max : Nat} {r : Result} (h : count.toNat = 0 ∨ max < count.toNat) :
    (if countOutside max count then fail .invalidParameter s else r) = .next { s with status := 2 } :=
  if_pos (countOutside_eq_true.2 h)

/-- A count in its range goes on to the rest of the command. -/
theorem checkCount_of_inside {max : Nat} {r : Result} (h1 : 1 ≤ count.toNat) (hmax : count.toNat ≤ max) :
    (if countOutside max count then fail .invalidParameter s else r) = r :=
  if_neg (by simp [countOutside_eq_false.2 ⟨h1, hmax⟩])

/-- Settles O21: the range of the count decides, and inside it start and count are left. -/
theorem mrsRdReqLeavesStartAndCount : Obligations.MrsRdReqLeavesStartAndCount := by
  refine fun s start count => ⟨by simp [encode, packWord], fun h1 h125 => ?_, checkCount_of_outside⟩
  rw [exec, execMrsRdReq, checkCount_of_inside h1 h125]
  exact marshalPair_leaves s start count

/-- Settles O22: address and value are left, unchecked. -/
theorem mrsWsLeavesAddressAndValue : Obligations.MrsWsLeavesAddressAndValue :=
  fun s addr value => ⟨by simp [encode, packWord], marshalPair_leaves s addr value⟩

/-- Settles O23: the range of the count decides, then the run of RG: left behind start, count and byte_count, or stopped at
the first unwritten register. -/
theorem mrsWmReqLeavesTheRegisters : Obligations.MrsWmReqLeavesTheRegisters := by
  refine fun s start count => ⟨by simp [encode, packWord], fun regs h1 h123 hlen hrg => ?_, checkCount_of_outside,
    fun j h1 h123 hj hu => ?_⟩
  · rw [exec, execMrsWmReq, checkCount_of_inside h1 h123]
    exact marshalRegisters_of_holds hlen hrg (by change _ = 5 + 2 * count.toNat; bv_omega)
  · rw [exec, execMrsWmReq, checkCount_of_inside h1 h123, marshalRegisters_of_unwritten hj hu]

/-- Settles O24: as for MRS_WM_REQ, with no head before byte_count. -/
theorem mrsRdRspLeavesTheRegisters : Obligations.MrsRdRspLeavesTheRegisters := by
  refine fun s count => ⟨by simp [encode, packWord], fun regs h1 h125 hlen hrg => ?_, checkCount_of_outside,
    fun j h1 h125 hj hu => ?_⟩
  · rw [exec, execMrsRdRsp, checkCount_of_inside h1 h125]
    exact marshalRegisters_of_holds (head := []) hlen hrg (by change _ = 1 + 2 * count.toNat; bv_omega)
  · rw [exec, execMrsRdRsp, checkCount_of_inside h1 h125, marshalRegisters_of_unwritten hj hu]

/-- Settles O25: start and count are left, unchecked. -/
theorem mrsWmRspLeavesStartAndCount : Obligations.MrsWmRspLeavesStartAndCount :=
  fun s start count => ⟨by simp [encode, packWord], marshalPair_leaves s start count⟩

/-- Settles O26: the eight standard codes are left, the others fail the check. -/
theorem mrsExcLeavesAStandardCode : Obligations.MrsExcLeavesAStandardCode := by
  refine fun s code => ⟨by simp [encode, packWord], fun h1 h8 => ?_, fun hother => if_pos (by omega)⟩
  rw [exec, execMrsExc, if_neg (by omega)]
  exact ok_putPayload rfl

end Sys2Proof.Machine
end

section
/-! PROOF. The marshaller's readers (R165 to R171): the checks of a response's payload in their order, then the registers it
carries or the comparison with the request it echoes. -/

namespace Sys2Proof.Machine

variable {s : State} {x y count : Half}

/-- UNM_RD_RSP of a payload longer than PB (R165). -/
theorem exec_unmRdRsp_of_gt (h1 : 1 ≤ count.toNat) (h125 : count.toNat ≤ 125) (h : 256 < s.plen.toNat) :
    exec (.unmRdRsp count) s = .next { s with status := 2 } :=
  (checkCount_of_inside h1 h125).trans (if_pos h)

/-- UNM_RD_RSP of an empty payload (R165). -/
theorem exec_unmRdRsp_of_empty (h1 : 1 ≤ count.toNat) (h125 : count.toNat ≤ 125) (h : s.plen.toNat = 0) :
    exec (.unmRdRsp count) s = .next { s with status := 3 } := by
  rw [exec, execUnmRdRsp, checkCount_of_inside h1 h125, if_neg (by omega), if_pos (by omega)]
  rfl

/-- UNM_RD_RSP of a payload that is neither goes on to its byte_count (R165). -/
theorem exec_unmRdRsp_of_nonempty (h1 : 1 ≤ count.toNat) (h125 : count.toNat ≤ 125) (hpos : 1 ≤ s.plen.toNat)
    (h256 : s.plen.toNat ≤ 256) :
    exec (.unmRdRsp count) s = withPb s 0 fun byteCount =>
      if byteCount.toNat ≠ 2 * count.toNat then fail .invalidResponse s
      else if s.plen.toNat ≠ 1 + 2 * count.toNat then fail .invalidResponse s
      else withPbRange s 1 (2 * count.toNat) fun data => ok (s.putRegisters (be16List data)) := by
  rw [exec, execUnmRdRsp, checkCount_of_inside h1 h125, if_neg (by omega), if_neg (by omega)]

/-- A read of an unwritten byte of PB faults (R52). -/
theorem withPb_of_unwritten {i : Nat} (h : s.pb.read i = none) (k : Byte → Result) :
    withPb s i k = .fault (.unwrittenPb i) := by
  rw [withPb, h]

/-- Registers left in RG from their bytes: one register per two bytes, RCOUNT their number, and nothing else but STATUS is
written. -/
theorem ok_putRegisters_be16List {data : List Byte} {n : Nat} (hlen : data.length = 2 * n) :
    ∃ t : State, ok (s.putRegisters (be16List data)) = .next t ∧
      (∀ k, k < n → t.rg.read k = some (be16 (data.getD (2 * k) 0) (data.getD (2 * k + 1) 0))) ∧
      (∀ k, n ≤ k → t.rg.read k = s.rg.read k) ∧
      t = { s with rg := t.rg, rcount := BitVec.ofNat 8 n, status := 0 } := by
  obtain ⟨hin, hout, hrcount⟩ := putRegisters_be16List_of_length (s := s) hlen
  refine ⟨(s.putRegisters (be16List data)).setStatus 0, rfl, hin, hout, ?_⟩
  rw [← hrcount]
  rfl

/-- Settles O27: the checks in their order; behind them the run of PB decides: unpacked, or stopped at its first unwritten
byte. -/
theorem unmRdRspUnpacksTheRegisters : Obligations.UnmRdRspUnpacksTheRegisters := by
  refine fun s count => ⟨by simp [encode, packWord], checkCount_of_outside, fun h1 h125 =>
    ⟨exec_unmRdRsp_of_gt h1 h125, exec_unmRdRsp_of_empty h1 h125, fun hpos h256 => ?_⟩⟩
  rw [exec_unmRdRsp_of_nonempty h1 h125 hpos h256]
  refine ⟨fun h0 => withPb_of_unwritten h0 _, fun b hb hbc => ?_, fun b hb hbc hlen => ?_, fun b hb hbc hlen => ?_⟩
  all_goals rw [withPb_of_read hb]
  · exact if_pos hbc
  · exact (if_neg (not_not.2 hbc)).trans (if_pos hlen)
  · rw [if_neg (not_not.2 hbc), if_neg (not_not.2 hlen)]
    refine ⟨fun j hj hu => withPbRange_of_unwritten hu hj _, fun data hdata hpb => ?_⟩
    rw [← hdata, withPbRange_of_holds hpb]
    exact ok_putRegisters_be16List hdata

/-- A payload longer than PB is no echo. -/
theorem checkEcho_of_gt (h : 256 < s.plen.toNat) : checkEcho x y s = .next { s with status := 2 } :=
  if_pos h

/-- A payload within PB of another length than 4 is no echo. -/
theorem checkEcho_of_length_ne (h256 : s.plen.toNat ≤ 256) (h : s.plen ≠ 4) :
    checkEcho x y s = .next { s with status := 3 } :=
  (if_neg (Nat.not_lt.2 h256)).trans (if_pos fun h4 => h (BitVec.eq_of_toNat_eq h4))

/-- A payload of 4 bytes is read and compared. -/
theorem checkEcho_of_length_eq (h : s.plen = 4) :
    checkEcho x y s = withPbRange s 0 4 fun payload =>
      if payload ≠ [hi x, lo x, hi y, lo y] then fail .invalidResponse s else ok s := by
  have h4 : s.plen.toNat = 4 := congrArg BitVec.toNat h
  rw [checkEcho, if_neg (by omega), if_neg (not_not.2 h4)]
  rfl

/-- The four bytes of both values are the echo. -/
theorem checkEcho_of_echo (h : s.plen = 4) (hpb : s.pb.holds 0 [hi x, lo x, hi y, lo y]) :
    checkEcho x y s = .next { s with status := 0 } := by
  rw [checkEcho_of_length_eq h]
  exact (withPbRange_of_holds hpb _).trans (if_neg (not_not.2 rfl))

/-- Four other bytes are not. -/
theorem checkEcho_of_other (h : s.plen = 4) (b0 b1 b2 b3 : Byte) (hpb : s.pb.holds 0 [b0, b1, b2, b3])
    (hne : [b0, b1, b2, b3] ≠ [hi x, lo x, hi y, lo y]) : checkEcho x y s = .next { s with status := 3 } := by
  rw [checkEcho_of_length_eq h]
  exact (withPbRange_of_holds hpb _).trans (if_pos hne)

/-- The first unwritten byte of the four faults. -/
theorem checkEcho_of_unwritten (h : s.plen = 4) (j : Nat) (hj : j < 4) (hu : s.pb.firstUnwritten 0 j) :
    checkEcho x y s = .fault (.unwrittenPb j) := by
  rw [checkEcho_of_length_eq h, withPbRange_of_unwritten hu (by omega)]

/-- Settles O28: CHK_WS_RSP is the comparison with address and value. -/
theorem chkWsRspAcceptsTheEcho : Obligations.ChkWsRspAcceptsTheEcho :=
  fun _ _ _ => ⟨by simp [encode, packWord], checkEcho_of_gt, checkEcho_of_length_ne,
    fun h4 => ⟨checkEcho_of_echo h4, checkEcho_of_other h4, checkEcho_of_unwritten h4⟩⟩

/-- Settles O29: CHK_WM_RSP is the comparison with start and count. -/
theorem chkWmRspAcceptsTheEcho : Obligations.ChkWmRspAcceptsTheEcho :=
  fun _ _ _ => ⟨by simp [encode, packWord], checkEcho_of_gt, checkEcho_of_length_ne,
    fun h4 => ⟨checkEcho_of_echo h4, checkEcho_of_other h4, checkEcho_of_unwritten h4⟩⟩

end Sys2Proof.Machine
end

section
/-! PROOF. Failing commands (R11, R186): a command ends with OK or writes STATUS alone, so a failing command word changes only
STATUS and CMD. -/

namespace Sys2Proof.Machine

variable {s t : State}

/-- A command that completes ends with OK, or all it wrote is STATUS (R11, R186). -/
theorem exec_command_status_zero_or_alone {i : Instr} (hc : i.isCommand = true) (h : exec i s = .next t) :
    t.status = 0 ∨ t = s.setStatus t.status := by
  cases i with
  | crcReset => obtain rfl := execCrcReset_cases h; exact .inl rfl
  | crcFeed byte => obtain rfl := execCrcFeed_cases h; exact .inl rfl
  | crcBuf n =>
    obtain ⟨-, rfl⟩ | ⟨bytes, -, -, -, rfl⟩ := execCrcBuf_cases h
    exacts [.inr rfl, .inl rfl]
  | addrCheck addr =>
    obtain ⟨-, rfl⟩ | ⟨-, rfl⟩ := execAddrCheck_cases h
    exacts [.inl rfl, .inr rfl]
  | frameBuild addr fc =>
    obtain ⟨-, rfl⟩ | ⟨-, -, rfl⟩ | ⟨payload, -, -, -, -, rfl⟩ := execFrameBuild_cases h
    exacts [.inr rfl, .inr rfl, .inl rfl]
  | frameParse addr fc cap =>
    obtain hfail | ⟨code, -, -, -, -, rfl⟩ | ⟨payload, -, -, -, -, -, rfl⟩ := execFrameParse_cases h
    · obtain rfl | rfl | rfl | rfl := hfail <;> exact .inr rfl
    · exact .inl rfl
    · exact .inl rfl
  | slaveParse own =>
    obtain hfail | ⟨f, cnt, -, hdecode, -⟩ := execSlaveParse_cases h
    · obtain rfl | rfl | rfl | rfl | rfl := hfail <;> exact .inr rfl
    · obtain ⟨ah, al, vh, vl, -, -, -, -, -, rfl⟩ | ⟨ah, al, vh, vl, -, -, -, -, -, rfl⟩ |
        ⟨ah, al, bc, data, -, -, -, -, -, -, -, rfl⟩ := slaveDecode_cases hdecode <;> exact .inl rfl
  | reqRemlen fc count =>
    obtain (⟨-, -, rfl⟩ | ⟨-, rfl⟩) | ⟨-, rfl⟩ | ⟨-, -, rfl⟩ := execReqRemlen_cases h
    exacts [.inr rfl, .inr rfl, .inl rfl, .inl rfl]
  | mrsRdReq start count =>
    obtain rfl | ⟨-, -, rfl⟩ := execMrsRdReq_cases h
    exacts [.inr rfl, .inl rfl]
  | mrsWs addr value => obtain rfl := marshalPair_cases h; exact .inl rfl
  | mrsWmReq start count =>
    obtain rfl | ⟨vs, -, -, -, -, rfl⟩ := execMrsWmReq_cases h
    exacts [.inr rfl, .inl rfl]
  | mrsRdRsp count =>
    obtain rfl | ⟨vs, -, -, -, -, rfl⟩ := execMrsRdRsp_cases h
    exacts [.inr rfl, .inl rfl]
  | mrsWmRsp start count => obtain rfl := marshalPair_cases h; exact .inl rfl
  | mrsExc code =>
    obtain rfl | ⟨-, -, rfl⟩ := execMrsExc_cases h
    exacts [.inr rfl, .inl rfl]
  | unmRdRsp count =>
    obtain (rfl | rfl) | ⟨data, -, -, -, -, -, rfl⟩ := execUnmRdRsp_cases h
    exacts [.inr rfl, .inr rfl, .inl rfl]
  | chkWsRsp addr value | chkWmRsp start count =>
    obtain rfl | rfl | ⟨-, -, rfl⟩ := checkEcho_cases h
    exacts [.inr rfl, .inr rfl, .inl rfl]
  | _ => cases hc

/-- A command word, legal or not, that ends with another status than OK has written STATUS alone (R75, R186). -/
theorem runCommand_failure_writes_status_alone {w : Word} (h : runCommand w s = .next t) (hfail : t.status ≠ 0) :
    t = s.setStatus t.status := by
  obtain ⟨e, -, rfl⟩ | ⟨i, hdecode, hexec⟩ := runCommand_cases h
  · rfl
  · exact (exec_command_status_zero_or_alone (decodeCommand_isCommand hdecode) hexec).resolve_left hfail

/-- Settles O39: a write of CMD runs the word in the state that holds it there, and the failing word adds STATUS alone. -/
theorem failureChangesOnlyStatus : Obligations.FailureChangesOnlyStatus :=
  fun _ _ _ h hfail => runCommand_failure_writes_status_alone h hfail

end Sys2Proof.Machine
end

section
/-! PROOF. R200: the reset state, register by register, and the table ROM as the host reads it. -/

namespace Sys2Proof.Machine

/-- An index of the table taken as a byte and zero-extended is the index as 16 bits (R24). -/
theorem setWidth_ofNat_index (i : Fin 256) : (BitVec.ofNat 8 i.val).setWidth 16 = BitVec.ofNat 16 i.val :=
  BitVec.setWidth_ofNat_of_le_of_lt (by decide) i.isLt

/-- In every state the host reads T[i] as eight division steps of the index, and makes no draw (R23, R24). -/
theorem readLoc_t (i : Fin 256) (draws : Nat) (s : State) :
    readLoc (.t i) draws s = (.b16 (crcStep^[8] (BitVec.ofNat 16 i.val)), draws) := by
  rw [← setWidth_ofNat_index, ← crcSteps_eq_iterate]
  rfl

/-- Settles O1: the registers are the reset state's fields, its buffers list no element, and the table does not depend on the
state. -/
theorem resetLeavesTheTabledValues : Obligations.ResetLeavesTheTabledValues := by
  have unwritten : ∀ i, State.reset.fb.read i = none ∧ State.reset.pb.read i = none ∧ State.reset.rg.read i = none :=
    fun i => ⟨Memory.read_nil i, Memory.read_nil i, Memory.read_nil i⟩
  have unmarked : ∀ i, State.reset.wFb i = false ∧ State.reset.wPb i = false ∧ State.reset.wRg i = false := by
    intro i
    obtain ⟨hfb, hpb, hrg⟩ := unwritten i
    simp only [State.wFb, State.wPb, State.wRg, hfb, hpb, hrg, Option.isSome_none, and_self]
  exact ⟨rfl, rfl, rfl, rfl, rfl, rfl, rfl, rfl, rfl, rfl, rfl, rfl, rfl, rfl, unwritten, unmarked,
    fun i => congrArg Prod.fst (readLoc_t i 0 State.reset)⟩

end Sys2Proof.Machine
end

section
/-! PROOF. The invariant of every step (R50, R180, R31, R32, R140): what each update of the state needs to keep it, then every
instruction, access and line of the host's program. -/

namespace Sys2Proof.Machine

variable {s t : State}

/-- The buffers are canonical exactly when each of them is. -/
theorem memWf_iff : s.memWf = true ↔ s.fb.wf 256 = true ∧ s.pb.wf 256 = true ∧ s.rg.wf 125 = true := by
  simp only [State.memWf, Bool.and_eq_true, and_assoc]

/-- The invariant speaks of no other field than these seven. -/
theorem State.Inv.of_fields (h : s.Inv) (hfb : t.fb = s.fb) (hpb : t.pb = s.pb) (hrg : t.rg = s.rg)
    (hstatus : t.status = s.status) (hkind : t.rspKind = s.rspKind) (hcode : t.excCode = s.excCode)
    (hlen : t.dLen = s.dLen) : t.Inv := by
  refine ⟨?_, hstatus ▸ h.status, hkind ▸ hcode ▸ h.normalCode, hlen ▸ h.remaining⟩
  rw [State.memWf, hfb, hpb, hrg]
  exact h.memory

theorem State.Inv.setCmd (h : s.Inv) (w : Word) : (s.setCmd w).Inv := h.of_fields rfl rfl rfl rfl rfl rfl rfl
theorem State.Inv.setAcc (h : s.Inv) (v : Half) : (s.setAcc v).Inv := h.of_fields rfl rfl rfl rfl rfl rfl rfl
theorem State.Inv.setFlen (h : s.Inv) (n : Half) : (s.setFlen n).Inv := h.of_fields rfl rfl rfl rfl rfl rfl rfl
theorem State.Inv.setPlen (h : s.Inv) (n : Half) : (s.setPlen n).Inv := h.of_fields rfl rfl rfl rfl rfl rfl rfl
theorem State.Inv.setRcount (h : s.Inv) (n : Byte) : (s.setRcount n).Inv := h.of_fields rfl rfl rfl rfl rfl rfl rfl
theorem State.Inv.setPc (h : s.Inv) (k : Nat) : (s.setPc k).Inv := h.of_fields rfl rfl rfl rfl rfl rfl rfl
theorem State.Inv.setReply (h : s.Inv) (r : List HostData) (d : Nat) : (s.setReply r d).Inv :=
  h.of_fields rfl rfl rfl rfl rfl rfl rfl
theorem State.Inv.setRequest (h : s.Inv) (fc : Byte) (addr count value : Half) (bc : Byte) :
    (s.setRequest fc addr count value bc).Inv :=
  h.of_fields rfl rfl rfl rfl rfl rfl rfl

theorem State.Inv.setStatus (h : s.Inv) {st : Byte} (hst : st.toNat ≤ 6) : (s.setStatus st).Inv :=
  ⟨h.memory, hst, h.normalCode, h.remaining⟩

theorem State.Inv.setDLen (h : s.Inv) {n : Half} (hn : n.toNat ≤ 253) : (s.setDLen n).Inv :=
  ⟨h.memory, h.status, h.normalCode, hn⟩

theorem State.Inv.setResponse (h : s.Inv) {kind : BitVec 1} {code : Byte} (fc : Byte) (hcode : kind = 0 → code = 0) :
    (s.setResponse kind code fc).Inv :=
  ⟨h.memory, h.status, hcode, h.remaining⟩

theorem State.Inv.setFb (h : s.Inv) {m : Memory Byte} (hm : m.wf 256 = true) : (s.setFb m).Inv := by
  obtain ⟨-, hpb, hrg⟩ := memWf_iff.1 h.memory
  exact ⟨memWf_iff.2 ⟨hm, hpb, hrg⟩, h.status, h.normalCode, h.remaining⟩

theorem State.Inv.setPb (h : s.Inv) {m : Memory Byte} (hm : m.wf 256 = true) : (s.setPb m).Inv := by
  obtain ⟨hfb, -, hrg⟩ := memWf_iff.1 h.memory
  exact ⟨memWf_iff.2 ⟨hfb, hm, hrg⟩, h.status, h.normalCode, h.remaining⟩

theorem State.Inv.setRg (h : s.Inv) {m : Memory Half} (hm : m.wf 125 = true) : (s.setRg m).Inv := by
  obtain ⟨hfb, hpb, -⟩ := memWf_iff.1 h.memory
  exact ⟨memWf_iff.2 ⟨hfb, hpb, hm⟩, h.status, h.normalCode, h.remaining⟩

theorem State.Inv.writeFb (h : s.Inv) (i : Fin 256) (b : Byte) : (s.setFb (s.fb.write i.val b)).Inv :=
  h.setFb (Memory.write_wf (memWf_iff.1 h.memory).1 i.isLt)

theorem State.Inv.writePb (h : s.Inv) (i : Fin 256) (b : Byte) : (s.setPb (s.pb.write i.val b)).Inv :=
  h.setPb (Memory.write_wf (memWf_iff.1 h.memory).2.1 i.isLt)

theorem State.Inv.writeRg (h : s.Inv) (i : Fin 125) (v : Half) : (s.setRg (s.rg.write i.val v)).Inv :=
  h.setRg (Memory.write_wf (memWf_iff.1 h.memory).2.2 i.isLt)

/-- A frame no longer than FB fits it. -/
theorem State.Inv.putFrame (h : s.Inv) {bytes : List Byte} (hl : bytes.length ≤ 256) : (s.putFrame bytes).Inv :=
  (h.setFb (Memory.writeRange_wf (memWf_iff.1 h.memory).1 (by omega))).setFlen _

/-- A payload no longer than PB fits it. -/
theorem State.Inv.putPayload (h : s.Inv) {bytes : List Byte} (hl : bytes.length ≤ 256) : (s.putPayload bytes).Inv :=
  (h.setPb (Memory.writeRange_wf (memWf_iff.1 h.memory).2.1 (by omega))).setPlen _

/-- No more registers than RG has fit it. -/
theorem State.Inv.putRegisters (h : s.Inv) {values : List Half} (hl : values.length ≤ 125) : (s.putRegisters values).Inv :=
  (h.setRg (Memory.writeRange_wf (memWf_iff.1 h.memory).2.2 (by omega))).setRcount _

/-- STATUS OK keeps the invariant. -/
theorem State.Inv.ok (h : s.Inv) : (s.setStatus 0).Inv := h.setStatus (by decide)

/-- SLAVE_PARSE's decode keeps the invariant, whose count of registers fits RG. -/
theorem slaveDecode_inv {f : Byte} {cnt : Half} (hs : s.Inv) (hcnt : cnt.toNat ≤ 123)
    (h : slaveDecode f cnt s = .next t) : t.Inv := by
  obtain ⟨ah, al, vh, vl, -, -, -, -, -, rfl⟩ | ⟨ah, al, vh, vl, -, -, -, -, -, rfl⟩ |
    ⟨ah, al, bc, data, -, -, -, -, -, hlen, -, rfl⟩ := slaveDecode_cases h
  · exact (hs.setRequest ..).ok
  · exact (hs.setRequest ..).ok
  · exact ((hs.setRequest ..).putRegisters (by rw [be16List_length]; omega)).ok

/-- Every instruction keeps the invariant: a failure leaves a code of R180, and what a completed one stores fits its
buffer. -/
theorem exec_inv {i : Instr} (hs : s.Inv) (h : exec i s = .next t) : t.Inv := by
  cases hc : i.isCommand with
  | false =>
    obtain ⟨bytes, hl, rfl⟩ := exec_wire_cases hc h
    exact hs.putFrame hl
  | true =>
    cases i with
    | crcReset => obtain rfl := execCrcReset_cases h; exact (hs.setAcc _).ok
    | crcFeed byte => obtain rfl := execCrcFeed_cases h; exact (hs.setAcc _).ok
    | crcBuf n =>
      obtain ⟨-, rfl⟩ | ⟨bytes, -, -, -, rfl⟩ := execCrcBuf_cases h
      exacts [hs.setStatus (by decide), (hs.setAcc _).ok]
    | addrCheck addr =>
      obtain ⟨-, rfl⟩ | ⟨-, rfl⟩ := execAddrCheck_cases h
      exacts [hs.ok, hs.setStatus (by decide)]
    | frameBuild addr fc =>
      obtain ⟨-, rfl⟩ | ⟨-, -, rfl⟩ | ⟨payload, -, hl, hle, -, rfl⟩ := execFrameBuild_cases h
      · exact hs.setStatus (by decide)
      · exact hs.setStatus (by decide)
      · exact (hs.putFrame (by simp only [sealFrame_length, List.length_cons]; omega)).ok
    | frameParse addr fc cap =>
      obtain hfail | ⟨code, -, -, -, -, rfl⟩ | ⟨payload, hl, -, hle, -, -, rfl⟩ := execFrameParse_cases h
      · obtain rfl | rfl | rfl | rfl := hfail <;> exact hs.setStatus (by decide)
      · exact (hs.setResponse _ fun hkind => absurd hkind (by decide)).ok
      · exact ((hs.putPayload (by omega)).setResponse _ fun _ => rfl).ok
    | slaveParse own =>
      obtain hfail | ⟨f, cnt, -, hdecode, hcnt⟩ := execSlaveParse_cases h
      · obtain rfl | rfl | rfl | rfl | rfl := hfail <;> exact hs.setStatus (by decide)
      · refine slaveDecode_inv hs ?_ hdecode
        obtain ⟨-, rfl, -⟩ | ⟨-, hle, -⟩ := hcnt
        exacts [by decide, hle]
    | reqRemlen fc count =>
      obtain (⟨-, -, rfl⟩ | ⟨-, rfl⟩) | ⟨-, rfl⟩ | ⟨-, hle, rfl⟩ := execReqRemlen_cases h
      · exact hs.setStatus (by decide)
      · exact hs.setStatus (by decide)
      · exact (hs.setDLen (by decide)).ok
      · exact (hs.setDLen (by rw [BitVec.toNat_ofNat]; omega)).ok
    | mrsRdReq start count =>
      obtain rfl | ⟨-, -, rfl⟩ := execMrsRdReq_cases h
      exacts [hs.setStatus (by decide), (hs.putPayload (by simp)).ok]
    | mrsWs addr value | mrsWmRsp start count =>
      obtain rfl := marshalPair_cases h
      exact (hs.putPayload (by simp)).ok
    | mrsWmReq start count =>
      obtain rfl | ⟨vs, hl, -, hle, -, rfl⟩ := execMrsWmReq_cases h
      · exact hs.setStatus (by decide)
      · exact (hs.putPayload (by simp only [List.length_cons, bytesBe16List_length]; omega)).ok
    | mrsRdRsp count =>
      obtain rfl | ⟨vs, hl, -, hle, -, rfl⟩ := execMrsRdRsp_cases h
      · exact hs.setStatus (by decide)
      · exact (hs.putPayload (by simp only [List.length_cons, bytesBe16List_length]; omega)).ok
    | mrsExc code =>
      obtain rfl | ⟨-, -, rfl⟩ := execMrsExc_cases h
      exacts [hs.setStatus (by decide), (hs.putPayload (by simp)).ok]
    | unmRdRsp count =>
      obtain (rfl | rfl) | ⟨data, hl, -, hle, -, -, rfl⟩ := execUnmRdRsp_cases h
      · exact hs.setStatus (by decide)
      · exact hs.setStatus (by decide)
      · exact (hs.putRegisters (by rw [be16List_length]; omega)).ok
    | chkWsRsp addr value | chkWmRsp start count =>
      obtain rfl | rfl | ⟨-, -, rfl⟩ := checkEcho_cases h
      exacts [hs.setStatus (by decide), hs.setStatus (by decide), hs.ok]
    | _ => cases hc

/-- So does a write of CMD, whatever the word. -/
theorem hostCommand_inv {w : Word} (hs : s.Inv) (h : hostCommand w s = .next t) : t.Inv := by
  obtain ⟨e, -, rfl⟩ | ⟨i, -, hexec⟩ := runCommand_cases h
  · exact (hs.setCmd w).setStatus (by decide)
  · exact exec_inv (hs.setCmd w) hexec

theorem hostRead_inv (hs : s.Inv) (l : Loc) : (hostRead l s).Inv := hs.setReply _ _

/-- So does one access of the bus. -/
theorem hostAccess_inv {a : HostAccess} (hs : s.Inv) (h : hostAccess a s = .next t) : t.Inv := by
  cases a with
  | read offset width =>
    obtain ⟨l, -, -, rfl⟩ := hostAccess_read_cases h
    exact hostRead_inv hs l
  | write offset data =>
    obtain ⟨l, -, -, -, hw⟩ := hostAccess_write_cases h
    obtain ⟨i, v, -, -, rfl⟩ | ⟨i, v, -, -, rfl⟩ | ⟨i, v, -, -, rfl⟩ | ⟨v, -, -, rfl⟩ | ⟨v, -, -, rfl⟩ | ⟨v, -, -, rfl⟩ |
      ⟨w, -, -, hcmd⟩ := writeLoc_cases hw
    exacts [hs.writeFb i v, hs.writePb i v, hs.writeRg i v, hs.setRcount v, hs.setFlen v, hs.setPlen v,
      hostCommand_inv hs hcmd]

/-- What an arriving frame can do: it is a wire form's, or its bytes are loaded as they are (R25). -/
theorem hostReceive_cases {d : Direction} {bytes : List Byte} (h : hostReceive d bytes s = .next t) :
    (∃ i, decodeWire d bytes = .ok i ∧ exec i s = .next t) ∨
    ∃ e, decodeWire d bytes = .error e ∧ bytes.length ≤ 256 ∧ t = s.putFrame bytes := by
  unfold hostReceive at h
  split at h
  · exact .inl ⟨_, ‹_›, h⟩
  · obtain ⟨hl, ht⟩ := loadFrame_cases h
    exact .inr ⟨_, ‹_›, hl, ht⟩

theorem loadPayload_cases {bytes : List Byte} (h : loadPayload bytes s = .next t) :
    bytes.length ≤ 256 ∧ t = s.putPayload bytes := by
  unfold loadPayload at h
  split at h
  · cases h
  · exact ⟨by omega, (Host.Outcome.next.inj h).symm⟩

theorem loadRegisters_cases {values : List Half} (h : loadRegisters values s = .next t) :
    values.length ≤ 125 ∧ t = s.putRegisters values := by
  unfold loadRegisters at h
  split at h
  · cases h
  · exact ⟨by omega, (Host.Outcome.next.inj h).symm⟩

theorem hostReadFrame_cases (h : hostReadFrame s = .next t) :
    s.flen.toNat ≤ 256 ∧
      t = s.setReply (readFbRun s 0 s.flen.toNat s.draws).1 (readFbRun s 0 s.flen.toNat s.draws).2 := by
  unfold hostReadFrame at h
  split at h
  · cases h
  · exact ⟨by omega, (Host.Outcome.next.inj h).symm⟩

/-- Settles O3: the reset state's buffers list nothing and its registers are 0. -/
theorem resetMeetsTheInvariant : Obligations.ResetMeetsTheInvariant :=
  ⟨rfl, Nat.zero_le _, fun _ => rfl, Nat.zero_le _⟩

/-- A platform reset meets the invariant, its block being the reset state's. -/
theorem resetBlock_inv (s : State) : (resetBlock s).Inv :=
  resetMeetsTheInvariant.of_fields rfl rfl rfl rfl rfl rfl rfl

/-- Every line of the host's program keeps the invariant. -/
theorem runLine_inv {l : HostLine} (hs : s.Inv) (h : runLine l s = .next t) : t.Inv := by
  have hpc : (s.setPc (s.pc + 1)).Inv := hs.setPc _
  cases l with
  | command w => exact hostCommand_inv hpc h
  | loadFb bytes =>
    obtain ⟨hl, rfl⟩ := loadFrame_cases h
    exact hpc.putFrame hl
  | loadPb bytes =>
    obtain ⟨hl, rfl⟩ := loadPayload_cases h
    exact hpc.putPayload hl
  | loadRg values =>
    obtain ⟨hl, rfl⟩ := loadRegisters_cases h
    exact hpc.putRegisters hl
  | setFlen n => cases h; exact hpc.setFlen n
  | setPlen n => cases h; exact hpc.setPlen n
  | pokeFb i b => cases h; exact hpc.writeFb i b
  | read l => cases h; exact hostRead_inv hpc l
  | readFrame =>
    obtain ⟨-, rfl⟩ := hostReadFrame_cases h
    exact hpc.setReply _ _
  | brEq l v k | brStatus st k => cases h; exact (hostRead_inv hs _).setPc _
  | stop => cases h; exact hs
  | access a => exact hostAccess_inv hpc h
  | receive d bytes =>
    obtain ⟨i, -, hexec⟩ | ⟨e, -, hl, rfl⟩ := hostReceive_cases h
    exacts [exec_inv hpc hexec, hpc.putFrame hl]
  | platformReset => cases h; exact resetBlock_inv _

/-- Settles O4: past the program's end the step waits, else it is a line, and every line keeps the invariant. -/
theorem everyStepKeepsTheInvariant : Obligations.EveryStepKeepsTheInvariant := by
  intro s t hs h
  cases hline : s.program[s.pc]? with
  | none =>
    rw [step_of_end hline] at h
    cases h
    exact hs
  | some l => exact runLine_inv hs (by rwa [step_of_line hline] at h)

end Sys2Proof.Machine
end

section
/-! PROOF. The two encodings, read both ways (R70 to R89): the command word field by field, and each wire form through what its
part of the decoder accepts. -/

namespace Sys2Proof

open Machine

/-- A packed word passes the field check exactly where the fields its row does not use are 0. -/
theorem checkFields_packWord {opc a b : Byte} {c d : Half} {u : FieldUse} {i : Instr} (ha : u.a = false → a = 0)
    (hb : u.b = false → b = 0) (hc : u.c = false → c = 0) (hd : u.d = false → d = 0) :
    checkFields (packWord opc a b c d) u i = .ok i :=
  checkFields_eq_ok.2 ⟨rfl, by simp, by simpa using ha, by simpa using hb, by simpa using hc, by simpa using hd⟩

/-- The decoder undoes the encoder on commands: the opcode chooses the row, whose unused fields the encoder leaves 0. -/
theorem decode_encode_command {i : Instr} (hc : i.isCommand = true) : decode (encode i) = .ok i := by
  cases i with
  | wireReq03 | wireRsp03 | wireReq06 | wireRsp06 | wireReq10 | wireRsp10 | wireExc => cases hc
  | _ => simp [decode, encode, decodeCommand, checkFields_packWord]

/-- An 8-byte frame decodes to the form it was laid out by (R78, R80, R81, R83). -/
theorem decodeTwoFields_bytesBe16 (mk : Half → Half → Half → Instr) (x y chk : Half) :
    decodeTwoFields mk (bytesBe16 x ++ bytesBe16 y ++ [lo chk, hi chk]) = .ok (mk x y chk) :=
  decodeTwoFields_eq_ok.2 ⟨x, y, chk, rfl, rfl⟩

/-- Register data and a checksum decode to the registers (R79, R82). -/
theorem decodeRegisters_bytesBe16List (mk : List Half → Half → Instr) (regs : List Half) (chk : Half) :
    decodeRegisters mk (2 * regs.length) (bytesBe16List regs ++ [lo chk, hi chk]) = .ok (mk regs chk) :=
  (decodeRegisters_eq_ok (by omega)).2 ⟨regs, chk, rfl, rfl, rfl⟩

/-- A number that fits a word is the word's number. -/
theorem toNat_ofNat_of_lt {n k : Nat} (h : k < 2 ^ n) : (BitVec.ofNat n k).toNat = k :=
  (BitVec.toNat_ofNat k n).trans (Nat.mod_eq_of_lt h)

/-- A byte_count of at most 125 registers is twice their number. -/
theorem toNat_byteCount {n : Nat} (h : n ≤ 125) : (BitVec.ofNat 8 (2 * n)).toNat = 2 * n :=
  toNat_ofNat_of_lt (by omega)

/-- The payload of a read response decodes to its registers (R79). -/
theorem decodeReadResponse_payload (addr : Byte) {regs : List Half} (h : regs.length ≤ 125) (chk : Half) :
    decodeReadResponse addr (readResponsePayload regs ++ [lo chk, hi chk]) = .ok (.wireRsp03 addr regs chk) := by
  rw [readResponsePayload, List.cons_append, decodeReadResponse, toNat_byteCount h, if_neg (by omega), if_neg (by omega),
    decodeRegisters_bytesBe16List]

/-- The payload of a write-multiple request decodes to its start and its registers (R82). -/
theorem decodeWriteRequest_payload (addr : Byte) (start : Half) {regs : List Half} (h : regs.length ≤ 123) (chk : Half) :
    decodeWriteRequest addr (writeRequestPayload start regs ++ [lo chk, hi chk]) = .ok (.wireReq10 addr start regs chk) := by
  have hcount : (BitVec.ofNat 16 regs.length).toNat = regs.length := toNat_ofNat_of_lt (by omega)
  simp only [writeRequestPayload, readResponsePayload, bytesBe16, List.cons_append, List.nil_append, decodeWriteRequest,
    be16_hi_lo, hcount, toNat_byteCount (show regs.length ≤ 125 by omega)]
  rw [if_neg (by omega), if_neg (not_not.2 rfl), decodeRegisters_bytesBe16List]

/-- A byte with bit 7 set is none of the function codes of the normal responses (R84, R85). -/
theorem normal_fc_of_bit7 {fc : Byte} (h : fc &&& 0x80 = 0x80) : fc ≠ 0x03 ∧ fc ≠ 0x06 ∧ fc ≠ 0x10 := by
  refine ⟨?_, ?_, ?_⟩ <;> rintro rfl <;> exact absurd h (by decide)

/-- The exception response decodes to its code (R84). -/
theorem decodeWire_exception (addr code : Byte) {fc : Byte} (h : fc &&& 0x80 = 0x80) (chk : Half) :
    decodeWire .response (frameOf addr fc [code] chk) = .ok (.wireExc addr fc code chk) := by
  obtain ⟨h3, h6, h10⟩ := normal_fc_of_bit7 h
  simp only [frameOf, decodeWire]
  rw [if_neg h3, if_neg h6, if_neg h10, if_pos h]
  simp [decodeException]

/-- Settles O33: the commands by their opcode and fields, each wire form by its part of the decoder. -/
theorem decodeUndoesEncode : Obligations.DecodeUndoesEncode := by
  intro i hwf
  cases i with
  | wireReq03 addr x y chk => exact decodeTwoFields_bytesBe16 (.wireReq03 addr) x y chk
  | wireReq06 addr x y chk => exact decodeTwoFields_bytesBe16 (.wireReq06 addr) x y chk
  | wireRsp06 addr x y chk => exact decodeTwoFields_bytesBe16 (.wireRsp06 addr) x y chk
  | wireRsp10 addr x y chk => exact decodeTwoFields_bytesBe16 (.wireRsp10 addr) x y chk
  | wireRsp03 addr regs chk => exact decodeReadResponse_payload addr (of_decide_eq_true hwf) chk
  | wireReq10 addr start regs chk => exact decodeWriteRequest_payload addr start (of_decide_eq_true hwf) chk
  | wireExc addr fc code chk => exact decodeWire_exception addr code (of_decide_eq_true hwf) chk
  | _ => exact decode_encode_command rfl

/-- A word of any width is the one its number gives. -/
theorem eq_ofNat_of_toNat {n k : Nat} {v : BitVec n} (h : v.toNat = k) : v = BitVec.ofNat n k := by
  rw [← h, BitVec.ofNat_toNat, BitVec.setWidth_eq]

/-- What decodes as a command is encoded by the word: the fields its row uses are the command's operands, the others 0. -/
theorem encode_of_decodeCommand {w : Word} {i : Instr} (h : decodeCommand w = .ok i) :
    i.wf = true ∧ encode i = .command w := by
  unfold decodeCommand at h
  split at h
  case h_18 => cases h
  all_goals
    rename_i hopc
    obtain ⟨rfl, hr, ha, hb, hc, hd⟩ := checkFields_eq_ok.1 h
    refine ⟨rfl, congrArg Encoding.command ?_⟩
    simpa [eq_ofNat_of_toNat hopc, ha, hb, hc, hd] using packWord_fields hr

/-- What decodes as an 8-byte frame is laid out by the two fields and the checksum. -/
theorem bytes_of_decodeTwoFields {mk : Half → Half → Half → Instr} {bs : List Byte} {i : Instr}
    (h : decodeTwoFields mk bs = .ok i) :
    ∃ x y chk, i = mk x y chk ∧ bs = bytesBe16 x ++ bytesBe16 y ++ [lo chk, hi chk] := by
  obtain ⟨x, y, chk, rfl, rfl⟩ := decodeTwoFields_eq_ok.1 h
  exact ⟨x, y, chk, rfl, rfl⟩

/-- What decodes as a read response is laid out by at most 125 registers. -/
theorem bytes_of_decodeReadResponse {addr : Byte} {bs : List Byte} {i : Instr} (h : decodeReadResponse addr bs = .ok i) :
    ∃ regs chk, i = .wireRsp03 addr regs chk ∧ regs.length ≤ 125 ∧ bs = readResponsePayload regs ++ [lo chk, hi chk] := by
  unfold decodeReadResponse at h
  split at h
  · rename_i byteCount data
    split at h; · cases h
    split at h; · cases h
    obtain ⟨regs, chk, rfl, hn, rfl⟩ := (decodeRegisters_eq_ok (by omega)).1 h
    exact ⟨regs, chk, rfl, by omega, by rw [eq_ofNat_of_toNat hn]; rfl⟩
  · cases h

/-- What decodes as a write-multiple request is laid out by its start and at most 123 registers. -/
theorem bytes_of_decodeWriteRequest {addr : Byte} {bs : List Byte} {i : Instr} (h : decodeWriteRequest addr bs = .ok i) :
    ∃ start regs chk, i = .wireReq10 addr start regs chk ∧ regs.length ≤ 123 ∧
      bs = writeRequestPayload start regs ++ [lo chk, hi chk] := by
  unfold decodeWriteRequest at h
  split at h
  · rename_i h1 l1 h2 l2 byteCount data
    split at h; · cases h
    split at h; · cases h
    have hbc : byteCount.toNat = 2 * (be16 h2 l2).toNat := by omega
    obtain ⟨regs, chk, rfl, hn, rfl⟩ := (decodeRegisters_eq_ok (by omega)).1 h
    have hcount : be16 h2 l2 = BitVec.ofNat 16 regs.length := eq_ofNat_of_toNat (by omega)
    refine ⟨be16 h1 l1, regs, chk, rfl, by omega, ?_⟩
    simp [writeRequestPayload, readResponsePayload, bytesBe16, ← hcount, ← eq_ofNat_of_toNat hn]
  · cases h

/-- What decodes as an exception response is laid out by its code. -/
theorem bytes_of_decodeException {addr fc : Byte} {bs : List Byte} {i : Instr} (h : decodeException addr fc bs = .ok i) :
    ∃ code chk, i = .wireExc addr fc code chk ∧ bs = [code] ++ [lo chk, hi chk] := by
  unfold decodeException at h
  split at h
  · cases h
    exact ⟨_, _, rfl, by simp⟩
  · cases h

/-- What decodes as a frame is well-formed and encoded by its bytes. -/
theorem encode_of_decodeWire {d : Direction} {bytes : List Byte} {i : Instr} (h : decodeWire d bytes = .ok i) :
    i.wf = true ∧ encode i = .frame d bytes := by
  unfold decodeWire at h
  split at h
  case h_2 => cases h
  case h_1 addr fc rest =>
  cases d with
  | request =>
    simp only at h
    split at h
    · obtain ⟨x, y, chk, rfl, rfl⟩ := bytes_of_decodeTwoFields h
      subst fc
      exact ⟨rfl, rfl⟩
    split at h
    · obtain ⟨x, y, chk, rfl, rfl⟩ := bytes_of_decodeTwoFields h
      subst fc
      exact ⟨rfl, rfl⟩
    split at h
    · obtain ⟨start, regs, chk, rfl, hl, rfl⟩ := bytes_of_decodeWriteRequest h
      subst fc
      exact ⟨decide_eq_true hl, rfl⟩
    · cases h
  | response =>
    simp only at h
    split at h
    · obtain ⟨regs, chk, rfl, hl, rfl⟩ := bytes_of_decodeReadResponse h
      subst fc
      exact ⟨decide_eq_true hl, rfl⟩
    split at h
    · obtain ⟨x, y, chk, rfl, rfl⟩ := bytes_of_decodeTwoFields h
      subst fc
      exact ⟨rfl, rfl⟩
    split at h
    · obtain ⟨x, y, chk, rfl, rfl⟩ := bytes_of_decodeTwoFields h
      subst fc
      exact ⟨rfl, rfl⟩
    split at h
    · obtain ⟨code, chk, rfl, rfl⟩ := bytes_of_decodeException h
      exact ⟨decide_eq_true ‹fc &&& 0x80 = 0x80›, rfl⟩
    · cases h

/-- Settles O34: a word by its fields, a frame by the layout its part of the decoder accepts. -/
theorem encodeUndoesDecode : Obligations.EncodeUndoesDecode := by
  intro e i h
  cases e with
  | command w => exact encode_of_decodeCommand h
  | frame d bytes => exact encode_of_decodeWire h

/-- Settles O32: the decoder evaluated on the spec's words and frames. -/
theorem specWordsDecode : Obligations.SpecWordsDecode :=
  ⟨rfl, rfl, rfl, rfl, rfl, rfl, rfl, rfl, rfl, rfl, rfl, rfl, rfl⟩

end Sys2Proof
end

section
/-! PROOF. FRAME_PARSE further (R125, R127, R52): a normal response's payload, a frame with one byte changed, and the unwritten
bytes at which it faults. -/

namespace Sys2Proof.Machine

variable {s : State} {a f : Byte} {cap : Half}

/-- The part of a held run between a head and a tail, at the head's length. -/
theorem Memory.holds_middle {α : Type} {m : Memory α} {vs : List α} (h : m.holds 0 vs) (n k : Nat) :
    m.holds n ((vs.drop n).take k) := by
  simpa only [Nat.zero_add] using Memory.holds_take (Memory.holds_drop h n) k

/-- A normal response whose payload fits is copied: PB and PLEN get it, the result registers say normal (R125). -/
theorem parseNormal_of_holds {r : Byte} {payload : List Byte} (hlen : s.flen.toNat = payload.length + 4)
    (hfb : s.fb.holds 2 payload) (hcap : payload.length ≤ cap.toNat) :
    parseNormal r cap s = ok ((s.putPayload payload).setResponse 0 0 r) := by
  rw [parseNormal, if_neg (by omega), show s.flen.toNat - 4 = payload.length by omega, withFbRange_of_holds hfb]

/-- A payload left in PB is stored there, PLEN is its length, and nothing else is written. -/
theorem putPayload_eq {n : Half} {bytes : List Byte} (h : bytes.length = n.toNat) :
    s.putPayload bytes = { s with pb := s.pb.writeRange 0 bytes, plen := n } := by
  rw [State.putPayload, h, BitVec.ofNat_toNat, BitVec.setWidth_eq]
  rfl

/-- FRAME_PARSE of a normal response with a right checksum whose payload fits (R125). -/
theorem exec_frameParse_normal {chkLo chkHi : Byte} {payload : List Byte} (hlen : s.flen.toNat = payload.length + 4)
    (h256 : s.flen.toNat ≤ 256) (hfb : s.fb.holds 0 (a :: f :: payload ++ [chkLo, chkHi]))
    (hcrc : crc16 (a :: f :: payload) = be16 chkHi chkLo) (hexc : f ≠ f ||| 0x80) (hcap : payload.length ≤ cap.toNat) :
    exec (.frameParse a f cap) s = ok ((s.putPayload payload).setResponse 0 0 f) := by
  have hpayload : s.fb.holds 2 payload := by simpa using Memory.holds_middle hfb 2 payload.length
  rw [exec_frameParse_of_holds hlen h256 hfb, if_neg (not_not.2 hcrc), if_neg hexc, if_neg (not_not.2 rfl),
    parseNormal_of_holds hlen hpayload hcap]

/-- Settles O14: the frame passes every check, and its payload stands behind its first two bytes. -/
theorem frameParseCopiesANormalPayload : Obligations.FrameParseCopiesANormalPayload := by
  intro s a f cap payload chkLo chkHi hlen h256 hfb hcrc hexc hcap
  have hplen : payload.length = (s.flen - 4).toNat := by bv_omega
  refine ⟨{ s with
    pb := s.pb.writeRange 0 payload, plen := s.flen - 4, rspKind := 0, excCode := 0, dFc := f, status := 0 }, ?_,
    stored_writeRange s.pb payload, rfl⟩
  rw [exec_frameParse_normal hlen h256 hfb hcrc hexc hcap, putPayload_eq hplen]
  rfl

/-- FRAME_PARSE of a whole frame from the address asked for whose checksum is wrong (R127). -/
theorem exec_frameParse_of_not_chkOk {frame : List Byte} (hlen : s.flen.toNat = frame.length) (h4 : 4 ≤ frame.length)
    (h256 : frame.length ≤ 256) (hfb : s.fb.holds 0 frame) (h0 : frame[0]? = some a) (hchk : chkOk frame = false) :
    exec (.frameParse a f cap) s = .next { s with status := 4 } := by
  rw [exec, execFrameParse, if_neg (by omega), if_neg (by omega), withFb_of_read (Memory.read_of_holds hfb h0),
    if_neg (not_not.2 rfl), hlen, withFbRange_of_holds hfb, if_pos hchk]
  rfl

/-- Settles O58: byte 0 is compared with the address before the checksum is looked at; any other changed byte makes the checksum
test fail. -/
theorem frameParseRejectsEveryChangedByte : Obligations.FrameParseRejectsEveryChangedByte := by
  intro s a f cap frame i b h4 h256 hlen h0 hchk hi hb hfb
  cases i with
  | zero =>
    have hb0 : s.fb.read 0 = some b := Memory.read_of_holds hfb (by simp [hi])
    have hne : b ≠ a := fun e => hb (e ▸ h0)
    rw [exec_frameParse_of_other_address (by omega) (by omega) hb0 hne, if_pos rfl]
  | succ i =>
    have hlen' : (frame.set (i + 1) b).length = frame.length := List.length_set
    have h0' : (frame.set (i + 1) b)[0]? = some a := by rwa [List.getElem?_set_ne (by omega)]
    obtain ⟨-, -, -, hdetects⟩ := checksumDetectsEverySingleByteChange
    rw [exec_frameParse_of_not_chkOk (by omega) (by omega) (by omega) hfb h0' (hdetects frame (i + 1) b hchk hi hb),
      if_neg (by omega)]

/-- A read of an unwritten byte of FB faults (R52). -/
theorem withFb_of_unwritten {i : Nat} (h : s.fb.read i = none) (k : Byte → Result) :
    withFb s i k = .fault (.unwrittenFb i) := by
  rw [withFb, h]

/-- FRAME_PARSE reads FB[0] first (R125). -/
theorem exec_frameParse_of_unwritten_address (h4 : 4 ≤ s.flen.toNat) (h256 : s.flen.toNat ≤ 256)
    (h0 : s.fb.read 0 = none) : exec (.frameParse a f cap) s = .fault (.unwrittenFb 0) := by
  rw [exec, execFrameParse, if_neg (by omega), if_neg (by omega), withFb_of_unwritten h0]

/-- FRAME_PARSE of a frame from the address asked for then reads the frame (R125). -/
theorem exec_frameParse_of_unwritten {j : Nat} (h4 : 4 ≤ s.flen.toNat) (h256 : s.flen.toNat ≤ 256)
    (h0 : s.fb.read 0 = some a) (hj : j < s.flen.toNat) (hu : s.fb.firstUnwritten 0 j) :
    exec (.frameParse a f cap) s = .fault (.unwrittenFb j) := by
  rw [exec, execFrameParse, if_neg (by omega), if_neg (by omega), withFb_of_read h0, if_neg (not_not.2 rfl),
    withFbRange_of_unwritten hu (by omega)]

end Sys2Proof.Machine
end

section
/-! PROOF. SLAVE_PARSE further (R132, R52): the checks of the header, of the count and of the whole frame, each for every frame
that passes the ones before it, and the unwritten bytes at which it faults. -/

namespace Sys2Proof.Machine

variable {s : State} {own f : Byte}

/-- SLAVE_PARSE with FLEN past the end of FB (R132). -/
theorem exec_slaveParse_of_gt (h : 256 < s.flen.toNat) : exec (.slaveParse own) s = .next { s with status := 2 } :=
  if_pos h

/-- SLAVE_PARSE for an own address that is invalid (R132). -/
theorem exec_slaveParse_of_invalid (h256 : s.flen.toNat ≤ 256) (hown : validAddr own = false) :
    exec (.slaveParse own) s = .next { s with status := 1 } :=
  (if_neg (by omega)).trans (if_pos hown)

/-- SLAVE_PARSE of a frame without a header (R132). -/
theorem exec_slaveParse_of_lt (hown : validAddr own = true) (h : s.flen.toNat < 2) :
    exec (.slaveParse own) s = .next { s with status := 3 } :=
  (if_neg (by omega)).trans ((if_neg (by simp [hown])).trans (if_pos h))

/-- SLAVE_PARSE of a frame with a header reads the address, then the function code (R132). -/
theorem exec_slaveParse_of_le (hown : validAddr own = true) (h2 : 2 ≤ s.flen.toNat) (h256 : s.flen.toNat ≤ 256) :
    exec (.slaveParse own) s = withFb s 0 fun b0 =>
      if b0 ≠ own then fail .invalidAddress s
      else withFb s 1 fun f => if recognised f = false then fail .invalidFunctionCode s else slaveLength f s := by
  rw [exec, execSlaveParse, if_neg (by omega), if_neg (by simp [hown]), if_neg (by omega)]

/-- SLAVE_PARSE of a frame to another slave (R132). -/
theorem exec_slaveParse_of_other_address {b : Byte} (hown : validAddr own = true) (h2 : 2 ≤ s.flen.toNat)
    (h256 : s.flen.toNat ≤ 256) (hb : s.fb.read 0 = some b) (hne : b ≠ own) :
    exec (.slaveParse own) s = .next { s with status := 1 } := by
  rw [exec_slaveParse_of_le hown h2 h256, withFb_of_read hb, if_pos hne]
  rfl

/-- The function codes that a slave does not recognise (R85). -/
theorem recognised_eq_false (h3 : f ≠ 0x03) (h6 : f ≠ 0x06) (h10 : f ≠ 0x10) : recognised f = false := by
  simp only [recognised, decide_eq_false h3, decide_eq_false h6, decide_eq_false h10, Bool.or_self]

/-- SLAVE_PARSE of a function code that a slave does not recognise (R132). -/
theorem exec_slaveParse_of_unrecognised (hown : validAddr own = true) (h2 : 2 ≤ s.flen.toNat) (h256 : s.flen.toNat ≤ 256)
    (h0 : s.fb.read 0 = some own) (h1 : s.fb.read 1 = some f) (hf : recognised f = false) :
    exec (.slaveParse own) s = .next { s with status := 5 } := by
  rw [exec_slaveParse_of_le hown h2 h256, withFb_of_read h0, if_neg (not_not.2 rfl), withFb_of_read h1, if_pos hf]
  rfl

/-- A frame of another length than expected fails before it is read (R132). -/
theorem slaveVerify_of_length_ne {cnt : Half} {expect : Nat} (h : s.flen.toNat ≠ expect) :
    slaveVerify f cnt expect s = .next { s with status := 3 } :=
  if_pos h

/-- A frame of the length expected that is not all written faults (R132, R52). -/
theorem slaveVerify_of_unwritten {cnt : Half} {expect j : Nat} (h : s.flen.toNat = expect) (hj : j < s.flen.toNat)
    (hu : s.fb.firstUnwritten 0 j) : slaveVerify f cnt expect s = .fault (.unwrittenFb j) := by
  rw [slaveVerify, if_neg (not_not.2 h), withFbRange_of_unwritten hu (by omega)]

/-- A read or a single write is 8 bytes long (R87). -/
theorem slaveLength_of_fixed (h : f = 0x03 ∨ f = 0x06) : slaveLength f s = slaveVerify f 0 8 s :=
  if_pos h

/-- A multiple write too short for its count fails (R132). -/
theorem slaveLength_0x10_of_lt (h : s.flen.toNat < 6) : slaveLength 0x10 s = .next { s with status := 3 } :=
  (if_neg (by decide)).trans (if_pos h)

/-- A multiple write's count is its bytes 4 and 5 (R132). -/
theorem slaveLength_0x10_of_le (h : 6 ≤ s.flen.toNat) :
    slaveLength 0x10 s = withFbHalf s 4 fun cnt =>
      if cnt.toNat > 123 then fail .invalidParameter s else slaveVerify 0x10 cnt (9 + 2 * cnt.toNat) s := by
  rw [slaveLength, if_neg (by decide), if_neg (by omega)]

/-- A multiple write of more registers than a frame holds fails (R132). -/
theorem slaveLength_0x10_of_count_gt {h l : Byte} (h6 : 6 ≤ s.flen.toNat) (hh : s.fb.read 4 = some h)
    (hl : s.fb.read 5 = some l) (hcnt : 123 < (be16 h l).toNat) : slaveLength 0x10 s = .next { s with status := 2 } := by
  rw [slaveLength_0x10_of_le h6, withFbHalf_of_read hh hl, if_pos hcnt]
  rfl

/-- Any other multiple write is verified against the length its count gives (R132). -/
theorem slaveLength_0x10_of_count_le {h l : Byte} (h6 : 6 ≤ s.flen.toNat) (hh : s.fb.read 4 = some h)
    (hl : s.fb.read 5 = some l) (hcnt : (be16 h l).toNat ≤ 123) :
    slaveLength 0x10 s = slaveVerify 0x10 (be16 h l) (9 + 2 * (be16 h l).toNat) s := by
  rw [slaveLength_0x10_of_le h6, withFbHalf_of_read hh hl, if_neg (Nat.not_lt.2 hcnt)]

/-- A read and a single write are recognised (R85). -/
theorem recognised_of_fixed (h : f = 0x03 ∨ f = 0x06) : recognised f = true := by
  obtain rfl | rfl := h <;> rfl

/-- Settles O19: the header's checks by their own equations, the others by the equation of a frame with a recognised header and
that of its function code's length. -/
theorem slaveParseFailurePriority : Obligations.SlaveParseFailurePriority := by
  refine fun s own => ⟨exec_slaveParse_of_gt, fun h256 hinv => exec_slaveParse_of_invalid h256 (validAddr_eq_false.2 hinv),
    fun h1 h247 => ?_⟩
  have hown := validAddr_eq_true.2 ⟨h1, h247⟩
  refine ⟨exec_slaveParse_of_lt hown, fun h2 h256 =>
    ⟨fun b hb hne => exec_slaveParse_of_other_address hown h2 h256 hb hne, fun hb0 f hf => ?_⟩⟩
  have hheader (hrec : recognised f = true) := exec_slaveParse_of_header hown h2 h256 hb0 hf hrec
  refine ⟨fun h3 h6 h10 => exec_slaveParse_of_unrecognised hown h2 h256 hb0 hf (recognised_eq_false h3 h6 h10),
    fun hfix h8 => ?_, ?_, ?_, fun body chkLo chkHi hlen hfb hcrc hkind => ?_⟩
  · rw [hheader (recognised_of_fixed hfix), slaveLength_of_fixed hfix, slaveVerify_of_length_ne h8]
  · rintro rfl hlt
    rw [hheader rfl, slaveLength_0x10_of_lt hlt]
  · rintro rfl h6 h l hh hl
    rw [hheader rfl]
    exact ⟨slaveLength_0x10_of_count_gt h6 hh hl, fun hcnt hne =>
      (slaveLength_0x10_of_count_le h6 hh hl hcnt).trans (slaveVerify_of_length_ne hne)⟩
  · have hfails {cnt : Half} {expect : Nat} (he : s.flen.toNat = expect) :
        slaveVerify f cnt expect s = .next { s with status := 4 } := by
      rw [slaveVerify_of_holds he (by omega) hfb, if_pos hcrc]
      rfl
    obtain ⟨hfix, h8⟩ | ⟨rfl, h, l, hh, hl, hcnt, he⟩ := hkind
    · rw [hheader (recognised_of_fixed hfix), slaveLength_of_fixed hfix, hfails h8]
    · rw [hheader rfl, slaveLength_0x10_of_count_le (by omega) hh hl hcnt, hfails he]

/-- Settles O17: each read that meets an unwritten byte faults there, the reads before it being of written bytes. -/
theorem parsersFaultOnUnwrittenBytes : Obligations.ParsersFaultOnUnwrittenBytes := by
  refine fun s a f cap => ⟨exec_frameParse_of_unwritten_address, fun j h4 h256 h0 hj hu =>
    exec_frameParse_of_unwritten h4 h256 h0 hj hu, fun h2 h256 h1 h247 h0 => ?_, fun h2 h256 h1 h247 h0 hf => ?_,
    fun j h8 h1 h247 h0 hf hj hu => ?_, fun h6 h256 h1 h247 h0 hf => ?_⟩
  · rw [exec_slaveParse_of_le (validAddr_eq_true.2 ⟨h1, h247⟩) h2 h256, withFb_of_unwritten h0]
  · rw [exec_slaveParse_of_le (validAddr_eq_true.2 ⟨h1, h247⟩) h2 h256, withFb_of_read h0, if_neg (not_not.2 rfl),
      withFb_of_unwritten hf]
  · have hfixed {g : Byte} (hg : s.fb.read 1 = some g) (hfix : g = 0x03 ∨ g = 0x06) :
        exec (.slaveParse a) s = .fault (.unwrittenFb j) := by
      rw [exec_slaveParse_of_header (validAddr_eq_true.2 ⟨h1, h247⟩) (by omega) (by omega) h0 hg (recognised_of_fixed hfix),
        slaveLength_of_fixed hfix, slaveVerify_of_unwritten h8 (by omega) hu]
    exact hf.elim (hfixed · (.inl rfl)) (hfixed · (.inr rfl))
  · rw [exec_slaveParse_of_header (validAddr_eq_true.2 ⟨h1, h247⟩) (by omega) h256 h0 hf rfl]
    refine ⟨fun h4 => ?_, fun h hh h5 => ?_, fun h l j hh hl hcnt hlen hj hu => ?_⟩
    · rw [slaveLength_0x10_of_le h6, withFbHalf, withFb_of_unwritten h4]
    · rw [slaveLength_0x10_of_le h6, withFbHalf, withFb_of_read hh, withFb_of_unwritten h5]
    · rw [slaveLength_0x10_of_count_le h6 hh hl hcnt, slaveVerify_of_unwritten hlen hj hu]

end Sys2Proof.Machine
end

section
/-! PROOF. What the 17 commands may write (R181, R20 to R38, R10): their statuses, their registers and the leading elements of
the buffers they store. -/

namespace Sys2Proof.Machine

variable {s t : State}

/-- Settles O40: each command's cases name the status each leaves. -/
theorem commandsLeaveOnlyTheirStatuses : Obligations.CommandsLeaveOnlyTheirStatuses := by
  intro s t i hc h
  cases i with
  | crcReset => obtain rfl := execCrcReset_cases h; rfl
  | crcFeed byte => obtain rfl := execCrcFeed_cases h; rfl
  | crcBuf n =>
    obtain ⟨-, rfl⟩ | ⟨bytes, -, -, -, rfl⟩ := execCrcBuf_cases h
    exacts [.inr rfl, .inl rfl]
  | addrCheck addr =>
    obtain ⟨-, rfl⟩ | ⟨-, rfl⟩ := execAddrCheck_cases h
    exacts [.inl rfl, .inr rfl]
  | frameBuild addr fc =>
    obtain ⟨-, rfl⟩ | ⟨-, -, rfl⟩ | ⟨payload, -, -, -, -, rfl⟩ := execFrameBuild_cases h
    exacts [.inr (.inl rfl), .inr (.inr rfl), .inl rfl]
  | frameParse addr fc cap =>
    obtain (rfl | rfl | rfl | rfl) | ⟨code, -, -, -, -, rfl⟩ | ⟨payload, -, -, -, -, -, rfl⟩ := execFrameParse_cases h
    exacts [.inr (.inl rfl), .inr (.inr (.inl rfl)), .inr (.inr (.inr (.inl rfl))), .inr (.inr (.inr (.inr rfl))), .inl rfl,
      .inl rfl]
  | slaveParse own =>
    obtain hfail | ⟨f, cnt, -, hdecode, -⟩ := execSlaveParse_cases h
    · obtain rfl | rfl | rfl | rfl | rfl := hfail <;> exact Nat.le_of_ble_eq_true rfl
    · obtain ⟨ah, al, vh, vl, -, -, -, -, -, rfl⟩ | ⟨ah, al, vh, vl, -, -, -, -, -, rfl⟩ |
        ⟨ah, al, bc, data, -, -, -, -, -, -, -, rfl⟩ := slaveDecode_cases hdecode <;> exact Nat.zero_le 5
  | reqRemlen fc count =>
    obtain (⟨-, -, rfl⟩ | ⟨-, rfl⟩) | ⟨-, rfl⟩ | ⟨-, -, rfl⟩ := execReqRemlen_cases h
    exacts [.inr (.inl rfl), .inr (.inr rfl), .inl rfl, .inl rfl]
  | mrsRdReq start count =>
    obtain rfl | ⟨-, -, rfl⟩ := execMrsRdReq_cases h
    exacts [.inr rfl, .inl rfl]
  | mrsWs addr value | mrsWmRsp start count => obtain rfl := marshalPair_cases h; rfl
  | mrsWmReq start count =>
    obtain rfl | ⟨vs, -, -, -, -, rfl⟩ := execMrsWmReq_cases h
    exacts [.inr rfl, .inl rfl]
  | mrsRdRsp count =>
    obtain rfl | ⟨vs, -, -, -, -, rfl⟩ := execMrsRdRsp_cases h
    exacts [.inr rfl, .inl rfl]
  | mrsExc code =>
    obtain rfl | ⟨-, -, rfl⟩ := execMrsExc_cases h
    exacts [.inr rfl, .inl rfl]
  | unmRdRsp count =>
    obtain (rfl | rfl) | ⟨data, -, -, -, -, -, rfl⟩ := execUnmRdRsp_cases h
    exacts [.inr (.inl rfl), .inr (.inr rfl), .inl rfl]
  | chkWsRsp addr value | chkWmRsp start count =>
    obtain rfl | rfl | ⟨-, -, rfl⟩ := checkEcho_cases h
    exacts [.inr (.inl rfl), .inr (.inr rfl), .inl rfl]
  | _ => trivial

/-- The state before with the registers and buffers that a command's rule writes, but for STATUS, taken from the state after
(the column "Written by commands" of R20 to R38). -/
def withWritten (i : Instr) (s t : State) : State :=
  match i with
  | .crcReset | .crcFeed _ | .crcBuf _ => { s with acc := t.acc }
  | .frameBuild _ _ => { s with fb := t.fb, flen := t.flen }
  | .frameParse _ _ _ =>
    { s with pb := t.pb, plen := t.plen, rspKind := t.rspKind, excCode := t.excCode, dFc := t.dFc }
  | .slaveParse _ =>
    { s with
      rg := t.rg, rcount := t.rcount, dFc := t.dFc, dAddr := t.dAddr, dCount := t.dCount, dValue := t.dValue,
      dBc := t.dBc }
  | .reqRemlen _ _ => { s with dLen := t.dLen }
  | .mrsRdReq _ _ | .mrsWs _ _ | .mrsWmReq _ _ | .mrsRdRsp _ | .mrsWmRsp _ _ | .mrsExc _ =>
    { s with pb := t.pb, plen := t.plen }
  | .unmRdRsp _ => { s with rg := t.rg, rcount := t.rcount }
  | _ => s

/-- A command writes STATUS and what its rule writes, and keeps everything else. -/
theorem exec_command_frame {i : Instr} (hc : i.isCommand = true) (h : exec i s = .next t) :
    t = (withWritten i s t).setStatus t.status := by
  cases i with
  | crcReset => obtain rfl := execCrcReset_cases h; rfl
  | crcFeed byte => obtain rfl := execCrcFeed_cases h; rfl
  | crcBuf n => obtain ⟨-, rfl⟩ | ⟨bytes, -, -, -, rfl⟩ := execCrcBuf_cases h <;> rfl
  | addrCheck addr => obtain ⟨-, rfl⟩ | ⟨-, rfl⟩ := execAddrCheck_cases h <;> rfl
  | frameBuild addr fc =>
    obtain ⟨-, rfl⟩ | ⟨-, -, rfl⟩ | ⟨payload, -, -, -, -, rfl⟩ := execFrameBuild_cases h <;> rfl
  | frameParse addr fc cap =>
    obtain (rfl | rfl | rfl | rfl) | ⟨code, -, -, -, -, rfl⟩ | ⟨payload, -, -, -, -, -, rfl⟩ :=
      execFrameParse_cases h <;> rfl
  | slaveParse own =>
    obtain hfail | ⟨f, cnt, -, hdecode, -⟩ := execSlaveParse_cases h
    · obtain rfl | rfl | rfl | rfl | rfl := hfail <;> rfl
    · obtain ⟨ah, al, vh, vl, -, -, -, -, -, rfl⟩ | ⟨ah, al, vh, vl, -, -, -, -, -, rfl⟩ |
        ⟨ah, al, bc, data, -, -, -, -, -, -, -, rfl⟩ := slaveDecode_cases hdecode <;> rfl
  | reqRemlen fc count =>
    obtain (⟨-, -, rfl⟩ | ⟨-, rfl⟩) | ⟨-, rfl⟩ | ⟨-, -, rfl⟩ := execReqRemlen_cases h <;> rfl
  | mrsRdReq start count => obtain rfl | ⟨-, -, rfl⟩ := execMrsRdReq_cases h <;> rfl
  | mrsWs addr value | mrsWmRsp start count => obtain rfl := marshalPair_cases h; rfl
  | mrsWmReq start count => obtain rfl | ⟨vs, -, -, -, -, rfl⟩ := execMrsWmReq_cases h <;> rfl
  | mrsRdRsp count => obtain rfl | ⟨vs, -, -, -, -, rfl⟩ := execMrsRdRsp_cases h <;> rfl
  | mrsExc code => obtain rfl | ⟨-, -, rfl⟩ := execMrsExc_cases h <;> rfl
  | unmRdRsp count => obtain (rfl | rfl) | ⟨data, -, -, -, -, -, rfl⟩ := execUnmRdRsp_cases h <;> rfl
  | chkWsRsp addr value | chkWmRsp start count => obtain rfl | rfl | ⟨-, -, rfl⟩ := checkEcho_cases h <;> rfl
  | _ => cases hc

/-- Settles O41: of the frame of each command, a field the command's rule does not write is the one before, so only a command
that writes it is left. -/
theorem commandsWriteOnlyTheirRegisters : Obligations.CommandsWriteOnlyTheirRegisters := by
  intro s t i hc h
  rw [exec_command_frame hc h]
  cases i with
  | wireReq03 | wireRsp03 | wireReq06 | wireRsp06 | wireReq10 | wireRsp10 | wireExc => cases hc
  | _ => simp [withWritten]

/-- A buffer with a run stored from index 0 reads as before from the run's end on. -/
theorem read_stored_of_le {α : Type} (m : Memory α) {vs : List α} {n k : Nat} (hn : vs.length ≤ n) (hk : n ≤ k) :
    (m.writeRange 0 vs).read k = m.read k :=
  Memory.read_writeRange_outside m (.inr (by omega))

/-- SLAVE_PARSE stores in RG only, only for 0x10, and there as many registers as the frame's count says (R133). -/
theorem execSlaveParse_rg {own : Byte} (h : execSlaveParse own s = .next t) :
    t.rg = s.rg ∨ s.fb.read 1 = some 0x10 ∧ ∃ hb lb values, s.fb.read 4 = some hb ∧ s.fb.read 5 = some lb ∧
      values.length = (be16 hb lb).toNat ∧ t.rg = s.rg.writeRange 0 values := by
  obtain hfail | ⟨f, cnt, hf, hdecode, hcnt⟩ := execSlaveParse_cases h
  · obtain rfl | rfl | rfl | rfl | rfl := hfail <;> exact .inl rfl
  · obtain ⟨ah, al, vh, vl, -, -, -, -, -, rfl⟩ | ⟨ah, al, vh, vl, -, -, -, -, -, rfl⟩ |
      ⟨ah, al, bc, data, h3, h6, -, -, -, hlen, -, rfl⟩ := slaveDecode_cases hdecode
    · exact .inl rfl
    · exact .inl rfl
    · obtain ⟨hfix, -⟩ | ⟨rfl, -, -, hb, lb, hhb, hlb, rfl⟩ := hcnt
      · exact absurd hfix (not_or.2 ⟨h3, h6⟩)
      · exact .inr ⟨hf, hb, lb, be16List data, hhb, hlb, by rw [be16List_length]; omega, rfl⟩

/-- Settles O42: a buffer a command does not store is the one before, and a stored run ends where its rule's count says. -/
theorem storingCommandsKeepOtherElements : Obligations.StoringCommandsKeepOtherElements := by
  intro s t i k hc h
  cases i with
  | crcReset => obtain rfl := execCrcReset_cases h; exact ⟨rfl, rfl, rfl⟩
  | crcFeed byte => obtain rfl := execCrcFeed_cases h; exact ⟨rfl, rfl, rfl⟩
  | crcBuf n => obtain ⟨-, rfl⟩ | ⟨bytes, -, -, -, rfl⟩ := execCrcBuf_cases h <;> exact ⟨rfl, rfl, rfl⟩
  | addrCheck addr => obtain ⟨-, rfl⟩ | ⟨-, rfl⟩ := execAddrCheck_cases h <;> exact ⟨rfl, rfl, rfl⟩
  | frameBuild addr fc =>
    obtain ⟨-, rfl⟩ | ⟨-, -, rfl⟩ | ⟨payload, -, hl, -, -, rfl⟩ := execFrameBuild_cases h
    · exact ⟨fun _ => rfl, rfl, rfl⟩
    · exact ⟨fun _ => rfl, rfl, rfl⟩
    · exact ⟨read_stored_of_le s.fb (by simp [hl]), rfl, rfl⟩
  | frameParse addr fc cap =>
    obtain hfail | ⟨code, -, -, -, -, rfl⟩ | ⟨payload, hl, -, -, -, -, rfl⟩ := execFrameParse_cases h
    · obtain rfl | rfl | rfl | rfl := hfail <;> exact ⟨fun _ => rfl, rfl, rfl⟩
    · exact ⟨fun _ => rfl, rfl, rfl⟩
    · exact ⟨read_stored_of_le s.pb (by omega), rfl, rfl⟩
  | slaveParse own =>
    have hframe := exec_command_frame hc h
    have hfb : t.fb = s.fb := (congrArg State.fb hframe).trans rfl
    have hpb : t.pb = s.pb := (congrArg State.pb hframe).trans rfl
    obtain hrg | ⟨h10, hb, lb, values, hhb, hlb, hl, hrg⟩ := execSlaveParse_rg h
    · exact ⟨fun _ _ _ _ _ => by rw [hrg], fun _ => by rw [hrg], by rw [hfb], by rw [hpb]⟩
    · refine ⟨fun hb' lb' hhb' hlb' hk => ?_, fun hne => absurd h10 hne, by rw [hfb], by rw [hpb]⟩
      obtain rfl := Option.some.inj (hhb.symm.trans hhb')
      obtain rfl := Option.some.inj (hlb.symm.trans hlb')
      rw [hrg, read_stored_of_le s.rg (Nat.le_of_eq hl) hk]
  | reqRemlen fc count =>
    obtain (⟨-, -, rfl⟩ | ⟨-, rfl⟩) | ⟨-, rfl⟩ | ⟨-, -, rfl⟩ := execReqRemlen_cases h <;> exact ⟨rfl, rfl, rfl⟩
  | mrsRdReq start count =>
    obtain rfl | ⟨-, -, rfl⟩ := execMrsRdReq_cases h
    exacts [⟨fun _ => rfl, rfl, rfl⟩, ⟨read_stored_of_le s.pb (Nat.le_refl 4), rfl, rfl⟩]
  | mrsWs addr value | mrsWmRsp start count =>
    obtain rfl := marshalPair_cases h
    exact ⟨read_stored_of_le s.pb (Nat.le_refl 4), rfl, rfl⟩
  | mrsWmReq start count =>
    obtain rfl | ⟨vs, hl, -, -, -, rfl⟩ := execMrsWmReq_cases h
    · exact ⟨fun _ => rfl, rfl, rfl⟩
    · exact ⟨read_stored_of_le s.pb (by simp only [List.length_cons, bytesBe16List_length]; omega), rfl, rfl⟩
  | mrsRdRsp count =>
    obtain rfl | ⟨vs, hl, -, -, -, rfl⟩ := execMrsRdRsp_cases h
    · exact ⟨fun _ => rfl, rfl, rfl⟩
    · exact ⟨read_stored_of_le s.pb (by simp only [List.length_cons, bytesBe16List_length]; omega), rfl, rfl⟩
  | mrsExc code =>
    obtain rfl | ⟨-, -, rfl⟩ := execMrsExc_cases h
    exacts [⟨fun _ => rfl, rfl, rfl⟩, ⟨read_stored_of_le s.pb (Nat.le_refl 1), rfl, rfl⟩]
  | unmRdRsp count =>
    obtain (rfl | rfl) | ⟨data, hl, -, -, -, -, rfl⟩ := execUnmRdRsp_cases h
    · exact ⟨fun _ => rfl, rfl, rfl⟩
    · exact ⟨fun _ => rfl, rfl, rfl⟩
    · exact ⟨read_stored_of_le s.rg (by rw [be16List_length]; omega), rfl, rfl⟩
  | chkWsRsp addr value | chkWmRsp start count =>
    obtain rfl | rfl | ⟨-, -, rfl⟩ := checkEcho_cases h <;> exact ⟨rfl, rfl, rfl⟩
  | _ => cases hc

end Sys2Proof.Machine
end

section
/-! PROOF. Where a command faults (R50, R52): each reads within its buffers, so its fault names an unwritten element of a buffer
it reads, and where everything is written it completes. -/

namespace Sys2Proof.Machine

variable {s : State}

/-- The fault of an unwritten byte of FB. -/
def UnwrittenFb (s : State) (r : Fault) : Prop := ∃ j, r = .unwrittenFb j ∧ j < 256 ∧ s.fb.read j = none
/-- The fault of an unwritten byte of PB. -/
def UnwrittenPb (s : State) (r : Fault) : Prop := ∃ j, r = .unwrittenPb j ∧ j < 256 ∧ s.pb.read j = none
/-- The fault of an unwritten register of RG. -/
def UnwrittenRg (s : State) (r : Fault) : Prop := ∃ j, r = .unwrittenRg j ∧ j < 125 ∧ s.rg.read j = none

/-- The outcome is a next state or one of the faults `P` admits: never a refusal. -/
def NextOrFault (P : Fault → Prop) : Result → Prop
  | .next _ => True
  | .fault r => P r
  | .refused _ => False

theorem nextOrFault_fail {P : Fault → Prop} (st : Status) : NextOrFault P (fail st s) := trivial
theorem nextOrFault_ok {P : Fault → Prop} (t : State) : NextOrFault P (ok t) := trivial

theorem nextOrFault_ite {P : Fault → Prop} {c : Prop} [Decidable c] {a b : Result} (ha : c → NextOrFault P a)
    (hb : ¬ c → NextOrFault P b) : NextOrFault P (if c then a else b) := by
  split
  exacts [ha ‹_›, hb ‹_›]

theorem nextOrFault_withFb {i : Nat} {k : Byte → Result} (hi : i < 256) (hk : ∀ b, NextOrFault (UnwrittenFb s) (k b)) :
    NextOrFault (UnwrittenFb s) (withFb s i k) := by
  unfold withFb
  split
  exacts [⟨i, rfl, hi, ‹_›⟩, hk _]

theorem nextOrFault_withPb {i : Nat} {k : Byte → Result} (hi : i < 256) (hk : ∀ b, NextOrFault (UnwrittenPb s) (k b)) :
    NextOrFault (UnwrittenPb s) (withPb s i k) := by
  unfold withPb
  split
  exacts [⟨i, rfl, hi, ‹_›⟩, hk _]

theorem nextOrFault_withFbRange {i n : Nat} {k : List Byte → Result} (hn : i + n ≤ 256)
    (hk : ∀ bs, NextOrFault (UnwrittenFb s) (k bs)) : NextOrFault (UnwrittenFb s) (withFbRange s i n k) := by
  unfold withFbRange
  split
  · rename_i j hj
    obtain ⟨-, hlt, hnone, -⟩ := Memory.readRange_error hj
    exact ⟨j, rfl, by omega, hnone⟩
  · exact hk _

theorem nextOrFault_withPbRange {i n : Nat} {k : List Byte → Result} (hn : i + n ≤ 256)
    (hk : ∀ bs, NextOrFault (UnwrittenPb s) (k bs)) : NextOrFault (UnwrittenPb s) (withPbRange s i n k) := by
  unfold withPbRange
  split
  · rename_i j hj
    obtain ⟨-, hlt, hnone, -⟩ := Memory.readRange_error hj
    exact ⟨j, rfl, by omega, hnone⟩
  · exact hk _

theorem nextOrFault_withFbHalf {i : Nat} {k : Half → Result} (hi : i + 1 < 256)
    (hk : ∀ v, NextOrFault (UnwrittenFb s) (k v)) : NextOrFault (UnwrittenFb s) (withFbHalf s i k) :=
  nextOrFault_withFb (by omega) fun _ => nextOrFault_withFb hi fun _ => hk _

/-- The registers a command leaves as a payload are read from RG. -/
theorem nextOrFault_marshalRegisters {head : List Byte} {count : Half} (hn : count.toNat ≤ 125) :
    NextOrFault (UnwrittenRg s) (marshalRegisters head count s) := by
  unfold marshalRegisters withRg
  split
  · rename_i j hj
    obtain ⟨-, hlt, hnone, -⟩ := Memory.readRange_error hj
    exact ⟨j, rfl, by omega, hnone⟩
  · exact nextOrFault_ok _

/-- The echo is read from PB. -/
theorem nextOrFault_checkEcho (x y : Half) : NextOrFault (UnwrittenPb s) (checkEcho x y s) :=
  nextOrFault_ite (fun _ => nextOrFault_fail _) fun _ => nextOrFault_ite (fun _ => nextOrFault_fail _) fun _ =>
    nextOrFault_withPbRange (by omega) fun _ => nextOrFault_ite (fun _ => nextOrFault_fail _) fun _ => nextOrFault_ok _

/-- FRAME_PARSE reads the frame, of at most 256 bytes, its code byte and its payload. -/
theorem nextOrFault_frameParse (a f : Byte) (cap : Half) : NextOrFault (UnwrittenFb s) (execFrameParse a f cap s) := by
  refine nextOrFault_ite (fun _ => nextOrFault_fail _) fun h256 => nextOrFault_ite (fun _ => nextOrFault_fail _) fun h4 =>
    nextOrFault_withFb (by omega) fun b0 => nextOrFault_ite (fun _ => nextOrFault_fail _) fun _ =>
    nextOrFault_withFbRange (by omega) fun frame => nextOrFault_ite (fun _ => nextOrFault_fail _) fun _ =>
    nextOrFault_withFb (by omega) fun r => nextOrFault_ite (fun _ => ?exception) fun _ =>
    nextOrFault_ite (fun _ => nextOrFault_fail _) fun _ => ?normal
  case exception =>
    exact nextOrFault_ite (fun _ => nextOrFault_fail _) fun _ => nextOrFault_withFb (by omega) fun _ => nextOrFault_ok _
  case normal =>
    exact nextOrFault_ite (fun _ => nextOrFault_fail _) fun _ =>
      nextOrFault_withFbRange (by omega) fun _ => nextOrFault_ok _

/-- SLAVE_PARSE's decode reads the fields of the frame and, for 0x10, the register bytes its count says. -/
theorem nextOrFault_slaveDecode {f : Byte} {cnt : Half} (hcnt : cnt.toNat ≤ 123) :
    NextOrFault (UnwrittenFb s) (slaveDecode f cnt s) :=
  nextOrFault_withFbHalf (by omega) fun _ =>
    nextOrFault_ite (fun _ => nextOrFault_withFbHalf (by omega) fun _ => nextOrFault_ok _) fun _ =>
    nextOrFault_ite (fun _ => nextOrFault_withFbHalf (by omega) fun _ => nextOrFault_ok _) fun _ =>
    nextOrFault_withFb (by omega) fun _ => nextOrFault_withFbRange (by omega) fun _ => nextOrFault_ok _

/-- SLAVE_PARSE's check of the whole frame reads it. -/
theorem nextOrFault_slaveVerify {f : Byte} {cnt : Half} {expect : Nat} (h256 : s.flen.toNat ≤ 256)
    (hcnt : cnt.toNat ≤ 123) : NextOrFault (UnwrittenFb s) (slaveVerify f cnt expect s) :=
  nextOrFault_ite (fun _ => nextOrFault_fail _) fun _ => nextOrFault_withFbRange (by omega) fun _ =>
    nextOrFault_ite (fun _ => nextOrFault_fail _) fun _ => nextOrFault_slaveDecode hcnt

/-- SLAVE_PARSE reads the header, for 0x10 the count, then the frame. -/
theorem nextOrFault_slaveParse (own : Byte) : NextOrFault (UnwrittenFb s) (execSlaveParse own s) :=
  nextOrFault_ite (fun _ => nextOrFault_fail _) fun h256 => nextOrFault_ite (fun _ => nextOrFault_fail _) fun _ =>
    nextOrFault_ite (fun _ => nextOrFault_fail _) fun _ =>
    nextOrFault_withFb (by omega) fun b0 => nextOrFault_ite (fun _ => nextOrFault_fail _) fun _ =>
    nextOrFault_withFb (by omega) fun f => nextOrFault_ite (fun _ => nextOrFault_fail _) fun _ =>
    nextOrFault_ite (fun _ => nextOrFault_slaveVerify (by omega) (by decide)) fun _ =>
    nextOrFault_ite (fun _ => nextOrFault_fail _) fun _ => nextOrFault_withFbHalf (by omega) fun cnt =>
    nextOrFault_ite (fun _ => nextOrFault_fail _) fun _ => nextOrFault_slaveVerify (by omega) (by omega)

/-- The faults each command can have, by the buffer its rule reads (R52). -/
def commandFault (i : Instr) (s : State) : Fault → Prop :=
  match i with
  | .crcBuf _ | .frameParse _ _ _ | .slaveParse _ => UnwrittenFb s
  | .frameBuild _ _ | .unmRdRsp _ | .chkWsRsp _ _ | .chkWmRsp _ _ => UnwrittenPb s
  | .mrsWmReq _ _ | .mrsRdRsp _ => UnwrittenRg s
  | _ => fun _ => False

/-- A count that passes its check is at most the check's bound. -/
theorem toNat_le_of_not_countOutside {max : Nat} {count : Half} (h : ¬ countOutside max count = true) :
    count.toNat ≤ max :=
  (countOutside_eq_false.1 (Bool.eq_false_iff.2 h)).2

/-- Every command answers a next state or one of its faults. -/
theorem exec_nextOrFault {i : Instr} (hc : i.isCommand = true) : NextOrFault (commandFault i s) (exec i s) := by
  cases i with
  | crcReset | crcFeed byte | mrsWs addr value | mrsWmRsp start count => exact nextOrFault_ok _
  | crcBuf n =>
    exact nextOrFault_ite (fun _ => nextOrFault_fail _) fun _ => nextOrFault_withFbRange (by omega) fun _ => nextOrFault_ok _
  | addrCheck addr => exact nextOrFault_ite (fun _ => nextOrFault_ok _) fun _ => nextOrFault_fail _
  | frameBuild addr fc =>
    exact nextOrFault_ite (fun _ => nextOrFault_fail _) fun _ => nextOrFault_ite (fun _ => nextOrFault_fail _) fun _ =>
      nextOrFault_withPbRange (by omega) fun _ => nextOrFault_ok _
  | frameParse addr fc cap => exact nextOrFault_frameParse addr fc cap
  | slaveParse own => exact nextOrFault_slaveParse own
  | reqRemlen fc count =>
    exact nextOrFault_ite (fun _ => nextOrFault_ok _) fun _ => nextOrFault_ite
      (fun _ => nextOrFault_ite (fun _ => nextOrFault_fail _) fun _ => nextOrFault_ok _) fun _ => nextOrFault_fail _
  | mrsRdReq start count => exact nextOrFault_ite (fun _ => nextOrFault_fail _) fun _ => nextOrFault_ok _
  | mrsWmReq start count =>
    exact nextOrFault_ite (fun _ => nextOrFault_fail _) fun hn =>
      nextOrFault_marshalRegisters (Nat.le_trans (toNat_le_of_not_countOutside hn) (by decide))
  | mrsRdRsp count =>
    exact nextOrFault_ite (fun _ => nextOrFault_fail _) fun hn =>
      nextOrFault_marshalRegisters (toNat_le_of_not_countOutside hn)
  | mrsExc code => exact nextOrFault_ite (fun _ => nextOrFault_fail _) fun _ => nextOrFault_ok _
  | unmRdRsp count =>
    exact nextOrFault_ite (fun _ => nextOrFault_fail _) fun hn => nextOrFault_ite (fun _ => nextOrFault_fail _) fun _ =>
      nextOrFault_ite (fun _ => nextOrFault_fail _) fun _ => nextOrFault_withPb (by omega) fun _ =>
      nextOrFault_ite (fun _ => nextOrFault_fail _) fun _ => nextOrFault_ite (fun _ => nextOrFault_fail _) fun _ =>
      nextOrFault_withPbRange (by have := toNat_le_of_not_countOutside hn; omega) fun _ => nextOrFault_ok _
  | chkWsRsp x y | chkWmRsp x y => exact nextOrFault_checkEcho x y
  | _ => cases hc

/-- A command's fault is one of its own. -/
theorem commandFault_of_exec {i : Instr} {r : Fault} (hc : i.isCommand = true) (h : exec i s = .fault r) :
    commandFault i s r := by
  have := exec_nextOrFault (s := s) hc
  rwa [h] at this

/-- No command is refused. -/
theorem exec_command_ne_refused {i : Instr} (hc : i.isCommand = true) (r : Refusal) : exec i s ≠ .refused r := by
  intro h
  have := exec_nextOrFault (s := s) hc
  rwa [h] at this

/-- A fault at FB is a command's that reads FB. -/
theorem commandFault_unwrittenFb {i : Instr} {j : Nat} (h : commandFault i s (.unwrittenFb j)) :
    j < 256 ∧ s.fb.read j = none ∧
      ((∃ n, i = .crcBuf n) ∨ (∃ a f c, i = .frameParse a f c) ∨ ∃ o, i = .slaveParse o) := by
  cases i with
  | crcBuf | frameParse | slaveParse =>
    obtain ⟨k, hk, hlt, hnone⟩ := h
    cases hk
    exact ⟨hlt, hnone, by simp⟩
  | frameBuild | unmRdRsp | chkWsRsp | chkWmRsp | mrsWmReq | mrsRdRsp =>
    obtain ⟨k, hk, -⟩ := h
    cases hk
  | _ => exact h.elim

/-- A fault at PB is a command's that reads PB. -/
theorem commandFault_unwrittenPb {i : Instr} {j : Nat} (h : commandFault i s (.unwrittenPb j)) :
    j < 256 ∧ s.pb.read j = none ∧
      ((∃ a f, i = .frameBuild a f) ∨ (∃ c, i = .unmRdRsp c) ∨ (∃ a v, i = .chkWsRsp a v) ∨
        ∃ a c, i = .chkWmRsp a c) := by
  cases i with
  | frameBuild | unmRdRsp | chkWsRsp | chkWmRsp =>
    obtain ⟨k, hk, hlt, hnone⟩ := h
    cases hk
    exact ⟨hlt, hnone, by simp⟩
  | crcBuf | frameParse | slaveParse | mrsWmReq | mrsRdRsp =>
    obtain ⟨k, hk, -⟩ := h
    cases hk
  | _ => exact h.elim

/-- A fault at RG is a command's that reads RG. -/
theorem commandFault_unwrittenRg {i : Instr} {j : Nat} (h : commandFault i s (.unwrittenRg j)) :
    j < 125 ∧ s.rg.read j = none ∧ ((∃ a c, i = .mrsWmReq a c) ∨ ∃ c, i = .mrsRdRsp c) := by
  cases i with
  | mrsWmReq | mrsRdRsp =>
    obtain ⟨k, hk, hlt, hnone⟩ := h
    cases hk
    exact ⟨hlt, hnone, by simp⟩
  | crcBuf | frameParse | slaveParse | frameBuild | unmRdRsp | chkWsRsp | chkWmRsp =>
    obtain ⟨k, hk, -⟩ := h
    cases hk
  | _ => exact h.elim

/-- Settles O43: a command's fault is one of its own, so it names an element of the buffer that the command reads. -/
theorem faultsNameUnwrittenElements : Obligations.FaultsNameUnwrittenElements :=
  fun _ _ hc => ⟨fun _ h => commandFault_unwrittenFb (commandFault_of_exec hc h),
    fun _ h => commandFault_unwrittenPb (commandFault_of_exec hc h),
    fun _ h => commandFault_unwrittenRg (commandFault_of_exec hc h), exec_command_ne_refused hc⟩

/-- Where everything is written no command has a fault. -/
theorem not_commandFault_of_allWritten (h : s.allWritten) (i : Instr) (r : Fault) : ¬ commandFault i s r := by
  obtain ⟨hfb, hpb, hrg⟩ := h
  have noFb : ¬ UnwrittenFb s r := fun ⟨j, _, hj, hnone⟩ => by simpa [hnone] using hfb j hj
  have noPb : ¬ UnwrittenPb s r := fun ⟨j, _, hj, hnone⟩ => by simpa [hnone] using hpb j hj
  have noRg : ¬ UnwrittenRg s r := fun ⟨j, _, hj, hnone⟩ => by simpa [hnone] using hrg j hj
  unfold commandFault
  split
  exacts [noFb, noFb, noFb, noPb, noPb, noPb, noPb, noRg, noRg, id]

/-- Settles O44: an illegal word completes, and a command answers a next state where it has no fault. -/
theorem everyCommandWordCompletes : Obligations.EveryCommandWordCompletes := by
  intro s w hw
  have hw : (s.setCmd w).allWritten := hw
  unfold hostCommand runCommand
  split
  · exact ⟨_, rfl⟩
  · rename_i i hi
    have hc := decodeCommand_isCommand hi
    cases h : exec i (s.setCmd w) with
    | next t => exact ⟨t, rfl⟩
    | fault r => exact absurd (commandFault_of_exec hc h) (not_commandFault_of_allWritten hw i r)
    | refused r => exact absurd h (exec_command_ne_refused hc r)

end Sys2Proof.Machine
end

section
/-! PROOF. No command reads RCOUNT (R30): with another RCOUNT a command takes the same branches and leaves the same state but for
RCOUNT. -/

namespace Sys2Proof.Machine

variable {s : State} {n : Byte}

/-- An outcome with the RCOUNT of its next state forgotten. -/
def forgetRcount : Result → Result
  | .next t => .next (t.setRcount 0)
  | .fault r => .fault r
  | .refused r => .refused r

theorem forgetRcount_ite {c : Prop} [Decidable c] {a a' b b' : Result} (ha : forgetRcount a' = forgetRcount a)
    (hb : forgetRcount b' = forgetRcount b) :
    forgetRcount (if c then a' else b') = forgetRcount (if c then a else b) := by
  split
  exacts [ha, hb]

theorem forgetRcount_withFb {i : Nat} {k k' : Byte → Result} (hk : ∀ b, forgetRcount (k' b) = forgetRcount (k b)) :
    forgetRcount (withFb (s.setRcount n) i k') = forgetRcount (withFb s i k) := by
  simp only [withFb, State.setRcount_fb]
  split
  exacts [rfl, hk _]

theorem forgetRcount_withPb {i : Nat} {k k' : Byte → Result} (hk : ∀ b, forgetRcount (k' b) = forgetRcount (k b)) :
    forgetRcount (withPb (s.setRcount n) i k') = forgetRcount (withPb s i k) := by
  simp only [withPb, State.setRcount_pb]
  split
  exacts [rfl, hk _]

theorem forgetRcount_withFbRange {i m : Nat} {k k' : List Byte → Result}
    (hk : ∀ bs, forgetRcount (k' bs) = forgetRcount (k bs)) :
    forgetRcount (withFbRange (s.setRcount n) i m k') = forgetRcount (withFbRange s i m k) := by
  simp only [withFbRange, State.setRcount_fb]
  split
  exacts [rfl, hk _]

theorem forgetRcount_withPbRange {i m : Nat} {k k' : List Byte → Result}
    (hk : ∀ bs, forgetRcount (k' bs) = forgetRcount (k bs)) :
    forgetRcount (withPbRange (s.setRcount n) i m k') = forgetRcount (withPbRange s i m k) := by
  simp only [withPbRange, State.setRcount_pb]
  split
  exacts [rfl, hk _]

theorem forgetRcount_withRg {m : Nat} {k k' : List Half → Result}
    (hk : ∀ vs, forgetRcount (k' vs) = forgetRcount (k vs)) :
    forgetRcount (withRg (s.setRcount n) m k') = forgetRcount (withRg s m k) := by
  simp only [withRg, State.setRcount_rg]
  split
  exacts [rfl, hk _]

theorem forgetRcount_withFbHalf {i : Nat} {k k' : Half → Result} (hk : ∀ v, forgetRcount (k' v) = forgetRcount (k v)) :
    forgetRcount (withFbHalf (s.setRcount n) i k') = forgetRcount (withFbHalf s i k) :=
  forgetRcount_withFb fun _ => forgetRcount_withFb fun _ => hk _

/-- FRAME_PARSE without RCOUNT. -/
theorem forgetRcount_frameParse (a f : Byte) (cap : Half) :
    forgetRcount (execFrameParse a f cap (s.setRcount n)) = forgetRcount (execFrameParse a f cap s) :=
  forgetRcount_ite rfl <| forgetRcount_ite rfl <| forgetRcount_withFb fun _ => forgetRcount_ite rfl <|
    forgetRcount_withFbRange fun _ => forgetRcount_ite rfl <| forgetRcount_withFb fun _ =>
    forgetRcount_ite (forgetRcount_ite rfl <| forgetRcount_withFb fun _ => rfl) <|
    forgetRcount_ite rfl <| forgetRcount_ite rfl <| forgetRcount_withFbRange fun _ => rfl

/-- SLAVE_PARSE's check of the whole frame and its decode without RCOUNT. -/
theorem forgetRcount_slaveVerify (f : Byte) (cnt : Half) (expect : Nat) :
    forgetRcount (slaveVerify f cnt expect (s.setRcount n)) = forgetRcount (slaveVerify f cnt expect s) :=
  forgetRcount_ite rfl <| forgetRcount_withFbRange fun _ => forgetRcount_ite rfl <| forgetRcount_withFbHalf fun _ =>
    forgetRcount_ite (forgetRcount_withFbHalf fun _ => rfl) <|
    forgetRcount_ite (forgetRcount_withFbHalf fun _ => rfl) <|
    forgetRcount_withFb fun _ => forgetRcount_withFbRange fun _ => rfl

/-- SLAVE_PARSE without RCOUNT. -/
theorem forgetRcount_slaveParse (own : Byte) :
    forgetRcount (execSlaveParse own (s.setRcount n)) = forgetRcount (execSlaveParse own s) :=
  forgetRcount_ite rfl <| forgetRcount_ite rfl <| forgetRcount_ite rfl <| forgetRcount_withFb fun _ =>
    forgetRcount_ite rfl <| forgetRcount_withFb fun _ => forgetRcount_ite rfl <|
    forgetRcount_ite (forgetRcount_slaveVerify _ _ _) <| forgetRcount_ite rfl <| forgetRcount_withFbHalf fun _ =>
    forgetRcount_ite rfl <| forgetRcount_slaveVerify _ _ _

/-- The comparison with an echo without RCOUNT. -/
theorem forgetRcount_checkEcho (x y : Half) :
    forgetRcount (checkEcho x y (s.setRcount n)) = forgetRcount (checkEcho x y s) :=
  forgetRcount_ite rfl <| forgetRcount_ite rfl <| forgetRcount_withPbRange fun _ => forgetRcount_ite rfl rfl

/-- Every command has the same outcome from both states but for RCOUNT. -/
theorem forgetRcount_exec {i : Instr} (hc : i.isCommand = true) :
    forgetRcount (exec i (s.setRcount n)) = forgetRcount (exec i s) := by
  cases i with
  | crcReset | crcFeed byte | mrsWs addr value | mrsWmRsp start count => rfl
  | crcBuf m => exact forgetRcount_ite rfl <| forgetRcount_withFbRange fun _ => rfl
  | addrCheck addr | mrsExc code => exact forgetRcount_ite rfl rfl
  | mrsRdReq start count => exact forgetRcount_ite rfl rfl
  | frameBuild addr fc => exact forgetRcount_ite rfl <| forgetRcount_ite rfl <| forgetRcount_withPbRange fun _ => rfl
  | frameParse addr fc cap => exact forgetRcount_frameParse addr fc cap
  | slaveParse own => exact forgetRcount_slaveParse own
  | reqRemlen fc count => exact forgetRcount_ite rfl <| forgetRcount_ite (forgetRcount_ite rfl rfl) rfl
  | mrsWmReq start count | mrsRdRsp count => exact forgetRcount_ite rfl <| forgetRcount_withRg fun _ => rfl
  | unmRdRsp count =>
    exact forgetRcount_ite rfl <| forgetRcount_ite rfl <| forgetRcount_ite rfl <| forgetRcount_withPb fun _ =>
      forgetRcount_ite rfl <| forgetRcount_ite rfl <| forgetRcount_withPbRange fun _ => rfl
  | chkWsRsp x y | chkWmRsp x y => exact forgetRcount_checkEcho x y
  | _ => cases hc

/-- An outcome that is a next state but for RCOUNT is a next state. -/
theorem forgetRcount_eq_next {o : Result} {t : State} (h : forgetRcount o = .next t) :
    ∃ u, o = .next u ∧ u.setRcount 0 = t := by
  cases o with
  | next u => exact ⟨u, rfl, Host.Outcome.next.inj h⟩
  | fault r => cases h
  | refused r => cases h

/-- An outcome that is a fault but for RCOUNT is that fault. -/
theorem forgetRcount_eq_fault {o : Result} {r : Fault} (h : forgetRcount o = .fault r) : o = .fault r := by
  cases o with
  | next u => cases h
  | fault r' => exact h
  | refused r' => cases h

/-- Settles O45: the outcomes from both states are the same but for RCOUNT. -/
theorem noCommandReadsRcount : Obligations.NoCommandReadsRcount := by
  intro s i n hc
  have hsame := forgetRcount_exec (s := s) (n := n) hc
  refine ⟨fun t h => ?_, fun r h => ?_⟩
  · rw [h] at hsame
    exact forgetRcount_eq_next hsame
  · rw [h] at hsame
    exact forgetRcount_eq_fault hsame

end Sys2Proof.Machine
end

section
/-! PROOF. The classes of a command's results (R183, R184). -/

namespace Sys2Proof.Machine

variable {s t : State} {i : Instr}

/-- A failure leaves its own status. -/
theorem status_of_fail {st : Status} (h : fail st s = .next t) : t.status = st.code := by
  rw [fail_eq_next.1 h]
  rfl

/-- Why SLAVE_PARSE leaves InvalidAddress or InvalidParameter (R132): FLEN past FB, an invalid own address, another address, a
count above 123; any other result leaves another status. -/
theorem execSlaveParse_reasons {own : Byte} (h : execSlaveParse own s = .next t) :
    (256 < s.flen.toNat ∧ t.status = 2) ∨ (validAddr own = false ∧ t.status = 1) ∨
    (validAddr own = true ∧ (∃ b, s.fb.read 0 = some b ∧ b ≠ own) ∧ t.status = 1) ∨
    (s.flen.toNat ≤ 256 ∧ (∃ h l, s.fb.read 4 = some h ∧ s.fb.read 5 = some l ∧ 123 < (be16 h l).toNat) ∧ t.status = 2) ∨
    (t.status ≠ 1 ∧ t.status ≠ 2) := by
  have hverify {f : Byte} {cnt : Half} {expect : Nat} (h : slaveVerify f cnt expect s = .next t) :
      t.status ≠ 1 ∧ t.status ≠ 2 := by
    obtain (rfl | rfl) | ⟨-, hdecode⟩ := slaveVerify_cases h
    · exact ⟨by simp, by simp⟩
    · exact ⟨by simp, by simp⟩
    · obtain ⟨ah, al, vh, vl, -, -, -, -, -, rfl⟩ | ⟨ah, al, vh, vl, -, -, -, -, -, rfl⟩ |
        ⟨ah, al, bc, data, -, -, -, -, -, -, -, rfl⟩ := slaveDecode_cases hdecode <;> exact ⟨by simp, by simp⟩
  unfold execSlaveParse at h
  split at h
  · exact .inl ⟨‹_›, status_of_fail h⟩
  split at h
  · exact .inr (.inl ⟨‹_›, status_of_fail h⟩)
  rename_i h256 hown
  split at h
  · exact .inr (.inr (.inr (.inr (by rw [status_of_fail h]; decide))))
  obtain ⟨b0, hb0, h⟩ := withFb_eq_next.1 h
  split at h
  · exact .inr (.inr (.inl ⟨by simpa using hown, ⟨b0, hb0, ‹_›⟩, status_of_fail h⟩))
  obtain ⟨f, -, h⟩ := withFb_eq_next.1 h
  split at h
  · exact .inr (.inr (.inr (.inr (by rw [status_of_fail h]; decide))))
  unfold slaveLength at h
  split at h
  · exact .inr (.inr (.inr (.inr (hverify h))))
  split at h
  · exact .inr (.inr (.inr (.inr (by rw [status_of_fail h]; decide))))
  obtain ⟨hb, lb, hhb, hlb, h⟩ := withFbHalf_eq_next.1 h
  split at h
  · exact .inr (.inr (.inr (.inl ⟨by omega, ⟨hb, lb, hhb, hlb, ‹_›⟩, status_of_fail h⟩)))
  · exact .inr (.inr (.inr (.inr (hverify h))))

/-- SLAVE_PARSE's InvalidAddress comes from an invalid own address or from another address in the frame. -/
theorem slaveParse_invalidAddress {own : Byte} (h : execSlaveParse own s = .next t) (ht : t.status = 1) :
    validAddr own = false ∨ validAddr own = true ∧ ∃ b, s.fb.read 0 = some b ∧ b ≠ own := by
  obtain ⟨-, h2⟩ | ⟨hown, -⟩ | ⟨hown, hb, -⟩ | ⟨-, -, h2⟩ | ⟨h1, -⟩ := execSlaveParse_reasons h
  · exact absurd (ht.symm.trans h2) (by decide)
  · exact .inl hown
  · exact .inr ⟨hown, hb⟩
  · exact absurd (ht.symm.trans h2) (by decide)
  · exact absurd ht h1

/-- SLAVE_PARSE's InvalidParameter comes from FLEN or from the count. -/
theorem slaveParse_invalidParameter {own : Byte} (h : execSlaveParse own s = .next t) (ht : t.status = 2) :
    256 < s.flen.toNat ∨
      s.flen.toNat ≤ 256 ∧ ∃ h l, s.fb.read 4 = some h ∧ s.fb.read 5 = some l ∧ 123 < (be16 h l).toNat := by
  obtain ⟨hgt, -⟩ | ⟨-, h1⟩ | ⟨-, -, h1⟩ | ⟨hle, hcnt, -⟩ | ⟨-, h2⟩ := execSlaveParse_reasons h
  · exact .inl hgt
  · exact absurd (ht.symm.trans h1) (by decide)
  · exact absurd (ht.symm.trans h1) (by decide)
  · exact .inr ⟨hle, hcnt⟩
  · exact absurd ht h2

/-- The class of SLAVE_PARSE's InvalidAddress goes by its own address (R183). -/
theorem errorClass_slaveParse_invalidAddress (own : Byte) (s : State) (kind : BitVec 1) :
    errorClass (.slaveParse own) s .invalidAddress kind =
      if validAddr own then some .addressMismatch else some .parameterError := rfl

/-- The class of SLAVE_PARSE's InvalidParameter goes by FLEN (R183). -/
theorem errorClass_slaveParse_invalidParameter (own : Byte) (s : State) (kind : BitVec 1) :
    errorClass (.slaveParse own) s .invalidParameter kind =
      if s.flen.toNat > 256 then some .parameterError else some .protocolError := rfl

/-- Settles O46: each of the two statuses that have two classes comes from one of two reasons, which its class tells apart. -/
theorem slaveParseFailuresAreClassified : Obligations.SlaveParseFailuresAreClassified := by
  refine ⟨fun st => decide_eq_true_iff, fun s t own kind h => ⟨fun _ => rfl, fun h1 => ?_, fun h2 => ?_, fun _ => rfl,
    fun _ => rfl, fun _ => rfl⟩⟩
  · rw [errorClass_slaveParse_invalidAddress, ← validAddr_eq_false, ← and_assoc, ← validAddr_eq_true]
    obtain hown | ⟨hown, hb⟩ := slaveParse_invalidAddress h h1
    · simp [hown]
    · simp [hown, hb]
  · rw [errorClass_slaveParse_invalidParameter]
    obtain hgt | ⟨hle, hb, lb, hhb, hlb, hcnt⟩ := slaveParse_invalidParameter h h2
    · simp [hgt]
    · simp [Nat.not_lt.2 hle, hle, hhb, hlb, hcnt]

/-- InvalidAddress of another command than SLAVE_PARSE is ADDR_CHECK's or FRAME_BUILD's (R181). -/
theorem invalidAddress_command (hc : i.isCommand = true) (hs : ∀ own, i ≠ .slaveParse own) (h : exec i s = .next t)
    (ht : t.status = 1) : (∃ a, i = .addrCheck a) ∨ ∃ a f, i = .frameBuild a f := by
  have hrow := commandsLeaveOnlyTheirStatuses s t i hc h
  cases i with
  | addrCheck a => exact .inl ⟨a, rfl⟩
  | frameBuild a f => exact .inr ⟨a, f, rfl⟩
  | slaveParse own => exact absurd rfl (hs own)
  | wireReq03 | wireRsp03 | wireReq06 | wireRsp06 | wireReq10 | wireRsp10 | wireExc => cases hc
  | _ =>
    simp only [ht] at hrow
    exact absurd hrow (by decide)

/-- REQ_REMLEN's InvalidParameter is its count above 123 (R140). -/
theorem reqRemlen_invalidParameter {f : Byte} {c : Half} (h : execReqRemlen f c s = .next t) (ht : t.status = 2) :
    123 < c.toNat := by
  obtain (⟨-, hgt, -⟩ | ⟨-, rfl⟩) | ⟨-, rfl⟩ | ⟨-, -, rfl⟩ := execReqRemlen_cases h
  · exact hgt
  all_goals exact absurd ht (by simp)

/-- The class of OK: an exception response parsed, or none (R183). -/
theorem errorClass_ok (i : Instr) (s : State) (kind : BitVec 1) :
    (errorClass i s .ok kind = some .deviceException ∧ (∃ a f c, i = .frameParse a f c) ∧ kind = 1) ∨
    (errorClass i s .ok kind = none ∧ ¬ ((∃ a f c, i = .frameParse a f c) ∧ kind = 1)) := by
  cases i with
  | frameParse a f c =>
    by_cases hk : kind = 1
    · exact .inl ⟨if_pos hk, ⟨a, f, c, rfl⟩, hk⟩
    · exact .inr ⟨if_neg hk, fun h => hk h.2⟩
  | _ => exact .inr ⟨rfl, by simp⟩

/-- Settles O59: the statuses with one class for every command by their row, InvalidAddress and InvalidParameter by the commands
that leave them. -/
theorem resultsHaveTheirErrorClass : Obligations.ResultsHaveTheirErrorClass := by
  intro s t i st hc hs h ht
  cases st with
  | ok =>
    obtain ⟨hclass, hp⟩ | ⟨hclass, hp⟩ := errorClass_ok i s t.rspKind <;> rw [hclass]
    · simp [hp]
    · simpa using hp
  | invalidAddress =>
    obtain ⟨a, rfl⟩ | ⟨a, f, rfl⟩ := invalidAddress_command hc hs h ht <;> simp [errorClass]
  | invalidParameter =>
    cases i with
    | reqRemlen f c =>
      have hgt := reqRemlen_invalidParameter h ht
      simp [errorClass, hgt]
    | slaveParse own => exact absurd rfl (hs own)
    | _ => simp [errorClass]
  | invalidResponse | checksumError | invalidFunctionCode | illegalCommand => simp [errorClass]

end Sys2Proof.Machine
end

section
/-! PROOF. The host's side (R54, R62, R90 to R92, R201): what a wire frame, a load, an access and a line of the program do. -/

namespace Sys2Proof.Machine

variable {s t : State}

/-- A frame that fits FB is loaded: its bytes from FB[0], FLEN its length, and nothing else (R25, R90). -/
theorem loadFrame_leaves {bytes : List Byte} (h : bytes.length ≤ 256) :
    ∃ t : State, loadFrame bytes s = .next t ∧ Stored s.fb bytes t.fb ∧
      t = { s with fb := t.fb, flen := BitVec.ofNat 16 bytes.length } :=
  ⟨s.putFrame bytes, loadFrame_of_length h, stored_writeRange s.fb bytes, rfl⟩

/-- A frame past the end of FB is refused. -/
theorem loadFrame_of_gt {bytes : List Byte} (h : 256 < bytes.length) :
    loadFrame bytes s = .refused (.pastBufferEnd 256) :=
  if_pos h

/-- A payload that fits PB is loaded: its bytes from PB[0], PLEN its length, and nothing else (R90). -/
theorem loadPayload_leaves {bytes : List Byte} (h : bytes.length ≤ 256) :
    ∃ t : State, loadPayload bytes s = .next t ∧ Stored s.pb bytes t.pb ∧
      t = { s with pb := t.pb, plen := BitVec.ofNat 16 bytes.length } :=
  ⟨s.putPayload bytes, if_neg (Nat.not_lt.2 h), stored_writeRange s.pb bytes, rfl⟩

/-- A payload past the end of PB is refused. -/
theorem loadPayload_of_gt {bytes : List Byte} (h : 256 < bytes.length) :
    loadPayload bytes s = .refused (.pastBufferEnd 256) :=
  if_pos h

/-- Registers that fit RG are loaded: from RG[0], RCOUNT their number, and nothing else (R90). -/
theorem loadRegisters_leaves {values : List Half} (h : values.length ≤ 125) :
    ∃ t : State, loadRegisters values s = .next t ∧ Stored s.rg values t.rg ∧
      t = { s with rg := t.rg, rcount := BitVec.ofNat 8 values.length } :=
  ⟨s.putRegisters values, if_neg (Nat.not_lt.2 h), stored_writeRange s.rg values, rfl⟩

/-- Registers past the end of RG are refused. -/
theorem loadRegisters_of_gt {values : List Half} (h : 125 < values.length) :
    loadRegisters values s = .refused (.pastBufferEnd 125) :=
  if_pos h

/-- An instruction encoded by a frame is a wire form, and executing it loads the frame (R78 to R84). -/
theorem exec_of_encode_frame {i : Instr} {d : Direction} {bytes : List Byte} (h : encode i = .frame d bytes) :
    exec i s = loadFrame bytes s := by
  cases i with
  | wireReq03 | wireRsp03 | wireReq06 | wireRsp06 | wireReq10 | wireRsp10 | wireExc => cases h; rfl
  | _ => cases h

/-- The frame of a well-formed wire form fits FB (R79, R82). -/
theorem length_of_encode_frame {i : Instr} {d : Direction} {bytes : List Byte} (hwf : i.wf = true)
    (h : encode i = .frame d bytes) : bytes.length ≤ 256 := by
  cases i with
  | wireRsp03 addr regs chk =>
    cases h
    have hl : regs.length ≤ 125 := of_decide_eq_true hwf
    rw [frameOf_length, readResponsePayload_length]
    omega
  | wireReq10 addr start regs chk =>
    cases h
    have hl : regs.length ≤ 123 := of_decide_eq_true hwf
    rw [frameOf_length, writeRequestPayload_length]
    omega
  | wireReq03 | wireReq06 | wireRsp06 | wireRsp10 | wireExc => cases h; simp
  | _ => cases h

/-- Settles O31: executing a wire form is loading its frame, which fits FB. -/
theorem wireFramesArriveInTheFrameBuffer : Obligations.WireFramesArriveInTheFrameBuffer := by
  intro s i d bytes hwf h
  rw [exec_of_encode_frame h]
  exact loadFrame_leaves (length_of_encode_frame hwf h)

/-- A host read of FB: its byte, or a draw (R54). -/
theorem hostAccess_read_fb (s : State) (i : Fin 256) : hostAccess (.read (0x000 + i.val) .w8) s =
    .next (s.setReply [.b8 (readByteOrDraw s.fb i.val s.draws)] (s.draws + drawsOf s.fb i.val)) := by
  rw [Nat.zero_add]
  exact hostAccess_read_loc (.fb i)

/-- A host read of PB: its byte, or a draw (R54). -/
theorem hostAccess_read_pb (s : State) (i : Fin 256) : hostAccess (.read (0x100 + i.val) .w8) s =
    .next (s.setReply [.b8 (readByteOrDraw s.pb i.val s.draws)] (s.draws + drawsOf s.pb i.val)) :=
  hostAccess_read_loc (.pb i)

/-- A host read of RG: its register, or a draw (R54). -/
theorem hostAccess_read_rg (s : State) (i : Fin 125) : hostAccess (.read (0x200 + 2 * i.val) .w16) s =
    .next (s.setReply [.b16 (readHalfOrDraw s.rg i.val s.draws)] (s.draws + drawsOf s.rg i.val)) :=
  hostAccess_read_loc (.rg i)

/-! A written element is read as it is and an unwritten one as a draw. -/

theorem readByteOrDraw_of_read {m : Memory Byte} {i d : Nat} {v : Byte} (h : m.read i = some v) :
    readByteOrDraw m i d = v := by
  rw [readByteOrDraw, h, Option.getD_some]

theorem readByteOrDraw_of_unwritten {m : Memory Byte} {i d : Nat} (h : m.read i = none) :
    readByteOrDraw m i d = Config.drawByte d := by
  rw [readByteOrDraw, h, Option.getD_none]

theorem readHalfOrDraw_of_read {m : Memory Half} {i d : Nat} {v : Half} (h : m.read i = some v) :
    readHalfOrDraw m i d = v := by
  rw [readHalfOrDraw, h, Option.getD_some]

theorem readHalfOrDraw_of_unwritten {m : Memory Half} {i d : Nat} (h : m.read i = none) :
    readHalfOrDraw m i d = Config.drawHalf d := by
  rw [readHalfOrDraw, h, Option.getD_none]

theorem drawsOf_of_read {α : Type} {m : Memory α} {i : Nat} {v : α} (h : m.read i = some v) : drawsOf m i = 0 := by
  rw [drawsOf, h]
  rfl

theorem drawsOf_of_unwritten {α : Type} {m : Memory α} {i : Nat} (h : m.read i = none) : drawsOf m i = 1 := by
  rw [drawsOf, h]
  rfl

/-- Settles O47: the elements of the buffers by what a written and an unwritten one read as, the registers by the map. -/
theorem hostReadsReturnTheirLocation : Obligations.HostReadsReturnTheirLocation := by
  intro s
  refine ⟨fun i v h => ?_, fun i v h => ?_, fun i v h => ?_, fun i h => ?_, fun i h => ?_, fun i h => ?_,
    fun i => hostAccess_read_loc (.t i), hostAccess_read_loc .cmd, hostAccess_read_loc .status, hostAccess_read_loc .acc,
    hostAccess_read_loc .flen, hostAccess_read_loc .plen, hostAccess_read_loc .rcount, hostAccess_read_loc .rspKind,
    hostAccess_read_loc .excCode, hostAccess_read_loc .dFc, hostAccess_read_loc .dAddr, hostAccess_read_loc .dCount,
    hostAccess_read_loc .dValue, hostAccess_read_loc .dBc, hostAccess_read_loc .dLen⟩
  · rw [hostAccess_read_fb, readByteOrDraw_of_read h, drawsOf_of_read h]; rfl
  · rw [hostAccess_read_pb, readByteOrDraw_of_read h, drawsOf_of_read h]; rfl
  · rw [hostAccess_read_rg, readHalfOrDraw_of_read h, drawsOf_of_read h]; rfl
  · rw [hostAccess_read_fb, readByteOrDraw_of_unwritten h, drawsOf_of_unwritten h]; rfl
  · rw [hostAccess_read_pb, readByteOrDraw_of_unwritten h, drawsOf_of_unwritten h]; rfl
  · rw [hostAccess_read_rg, readHalfOrDraw_of_unwritten h, drawsOf_of_unwritten h]; rfl

/-- One element written: it reads as the value and is marked, every other element as before (R53). -/
theorem write_sets_only {α : Type} (m : Memory α) (i : Nat) (v : α) :
    (m.write i v).read i = some v ∧ ((m.write i v).read i).isSome = true ∧ ∀ k, k ≠ i → (m.write i v).read k = m.read k :=
  ⟨Memory.read_write_same m i v, by rw [Memory.read_write_same]; rfl, fun _ hk => Memory.read_write_other m v hk.symm⟩

/-- Settles O48: each write is its location's, by the map read backwards. -/
theorem hostWritesSetOnlyTheirLocation : Obligations.HostWritesSetOnlyTheirLocation := by
  refine fun s => ⟨fun i v => ?_, fun i v => ?_, fun i v => ?_, fun v => hostAccess_write_loc (l := .flen) rfl rfl,
    fun v => hostAccess_write_loc (l := .plen) rfl rfl, fun v => hostAccess_write_loc (l := .rcount) rfl rfl,
    fun w => hostAccess_write_cmd w s⟩
  · obtain ⟨hval, hmark, hother⟩ := write_sets_only s.fb i.val v
    refine ⟨s.setFb (s.fb.write i.val v), ?_, hval, hmark, hother, rfl⟩
    rw [Nat.zero_add]
    exact hostAccess_write_loc (l := .fb i) (d := .b8 v) rfl rfl
  · obtain ⟨hval, hmark, hother⟩ := write_sets_only s.pb i.val v
    exact ⟨s.setPb (s.pb.write i.val v), hostAccess_write_loc (l := .pb i) (d := .b8 v) rfl rfl, hval, hmark, hother, rfl⟩
  · obtain ⟨hval, hmark, hother⟩ := write_sets_only s.rg i.val v
    exact ⟨s.setRg (s.rg.write i.val v), hostAccess_write_loc (l := .rg i) (d := .b16 v) rfl rfl, hval, hmark, hother, rfl⟩

/-- What a read returns does not depend on the reply and the draws recorded. -/
theorem readLoc_setReply (l : Loc) (d : Nat) (s : State) (r : List HostData) (d' : Nat) :
    readLoc l d (s.setReply r d') = readLoc l d s := by
  cases l <;> rfl

/-- Settles O51: a read that makes no draw leaves the block and the count of draws, on which alone the next one depends. -/
theorem hostReadsHaveNoSideEffect : Obligations.HostReadsHaveNoSideEffect := by
  intro s t off w h
  obtain ⟨l, hl, rfl, rfl⟩ := hostAccess_read_cases h
  obtain rfl := offset_of_locAt hl
  refine ⟨rfl, fun hd => ?_⟩
  rw [hostAccess_read_loc]
  simp only [hostRead, State.setReply_draws, readLoc_setReply] at hd ⊢
  rw [hd, hd]
  rfl

/-- READ FB[0..FLEN) of a frame that fits FB: as many values as bytes, each its byte or the draw numbered by the draws before it,
one draw for each unwritten byte (R90, R54). -/
theorem hostReadFrame_leaves (h : s.flen.toNat ≤ 256) :
    ∃ t : State, hostReadFrame s = .next t ∧ t.reply.length = s.flen.toNat ∧
      (∀ k v, k < s.flen.toNat → s.fb.read k = some v → t.reply[k]? = some (.b8 v)) ∧
      (∀ k, k < s.flen.toNat → s.fb.read k = none → t.reply[k]? = some (.b8 (Config.drawByte
        (s.draws + ((List.range k).filter fun j => (s.fb.read j).isNone).length)))) ∧
      t = { s with
        reply := t.reply,
        draws := s.draws + ((List.range s.flen.toNat).filter fun j => (s.fb.read j).isNone).length } := by
  obtain ⟨hlen, hdraws, hval⟩ := readFbRun_spec s s.flen.toNat 0 s.draws
  simp only [Nat.zero_add] at hval
  refine ⟨_, if_neg (Nat.not_lt.2 h), hlen, fun k v hk hv => ?_, fun k hk hu => ?_, ?_⟩
  · exact (hval k hk).trans (by rw [readByteOrDraw_of_read hv])
  · exact (hval k hk).trans (by rw [readByteOrDraw_of_unwritten hu, List.range_eq_range'])
  · rw [hdraws, List.range_eq_range']
    rfl

/-- Settles O52: each line's step is its run, and the run is the load, the access or the read of the line. -/
theorem pseudoOperationsExpand : Obligations.PseudoOperationsExpand := by
  refine fun s => ⟨fun bytes hl h => ?_, fun bytes hl h => ?_, fun values hl h => ?_, fun n h => step_of_line h,
    fun n h => step_of_line h, fun i b h => ?_, fun l h => ?_, fun a h => step_of_line h, fun hl h => ?_, fun hl h => ?_,
    fun bytes hl h => ?_, fun values hl h => ?_⟩
  · rw [step_of_line h]
    exact loadFrame_leaves (s := s.setPc (s.pc + 1)) hl
  · rw [step_of_line h]
    exact loadPayload_leaves (s := s.setPc (s.pc + 1)) hl
  · rw [step_of_line h]
    exact loadRegisters_leaves (s := s.setPc (s.pc + 1)) hl
  · obtain ⟨hval, -, hother⟩ := write_sets_only s.fb i.val b
    exact ⟨_, step_of_line h, hval, hother, rfl⟩
  · rw [step_of_line h, hostAccess_read_loc]
    rfl
  · rw [step_of_line h]
    exact hostReadFrame_leaves (s := s.setPc (s.pc + 1)) hl
  · rw [step_of_line h]
    exact if_pos hl
  · obtain h | h := h <;> rw [step_of_line h]
    exacts [loadFrame_of_gt hl, loadPayload_of_gt hl]
  · rw [step_of_line h]
    exact loadRegisters_of_gt hl

/-- A write of CMD keeps the host's program and its index. -/
theorem hostCommand_keeps_program {w : Word} (h : hostCommand w s = .next t) : t.pc = s.pc ∧ t.program = s.program := by
  have hkeep := runCommand_keeps_cmd_and_host h
  exact ⟨(congrArg State.pc hkeep).trans rfl, (congrArg State.program hkeep).trans rfl⟩

/-- An access of the bus keeps the host's program and its index. -/
theorem hostAccess_keeps_program {a : HostAccess} (h : hostAccess a s = .next t) : t.pc = s.pc ∧ t.program = s.program := by
  cases a with
  | read offset width =>
    obtain ⟨l, -, -, rfl⟩ := hostAccess_read_cases h
    exact ⟨rfl, rfl⟩
  | write offset data =>
    obtain ⟨l, -, -, -, hw⟩ := hostAccess_write_cases h
    obtain ⟨i, v, -, -, rfl⟩ | ⟨i, v, -, -, rfl⟩ | ⟨i, v, -, -, rfl⟩ | ⟨v, -, -, rfl⟩ | ⟨v, -, -, rfl⟩ | ⟨v, -, -, rfl⟩ |
      ⟨w, -, -, hcmd⟩ := writeLoc_cases hw
    exacts [⟨rfl, rfl⟩, ⟨rfl, rfl⟩, ⟨rfl, rfl⟩, ⟨rfl, rfl⟩, ⟨rfl, rfl⟩, ⟨rfl, rfl⟩, hostCommand_keeps_program hcmd]

/-- An arriving frame keeps the host's program and its index. -/
theorem hostReceive_keeps_program {d : Direction} {bytes : List Byte} (h : hostReceive d bytes s = .next t) :
    t.pc = s.pc ∧ t.program = s.program := by
  obtain ⟨i, -, hexec⟩ | ⟨e, -, -, rfl⟩ := hostReceive_cases h
  · have hkeep := exec_keeps_cmd_and_host hexec
    exact ⟨(congrArg State.pc hkeep).trans rfl, (congrArg State.program hkeep).trans rfl⟩
  · exact ⟨rfl, rfl⟩

/-- A line that is no branch and not STOP moves the index one on and keeps the program. -/
theorem runLine_moves_on {l : HostLine} (hb : ∀ x v k, l ≠ .brEq x v k) (hst : ∀ st k, l ≠ .brStatus st k)
    (hstop : l ≠ .stop) (h : runLine l s = .next t) : t.pc = s.pc + 1 ∧ t.program = s.program := by
  cases l with
  | command w => exact hostCommand_keeps_program h
  | loadFb bytes => obtain ⟨-, rfl⟩ := loadFrame_cases h; exact ⟨rfl, rfl⟩
  | loadPb bytes => obtain ⟨-, rfl⟩ := loadPayload_cases h; exact ⟨rfl, rfl⟩
  | loadRg values => obtain ⟨-, rfl⟩ := loadRegisters_cases h; exact ⟨rfl, rfl⟩
  | setFlen | setPlen | pokeFb | read | platformReset => cases h; exact ⟨rfl, rfl⟩
  | readFrame => obtain ⟨-, rfl⟩ := hostReadFrame_cases h; exact ⟨rfl, rfl⟩
  | brEq x v k => exact absurd rfl (hb x v k)
  | brStatus st k => exact absurd rfl (hst st k)
  | stop => exact absurd rfl hstop
  | access a => exact hostAccess_keeps_program h
  | receive d bytes => exact hostReceive_keeps_program h

/-- Settles O53: a branch is its read and the index it sets, STOP waits, every other line moves on. -/
theorem programLinesMoveTheIndex : Obligations.ProgramLinesMoveTheIndex := by
  refine ⟨fun s h => step_of_end h, fun s l hl => ⟨?_, ?_, ?_, fun hb hst hstop t h => ?_⟩⟩
  · rintro rfl
    exact step_of_line hl
  · rintro x v k rfl
    exact ⟨branchEq x v k s, step_of_line hl, rfl, rfl⟩
  · rintro st k rfl
    refine ⟨branchEq .status st.code.toNat k s, step_of_line hl, ?_, rfl⟩
    simp only [← BitVec.toNat_inj]
    rfl
  · exact runLine_moves_on hb hst hstop (by rwa [step_of_line hl] at h)

/-- Settles O2: a platform reset is a line of its own, whose block is the reset state's. -/
theorem platformResetResetsTheBlock : Obligations.PlatformResetResetsTheBlock := fun _ h => step_of_line h

/-- A word that decodes to nothing fails IllegalCommand (R70). -/
theorem runCommand_of_error {w : Word} {e : DecodeError} (h : decodeCommand w = .error e) :
    runCommand w s = .next { s with status := 6 } := by
  rw [runCommand, h]
  rfl

/-- A frame of a wire form has that form's meaning (R25). -/
theorem hostReceive_of_ok {d : Direction} {bytes : List Byte} {i : Instr} (h : decodeWire d bytes = .ok i) :
    hostReceive d bytes s = exec i s := by
  rw [hostReceive, h]

/-- Any other bytes are loaded as they are (R25). -/
theorem hostReceive_of_error {d : Direction} {bytes : List Byte} {e : DecodeError} (h : decodeWire d bytes = .error e) :
    hostReceive d bytes s = loadFrame bytes s := by
  rw [hostReceive, h]

/-- A decoder's answer that gives an instruction. -/
theorem eq_ok_of_toOption {ε α : Type} {e : Except ε α} {a : α} (h : e.toOption = some a) : e = .ok a := by
  cases e with
  | error => cases h
  | ok b => exact congrArg Except.ok (Option.some.inj h)

/-- Settles O54: the step is the run of the line, and the line's word or frame runs what it decodes to. -/
theorem stepRunsTheDecodedInstruction : Obligations.StepRunsTheDecodedInstruction := by
  refine fun s => ⟨fun w i h hdec => ?_, fun w e h hdec => ?_, fun d bytes i h hdec => ?_, fun d bytes e h hdec => ?_,
    fun nbits w i hn hdec => ?_, fun nbits w i hn hdec => ?_⟩
  · exact (step_of_line h).trans (runCommand_of_ok hdec)
  · exact (step_of_line h).trans (runCommand_of_error hdec)
  · exact (step_of_line h).trans (hostReceive_of_ok hdec)
  · have hstep := (step_of_line h).trans (hostReceive_of_error (s := s.setPc (s.pc + 1)) hdec)
    rw [hstep]
    exact ⟨loadFrame_leaves (s := s.setPc (s.pc + 1)), loadFrame_of_gt⟩
  · rw [decodeTableWord, if_neg (Nat.not_le.2 hn)] at hdec
    rw [step_withFetchWord, tableLine, if_neg (Nat.not_le.2 hn)]
    exact runCommand_of_ok (eq_ok_of_toOption hdec)
  · rw [decodeTableWord, if_pos hn] at hdec
    rw [step_withFetchWord, tableLine, if_pos hn]
    exact hostReceive_of_ok (eq_ok_of_toOption hdec)

end Sys2Proof.Machine
end

section
/-! PROOF. The assembler (R89): the row of a mnemonic, the operands that fit it, and the word it gives. -/

namespace Sys2Proof.Machine

variable {r : CommandRow} {m : Mnemonic} {args : List (OperandName × Nat)}

/-- Every mnemonic has a row of R73's table, its own. -/
theorem rowOf_eq_some (m : Mnemonic) : ∃ r ∈ commandTable, r.mnemonic = m ∧ rowOf m = some r := by
  have hsome : (rowOf m).isSome = true := by cases m <;> rfl
  obtain ⟨r, hr⟩ := Option.isSome_iff_exists.1 hsome
  exact ⟨r, List.mem_of_find?_eq_some hr, by simpa using List.find?_some hr, hr⟩

/-- The assembler's word for a row, whose operands all fit. -/
def rowWord (r : CommandRow) (args : List (OperandName × Nat)) : Word :=
  packWord r.opc (BitVec.ofNat 8 (operandValue r.a args)) (BitVec.ofNat 8 (operandValue r.b args))
    (BitVec.ofNat 16 (operandValue r.c args)) (BitVec.ofNat 16 (operandValue r.d args))

/-- The assembler gives the row's word exactly where every operand fits. -/
theorem assemble_eq (hrow : rowOf m = some r) :
    assemble m args = if args.all (argFits r) then some (rowWord r args) else none := by
  rw [assemble, hrow]
  rfl

/-- An operand fits by being one of the row's and fitting its field. -/
theorem argFits_iff {x : OperandName} {v : Nat} :
    argFits r (x, v) = true ↔
      (v < 256 ∧ (r.a = some x ∨ r.b = some x)) ∨ (v < 65536 ∧ (r.c = some x ∨ r.d = some x)) := by
  simp only [argFits, Bool.or_eq_true, Bool.and_eq_true, decide_eq_true_eq, eq_comm (a := some x)]
  tauto

/-- No row has the name of an operand of A or B in C or D as well. -/
theorem byte_operands_not_half (hr : r ∈ commandTable) :
    (r.a ≠ none → r.c ≠ r.a ∧ r.d ≠ r.a) ∧ (r.b ≠ none → r.c ≠ r.b ∧ r.d ≠ r.b) := by
  revert r
  decide

/-- A field's value fits the field, where every operand fits its own. -/
theorem operandValue_lt {name : Option OperandName} {bound : Nat} (hpos : 0 < bound)
    (h : ∀ x v, name = some x → (x, v) ∈ args → v < bound) : operandValue name args < bound := by
  cases name with
  | none => exact hpos
  | some x =>
    cases hf : args.find? fun p => decide (p.1 = x) with
    | none => simpa [operandValue, hf] using hpos
    | some p =>
      obtain ⟨y, v⟩ := p
      obtain rfl : y = x := by simpa using List.find?_some hf
      simpa [operandValue, hf] using h y v rfl (List.mem_of_find?_eq_some hf)

/-- The value of A or B is a byte. -/
theorem operandValue_byte {name : Option OperandName} (hall : ∀ x v, (x, v) ∈ args → argFits r (x, v) = true)
    (hname : name ≠ none → r.c ≠ name ∧ r.d ≠ name) : operandValue name args < 256 := by
  refine operandValue_lt (by decide) ?_
  rintro x v rfl hmem
  obtain ⟨hc, hd⟩ := hname (by simp)
  obtain ⟨hv, -⟩ | ⟨-, h | h⟩ := argFits_iff.1 (hall x v hmem)
  exacts [hv, absurd h hc, absurd h hd]

/-- The value of C or D is a 16-bit value. -/
theorem operandValue_half (name : Option OperandName) (hall : ∀ x v, (x, v) ∈ args → argFits r (x, v) = true) :
    operandValue name args < 65536 := by
  refine operandValue_lt (by decide) fun x v _ hmem => ?_
  obtain ⟨hv, -⟩ | ⟨hv, -⟩ := argFits_iff.1 (hall x v hmem) <;> omega

/-- The row's word is legal by the row: a field without an operand is 0. -/
theorem legalBy_rowWord (r : CommandRow) (args : List (OperandName × Nat)) : LegalBy r (rowWord r args) := by
  refine ⟨by simp [rowWord], by simp [rowWord], fun h => ?_, fun h => ?_, fun h => ?_, fun h => ?_⟩ <;>
    simp [rowWord, h, operandValue]

/-- The fields of the row's word are the operands' values. -/
theorem rowWord_fields (hr : r ∈ commandTable) (hall : ∀ x v, (x, v) ∈ args → argFits r (x, v) = true) :
    (aField (rowWord r args)).toNat = operandValue r.a args ∧ (bField (rowWord r args)).toNat = operandValue r.b args ∧
    (cField (rowWord r args)).toNat = operandValue r.c args ∧ (dField (rowWord r args)).toNat = operandValue r.d args := by
  obtain ⟨ha, hb⟩ := byte_operands_not_half hr
  simp only [rowWord, aField_packWord, bField_packWord, cField_packWord, dField_packWord, BitVec.toNat_ofNat]
  exact ⟨Nat.mod_eq_of_lt (operandValue_byte hall ha), Nat.mod_eq_of_lt (operandValue_byte hall hb),
    Nat.mod_eq_of_lt (operandValue_half r.c hall), Nat.mod_eq_of_lt (operandValue_half r.d hall)⟩

/-- Every operand named fits the row. -/
theorem all_argFits_iff : args.all (argFits r) = true ↔ ∀ x v, (x, v) ∈ args → argFits r (x, v) = true := by
  rw [List.all_eq_true]
  exact ⟨fun h x v hmem => h (x, v) hmem, fun h p hp => h p.1 p.2 hp⟩

/-- Settles O38: the assembler gives the row's word exactly where every operand fits; its fields are the operands and it is
legal by the row, so it decodes. -/
theorem assemblyPlacesNamedOperands : Obligations.AssemblyPlacesNamedOperands := by
  refine ⟨fun m args w h => ?_, fun m => ?_, by decide⟩
  · obtain ⟨r, hr, hm, hrow⟩ := rowOf_eq_some m
    rw [assemble_eq hrow] at h
    split at h
    · cases h
      obtain ⟨ha, hb, hc, hd⟩ := rowWord_fields hr (all_argFits_iff.1 ‹_›)
      obtain ⟨hopc, hres, -⟩ := legalBy_rowWord r args
      exact ⟨r, hr, hm, hopc, hres, ha, hb, hc, hd, decodeCommand_ok_iff.2 ⟨r, hr, legalBy_rowWord r args⟩⟩
    · cases h
  · obtain ⟨r, hr, hm, hrow⟩ := rowOf_eq_some m
    refine ⟨r, hr, hm, fun args => ?_⟩
    simp only [← argFits_iff]
    rw [assemble_eq hrow, ← all_argFits_iff]
    split <;> simp [*]

end Sys2Proof.Machine
end

section
/-! PROOF. How the commands compose (R175): a payload built into a frame, a frame received and parsed back into its payload, and
the three exchanges made of them. -/

namespace Sys2Proof.Machine

variable {s t u : State} {i : Instr} {a f : Byte} {payload : List Byte}

/-- Instructions run in order are those of the first part and then those of the second. -/
theorem runsOk_append {is js : List Instr} (h1 : RunsOk is s u) (h2 : RunsOk js u t) : RunsOk (is ++ js) s t := by
  induction is generalizing s with
  | nil => exact h1 ▸ h2
  | cons i is ih =>
    obtain ⟨v, hexec, hok, hrest⟩ := h1
    exact ⟨v, hexec, hok, ih hrest⟩

/-- The frame of R77 with the right checksum is the sealed body. -/
theorem frameOf_crc16 (a f : Byte) (payload : List Byte) :
    frameOf a f payload (crc16 (a :: f :: payload)) = sealFrame (a :: f :: payload) := rfl

/-- FRAME_BUILD of a written payload that fits leaves the sealed frame (R122). -/
theorem exec_frameBuild_of_holds (ha : validAddr a = true) (hlen : s.plen.toNat = payload.length)
    (hle : payload.length ≤ 252) (hpb : s.pb.holds 0 payload) :
    exec (.frameBuild a f) s = .next ((s.putFrame (sealFrame (a :: f :: payload))).setStatus 0) := by
  rw [exec_frameBuild_of_le ha (by omega), hlen, withPbRange_of_holds hpb]
  rfl

/-- A command that leaves a payload, and FRAME_BUILD after it, leave the payload's frame in FB (R175). -/
theorem runsOk_build (ha : validAddr a = true) (hle : payload.length ≤ 252)
    (hi : exec i s = .next ((s.putPayload payload).setStatus 0)) :
    ∃ u : State, RunsOk [i, .frameBuild a f] s u ∧ u.flen.toNat = payload.length + 4 ∧
      u.fb.holds 0 (frameOf a f payload (crc16 (a :: f :: payload))) := by
  have hbuild := exec_frameBuild_of_holds (s := (s.putPayload payload).setStatus 0) (f := f) ha
    (toNat_ofNat_of_lt (by omega)) hle (stored_writeRange s.pb payload).holds
  refine ⟨_, ⟨_, hi, fun _ => rfl, _, hbuild, fun _ => rfl, rfl⟩, ?_, ?_⟩
  · rw [State.setStatus_flen, State.putFrame_flen, toNat_ofNat_of_lt (by simp; omega)]
    simp
  · rw [frameOf_crc16]
    exact (stored_writeRange s.fb _).holds

/-- A wire form that arrives leaves its frame in FB, whole (R25, R90). -/
theorem exec_wire_of_length {d : Direction} {bytes : List Byte} (hi : encode i = .frame d bytes) (hle : bytes.length ≤ 256)
    (s : State) : exec i s = .next (s.putFrame bytes) ∧ (s.putFrame bytes).flen.toNat = bytes.length ∧
      (s.putFrame bytes).fb.holds 0 bytes :=
  ⟨(exec_of_encode_frame hi).trans (loadFrame_of_length hle), toNat_ofNat_of_lt (by omega), (stored_writeRange s.fb bytes).holds⟩

/-- An instruction encoded by a frame is no command. -/
theorem isCommand_of_encode_frame {d : Direction} {bytes : List Byte} (h : encode i = .frame d bytes) :
    i.isCommand = false := by
  cases i with
  | wireReq03 | wireRsp03 | wireReq06 | wireRsp06 | wireReq10 | wireRsp10 | wireExc => rfl
  | _ => cases h

/-- A normal response with a right checksum that arrives and is parsed leaves its payload in PB (R125, R175). -/
theorem runsOk_receive_parse {d : Direction} {cap : Half}
    (hi : encode i = .frame d (frameOf a f payload (crc16 (a :: f :: payload)))) (hle : payload.length ≤ 252)
    (hcap : payload.length ≤ cap.toNat) (hexc : f ≠ f ||| 0x80) (s : State) :
    ∃ v : State, RunsOk [i, .frameParse a f cap] s v ∧ v.pb.holds 0 payload ∧ v.plen.toNat = payload.length ∧
      v.rspKind = 0 := by
  have hlen := frameOf_length a f payload (crc16 (a :: f :: payload))
  obtain ⟨hexec, hflen, hfb⟩ := exec_wire_of_length hi (by omega) s
  have hparse := exec_frameParse_normal (cap := cap) (by omega) (by omega) hfb (be16_hi_lo _).symm hexc hcap
  refine ⟨_, ⟨_, hexec, fun hc => ?_, _, hparse, fun _ => rfl, rfl⟩, (stored_writeRange _ payload).holds,
    toNat_ofNat_of_lt (by omega), rfl⟩
  rw [isCommand_of_encode_frame hi] at hc
  cases hc

/-- Settles O55: the request is MRS_WS's payload in a frame, its echo parses to the same payload, and that is the echo
CHK_WS_RSP confirms. -/
theorem writeSingleRoundTripConfirms : Obligations.WriteSingleRoundTripConfirms := by
  intro s slave addr value h1 h247
  obtain ⟨u, hbuild, hflen, hfb⟩ := runsOk_build (s := s) (i := .mrsWs addr value) (f := 0x06)
    (payload := [hi addr, lo addr, hi value, lo value]) (validAddr_eq_true.2 ⟨h1, h247⟩) (by simp) rfl
  refine ⟨⟨u, hbuild, BitVec.eq_of_toNat_eq hflen, hfb⟩, ?_⟩
  obtain ⟨v, hparse, hpb, hplen, -⟩ := runsOk_receive_parse
    (i := .wireRsp06 slave addr value (crc16 [slave, 0x06, hi addr, lo addr, hi value, lo value])) (cap := 4)
    (payload := [hi addr, lo addr, hi value, lo value]) rfl (by simp) (by simp) (by decide) u
  have hcheck : exec (.chkWsRsp addr value) v = .next { v with status := 0 } :=
    checkEcho_of_echo (BitVec.eq_of_toNat_eq hplen) hpb
  exact ⟨_, runsOk_append hbuild (runsOk_append hparse ⟨_, hcheck, fun _ => rfl, rfl⟩)⟩

/-- MRS_RD_RSP of written registers leaves their read response's payload (R156, R79). -/
theorem exec_mrsRdRsp_of_holds {count : Half} {regs : List Half} (h1 : 1 ≤ regs.length) (h125 : regs.length ≤ 125)
    (hcount : count.toNat = regs.length) (hrg : s.rg.holds 0 regs) :
    exec (.mrsRdRsp count) s = .next ((s.putPayload (readResponsePayload regs)).setStatus 0) := by
  rw [exec, execMrsRdRsp, checkCount_of_inside (by omega) (by omega), marshalRegisters, hcount, withRg_of_holds hrg]
  rfl

/-- UNM_RD_RSP of a read response's payload leaves its registers (R165, R79). -/
theorem exec_unmRdRsp_of_holds {count : Half} {regs : List Half} (h1 : 1 ≤ regs.length) (h125 : regs.length ≤ 125)
    (hcount : count.toNat = regs.length) (hplen : s.plen.toNat = (readResponsePayload regs).length)
    (hpb : s.pb.holds 0 (readResponsePayload regs)) :
    exec (.unmRdRsp count) s = .next ((s.putRegisters regs).setStatus 0) := by
  have hlen := readResponsePayload_length regs
  have hdata : s.pb.holds 1 (bytesBe16List regs) := by simpa [readResponsePayload] using Memory.holds_drop hpb 1
  rw [exec_unmRdRsp_of_nonempty (by omega) (by omega) (by omega) (by omega),
    withPb_of_read (Memory.read_of_holds hpb rfl), if_neg (by rw [toNat_byteCount h125]; omega), if_neg (by omega), hcount,
    ← bytesBe16List_length, withPbRange_of_holds hdata, be16List_bytesBe16List]
  rfl

/-- Settles O56: the response is MRS_RD_RSP's payload in a frame, it parses to the same payload, and UNM_RD_RSP unpacks that. -/
theorem readResponseCarriesTheRegisters : Obligations.ReadResponseCarriesTheRegisters := by
  intro s m slave count regs h1 h247 hpos h125 hcount hrg
  have hlen := readResponsePayload_length regs
  refine ⟨?_, ?_⟩
  · obtain ⟨u, hbuild, hflen, hfb⟩ := runsOk_build (f := 0x03) (validAddr_eq_true.2 ⟨h1, h247⟩) (by omega)
      (exec_mrsRdRsp_of_holds hpos h125 hcount hrg)
    exact ⟨u, hbuild, by omega, hfb⟩
  · obtain ⟨v, hparse, hpb, hplen, hkind⟩ := runsOk_receive_parse
      (i := .wireRsp03 slave regs (crc16 (slave :: 0x03 :: readResponsePayload regs))) (cap := 252) rfl (by omega)
      (by simp; omega) (by decide) m
    have hunpack := exec_unmRdRsp_of_holds hpos h125 hcount hplen hpb
    exact ⟨_, runsOk_append hparse ⟨_, hunpack, fun _ => rfl, rfl⟩, (stored_writeRange v.rg regs).holds, toNat_ofNat_of_lt (by omega),
      hkind⟩

/-- MRS_WM_REQ of written registers leaves their write-multiple request's payload (R154, R82). -/
theorem exec_mrsWmReq_of_holds {start count : Half} {regs : List Half} (h1 : 1 ≤ regs.length) (h123 : regs.length ≤ 123)
    (hcount : count.toNat = regs.length) (hrg : s.rg.holds 0 regs) :
    exec (.mrsWmReq start count) s = .next ((s.putPayload (writeRequestPayload start regs)).setStatus 0) := by
  rw [exec, execMrsWmReq, checkCount_of_inside (by omega) (by omega), marshalRegisters, hcount, withRg_of_holds hrg,
    eq_ofNat_of_toNat hcount]
  rfl

/-- SLAVE_PARSE of a write-multiple request with a right checksum decodes its start and its registers (R133, R82). -/
theorem exec_slaveParse_writeRequest {start : Half} {regs : List Half} (ha : validAddr a = true) (h123 : regs.length ≤ 123)
    (hflen : s.flen.toNat = 9 + 2 * regs.length)
    (hfb : s.fb.holds 0 (frameOf a 0x10 (writeRequestPayload start regs)
      (crc16 (a :: 0x10 :: writeRequestPayload start regs)))) :
    exec (.slaveParse a) s = ok ((s.setRequest 0x10 start (BitVec.ofNat 16 regs.length) 0
      (BitVec.ofNat 8 (2 * regs.length))).putRegisters regs) := by
  have hcount : (be16 (hi (BitVec.ofNat 16 regs.length)) (lo (BitVec.ofNat 16 regs.length))).toNat = regs.length := by
    rw [be16_hi_lo, toNat_ofNat_of_lt (by omega)]
  have hread {k : Nat} {b : Byte} := Memory.read_of_holds hfb (k := k) (v := b)
  have hdata : s.fb.holds 7 (bytesBe16List regs) := by
    simpa [frameOf, writeRequestPayload, readResponsePayload, bytesBe16] using
      Memory.holds_middle hfb 7 (bytesBe16List regs).length
  rw [exec_slaveParse_of_0x10 (data := bytesBe16List regs) ha (by omega) (by rw [bytesBe16List_length, hcount]) (by omega) hfb
      (be16_hi_lo _).symm,
    slaveDecode_0x10 (hread rfl) (hread rfl) (hread rfl) (by rw [bytesBe16List_length, hcount]) hdata, be16_hi_lo, be16_hi_lo,
    be16List_bytesBe16List]

/-- Settles O57: the request is MRS_WM_REQ's payload in a frame, and SLAVE_PARSE decodes that frame. -/
theorem writeRequestCarriesTheRegisters : Obligations.WriteRequestCarriesTheRegisters := by
  intro s m slave start count regs h1 h247 hpos h123 hcount hrg
  have hown := validAddr_eq_true.2 ⟨h1, h247⟩
  have hlen := writeRequestPayload_length start regs
  refine ⟨?_, ?_⟩
  · obtain ⟨u, hbuild, hflen, hfb⟩ := runsOk_build (f := 0x10) hown (by omega)
      (exec_mrsWmReq_of_holds (start := start) hpos h123 hcount hrg)
    exact ⟨u, hbuild, by omega, hfb⟩
  · have hframe := frameOf_length slave 0x10 (writeRequestPayload start regs)
      (crc16 (slave :: 0x10 :: writeRequestPayload start regs))
    obtain ⟨hexec, hflen, hfb⟩ := exec_wire_of_length
      (i := .wireReq10 slave start regs (crc16 (slave :: 0x10 :: writeRequestPayload start regs))) rfl (by omega) m
    have hparse := exec_slaveParse_writeRequest hown h123 (by omega) hfb
    exact ⟨_, ⟨_, hexec, nofun, _, hparse, fun _ => rfl, rfl⟩, rfl, rfl, (eq_ofNat_of_toNat hcount).symm,
      toNat_byteCount (by omega), (stored_writeRange m.rg regs).holds, toNat_ofNat_of_lt (by omega)⟩

end Sys2Proof.Machine
end
